-- ==== Sys2Proof/Config.lean ====
section
/-! DEFINITION. What an implementation fixes (the parameters of 00_scope.md rule R6) and the free values. A parameter the spec leaves
OPEN and a value it leaves unspecified are constants with no body here, so that no proof can lean on one value of them. -/

namespace Sys2Proof.Config

/-- `W - 2`: any natural number (R6: OPEN, a model argument; D3, U20). DESIGN CHOICE, entry 3. -/
opaque portExtra : Nat

/-- Width of a port's DIR, OUT, IN and of the two pin masks, at least 2 (R6). -/
def W : Nat := portExtra + 2

theorem two_le_W : 2 ≤ W := Nat.le_add_left 2 portExtra

/-- `LEN_BITS - 1`: any natural number (R6: OPEN, a model argument; D13, U20). DESIGN CHOICE, entry 3. -/
opaque lenExtra : Nat

/-- Width of `len` and of the WRITEBYTES count, at least 1 (R6). -/
def LEN_BITS : Nat := lenExtra + 1

theorem one_le_LEN_BITS : 1 ≤ LEN_BITS := Nat.le_add_left 1 lenExtra

/-- Width of the return bus (R6, D29). -/
def RET_BITS : Nat := max 8 LEN_BITS

theorem eight_le_RET_BITS : 8 ≤ RET_BITS := Nat.le_max_left 8 LEN_BITS

theorem lenBits_le_RET_BITS : LEN_BITS ≤ RET_BITS := Nat.le_max_right 8 LEN_BITS

/-- `QDEL_CYCLES - 1`: any natural number (R6: a model argument, 10 in the reference design; R83, D2, U19). DESIGN CHOICE,
entry 3. -/
opaque qdelExtra : Nat

/-- Clock cycles of one quarter-bit delay, at least 1 (R6, R83). -/
def QDEL_CYCLES : Nat := qdelExtra + 1

theorem one_le_QDEL_CYCLES : 1 ≤ QDEL_CYCLES := Nat.le_add_left 1 qdelExtra

/-- Clock cycles of one half-bit delay, exactly `2 * QDEL_CYCLES` (R6, R82). -/
abbrev HDEL_CYCLES : Nat := 2 * QDEL_CYCLES

/-- Width of the delay counter: just wide enough for `2 * QDEL_CYCLES` (R85; `delayBits_fit` below). DESIGN CHOICE, entry 6. -/
def DELAY_BITS : Nat := Nat.log2 HDEL_CYCLES + 1

theorem delayBits_fit : HDEL_CYCLES < 2 ^ DELAY_BITS := Nat.lt_log2_self

/-- The number of port references, less two: any natural number (R6: `PortRef` is OPEN, a model argument; D3, U20).
DESIGN CHOICE, entry 2. -/
opaque portRefExtra : Nat

/-- How many port references a platform has (R6). -/
abbrev PORT_REFS : Nat := portRefExtra + 2

/-- The number of addresses, less two: any natural number (R6: `Addr` is OPEN, a model argument; D13, U20).
DESIGN CHOICE, entry 4. -/
opaque addrExtra : Nat

/-- How many addresses a platform has, `NULL` among them (R6). -/
abbrev ADDRS : Nat := addrExtra + 2

/-- The operation `addr + i` of the platform's address type, for `i` of 1 or more: any operation (R6, R41, D13). DESIGN CHOICE,
entry 4. -/
opaque addrPlus : Fin ADDRS → Nat → Fin ADDRS

/-- The port whose registers lie at an address, if any: the platform's `GPIO_MAP` (R6, R49, D25, U20). DESIGN CHOICE, entry 15. -/
opaque gpioMap : Fin ADDRS → Option (Fin PORT_REFS)

/-- Whether an address without port registers has memory behind it (R42, U9). DESIGN CHOICE, entry 15. -/
opaque backed : Fin ADDRS → Bool

/-- The free byte that a load from an address that is no memory gives, after a number of clock cycles (R55, U9; entry 15). -/
opaque freeBusByte : Fin ADDRS → Nat → BitVec 8

/-- READBYTES success indicator (R6, D12). DESIGN CHOICE, entry 5. -/
abbrev READ_OK : Int := 0

/-- READBYTES failure indicator, negative (R6, D12). DESIGN CHOICE, entry 5. -/
abbrev READ_FAIL : Int := -1

/-- What a byte of buffer memory that is not listed reads as. DESIGN CHOICE, entry 14. -/
abbrev unlistedByte : BitVec 8 := 0

/-- The free value of RET from the acceptance of a command until a command returns a value (R17, U8; entry 9). -/
opaque freeRet : Nat → BitVec RET_BITS

/-- The free value of DATA after a command that wrote it has ended (R18, U11; entry 10). -/
opaque freeData : Nat → BitVec 8

/-- The free value of BITCNT after a command that wrote it has ended (R18, U11; entry 10). -/
opaque freeBitcnt : Nat → BitVec 3

/-- The free value of ACKL after a command that wrote it has ended (R18, U11; entry 10). -/
opaque freeAckl : Nat → Bool

/-- The free value of NACKF after a command that wrote it has ended (R18, U11; entry 10). -/
opaque freeNackf : Nat → Bool

/-- The free value of BUFR after a command that wrote it has ended (R18, U11; entry 10). -/
opaque freeBufr : Nat → Fin ADDRS

/-- The free value of LENR after a command that wrote it has ended (R18, U11; entry 10). -/
opaque freeLenr : Nat → BitVec LEN_BITS

/-- The free value of IDX after a command that wrote it has ended (R18, U11; entry 10). -/
opaque freeIdx : Nat → BitVec LEN_BITS

/-- The environment's free choice of `ext_low` on the bound port's pins at a sample (R30, U18; entry 11). -/
opaque freeExtLow : Nat → BitVec W

/-- The free level of a pin that is driven high while another device pulls it low (R26 line 4, U16; entry 12). -/
opaque freeContention : Nat → BitVec W

end Sys2Proof.Config
end

