-- ==== Sys2Proof/Word.lean ====
section
/-! DEFINITION. The word types of the block (00_scope.md rules R6, R7). -/

namespace Sys2Proof

/-- The "Byte Value": eight bits (R18). -/
abbrev Byte := BitVec 8

/-- A `W`-bit mask or port register value (R7). -/
abbrev Mask := BitVec Config.W

/-- A count of bytes: `len`, LENR, IDX (R6). -/
abbrev Len := BitVec Config.LEN_BITS

/-- The return bus (R17). -/
abbrev Ret := BitVec Config.RET_BITS

/-- The command word `CW[10:0]` (R61). -/
abbrev CommandWord := BitVec 11

/-- The value of the delay counter (R85). -/
abbrev DelayCount := BitVec Config.DELAY_BITS

/-- A reference to a GPIO port block: an opaque type with decidable equality, of any number of references (R6). The key tells
references apart and has no other meaning. DESIGN CHOICE, entry 2. -/
structure PortRef where
  key : Fin Config.PORT_REFS
  deriving DecidableEq, Repr

/-- A buffer reference: an opaque type, of any number of values, with `NULL` and an operation `+ i` (R6, R41). The key tells
addresses apart and has no other meaning. DESIGN CHOICE, entry 4. -/
structure Addr where
  key : Fin Config.ADDRS
  deriving DecidableEq, Repr

/-- `NULL`, the all-zeros address (R6, R54). -/
def nullAddr : Addr := { key := 0 }

/-- `addr + i`: the address itself for 0, else the platform's operation (R6, R41; entry 4). -/
def Addr.plus (a : Addr) (i : Nat) : Addr := if i = 0 then a else { key := Config.addrPlus a.key i }

/-- What the platform has at an address of the bus (R42, R49, U9, U10). -/
inductive AddrKind where
  /-- A byte of memory. -/
  | memory
  /-- A register of a GPIO port. -/
  | port (p : PortRef)
  /-- Another device, or nothing. -/
  | elsewhere
  deriving DecidableEq, Repr

end Sys2Proof
end

