-- ==== Sys2Proof/Syntax.lean ====
section
/-! DEFINITION. The seven commands (30_encoding.md rule R60), the side operands they are issued with (R61, R62), and the
micro-operations they are made of (R73). -/

namespace Sys2Proof

/-- A command of the block, with its operands; one constructor per row of spec/opcode_table.json (R60, R68). -/
inductive Instr where
  | start (port : PortRef) (sda scl : Mask)
  | restart
  | stop
  | writeByte (value : Byte)
  | readByte (nack : Bool)
  | writeBytes (buf : Addr) (len : Len)
  | readBytes (buf : Addr) (len : Len)
  deriving DecidableEq, Repr

/-- The values on the side-operand ports `op_port`, `op_sda`, `op_scl`, `op_buf`, `op_len` (R62). -/
structure SideOperands where
  port : PortRef
  sda  : Mask
  scl  : Mask
  buf  : Addr
  len  : Len
  deriving DecidableEq, Repr

/-- A micro-operation as an entry of the trace `T`; a sample carries the bit it returned (R32, R73). -/
inductive Micro where
  | drvSda
  | relSda
  | drvScl
  | relScl
  | relBoth
  | clrBoth
  | smpSda (bit : Bool)
  | waitQ
  | waitH
  deriving DecidableEq, Repr

end Sys2Proof
end

