-- ==== Sys2Proof/WellFormed.lean ====
section
/-! DEFINITION. Well-formed commands: the shape the spec asks of the operands (10_state.md rule R15, 44_transaction_sequencer.md
rule R154). -/

namespace Sys2Proof

/-- The number of bits set in a mask (R15); no bit above the highest set one counts. -/
def popcount {w : Nat} (m : BitVec w) : Nat := ((List.range (m.toNat.log2 + 1)).filter m.toNat.testBit).length

/-- A "single-bit" mask has exactly one bit set (R7). -/
def singleBit {w : Nat} (m : BitVec w) : Bool := popcount m == 1

/-- The session invariant on the masks: `popcount(SDA) = 1`, `popcount(SCL) = 1`, `SDA & SCL = 0` (R15). -/
def pinMasks {w : Nat} (sda scl : BitVec w) : Bool := singleBit sda && singleBit scl && (sda &&& scl == 0)

/-- Whether a command's operands are in the spec's domain: START's masks meet R15; READBYTES with a buffer has
`len >= 1` (R154). -/
def Instr.wellFormed : Instr → Bool
  | .start _ sda scl   => pinMasks sda scl
  | .restart           => true
  | .stop              => true
  | .writeByte _       => true
  | .readByte _        => true
  | .writeBytes _ _    => true
  | .readBytes buf len => buf == nullAddr || len != 0

end Sys2Proof
end

