-- ==== Sys2Proof/Decode.lean ====
section
/-! DEFINITION. Decoding a command word with its side operands (30_encoding.md rules R61 to R70), total, every reserved word
rejected by name; and the encoder, written from the same table. -/

namespace Sys2Proof

/-- Why a command word is reserved (R69). -/
inductive DecodeError where
  /-- `op = 111`. -/
  | reservedOpcode
  /-- `op` in 000, 001, 010, 101, 110 with `imm != 0`. -/
  | immediateNotZero
  /-- `op = 100` with `CW[7:1] != 0`. -/
  | readBitsNotZero
  deriving DecidableEq, Repr

/-- `CW[10:8]` (R61). -/
def opField (cw : CommandWord) : BitVec 3 := cw.extractLsb' 8 3

/-- `CW[7:0]` (R61). -/
def immField (cw : CommandWord) : Byte := cw.extractLsb' 0 8

/-- `CW[7:1]`, which must be zero in READBYTE (R61). -/
def readZeroField (cw : CommandWord) : BitVec 7 := cw.extractLsb' 1 7

/-- `CW[0]`, READBYTE's `nack` (R65). -/
def nackField (cw : CommandWord) : Bool := cw.getLsbD 0

/-- A format whose immediate must be zero (R61). -/
def needZeroImm (cw : CommandWord) (i : Instr) : Except DecodeError Instr :=
  if immField cw = 0 then .ok i else .error .immediateNotZero

/-- The command a word and its side operands stand for; side operands a format does not list are ignored (R61, R68). -/
def decode (cw : CommandWord) (ops : SideOperands) : Except DecodeError Instr :=
  if opField cw = 0b000#3 then needZeroImm cw (.start ops.port ops.sda ops.scl)
  else if opField cw = 0b001#3 then needZeroImm cw .restart
  else if opField cw = 0b010#3 then needZeroImm cw .stop
  else if opField cw = 0b011#3 then .ok (.writeByte (immField cw))
  else if opField cw = 0b100#3 then
    if readZeroField cw = 0 then .ok (.readByte (nackField cw)) else .error .readBitsNotZero
  else if opField cw = 0b101#3 then needZeroImm cw (.writeBytes ops.buf ops.len)
  else if opField cw = 0b110#3 then needZeroImm cw (.readBytes ops.buf ops.len)
  else .error .reservedOpcode

/-- Side operands with nothing on the ports. -/
def noOperands : SideOperands := { port := { key := 0 }, sda := 0, scl := 0, buf := nullAddr, len := 0 }

/-- A command word from its opcode and immediate (R61). -/
def commandWord (op : BitVec 3) (imm : Byte) : CommandWord := op ++ imm

/-- The command word of a command (R68). -/
def encodeWord : Instr → CommandWord
  | .start _ _ _    => commandWord 0b000#3 0
  | .restart        => commandWord 0b001#3 0
  | .stop           => commandWord 0b010#3 0
  | .writeByte v    => commandWord 0b011#3 v
  | .readByte n     => commandWord 0b100#3 (if n then 1 else 0)
  | .writeBytes _ _ => commandWord 0b101#3 0
  | .readBytes _ _  => commandWord 0b110#3 0

/-- The side operands of a command; a port its format does not list carries zero (R61, R63, R66). -/
def encodeOperands : Instr → SideOperands
  | .start p sda scl    => { noOperands with port := p, sda := sda, scl := scl }
  | .restart            => noOperands
  | .stop               => noOperands
  | .writeByte _        => noOperands
  | .readByte _         => noOperands
  | .writeBytes buf len => { noOperands with buf := buf, len := len }
  | .readBytes buf len  => { noOperands with buf := buf, len := len }

/-- The word and the side operands that issue a command (R61). -/
def encode (i : Instr) : CommandWord × SideOperands := (encodeWord i, encodeOperands i)

/-- A row of the opcode map: the word `w` selects it when `w & mask = match` (R68). -/
structure OpcodeRow where
  mnemonic : String
  value    : CommandWord
  mask     : CommandWord
  deriving DecidableEq, Repr

/-- The complete opcode map (R68). -/
def opcodeMap : List OpcodeRow :=
  [ { mnemonic := "START",      value := 0x000#11, mask := 0x7FF#11 },
    { mnemonic := "RESTART",    value := 0x100#11, mask := 0x7FF#11 },
    { mnemonic := "STOP",       value := 0x200#11, mask := 0x7FF#11 },
    { mnemonic := "WRITEBYTE",  value := 0x300#11, mask := 0x700#11 },
    { mnemonic := "READBYTE",   value := 0x400#11, mask := 0x7FE#11 },
    { mnemonic := "WRITEBYTES", value := 0x500#11, mask := 0x7FF#11 },
    { mnemonic := "READBYTES",  value := 0x600#11, mask := 0x7FF#11 } ]

/-- Whether a command word selects a row (R68). -/
def rowSelects (w : CommandWord) (r : OpcodeRow) : Bool := w &&& r.mask == r.value

/-- The mnemonic of a command (R60). -/
def mnemonicOf : Instr → String
  | .start _ _ _    => "START"
  | .restart        => "RESTART"
  | .stop           => "STOP"
  | .writeByte _    => "WRITEBYTE"
  | .readByte _     => "READBYTE"
  | .writeBytes _ _ => "WRITEBYTES"
  | .readBytes _ _  => "READBYTES"

/-- The two lowest pins exist on every port (R6). -/
theorem lowPin_lt {n : Nat} (h : n < 4) : n < 2 ^ Config.W :=
  Nat.lt_of_lt_of_le h (Nat.pow_le_pow_right (n := 2) (by decide) Config.two_le_W)

/-- The mask of one of the bits 0 and 1, or of both. -/
def lowMask (n : Nat) (h : n < 4) : Mask := BitVec.ofNatLT n (lowPin_lt h)

/-- The side operands the model presents with a bare word of spec/opcode_table.json, which gives them no bits: port 0, the two
lowest pins, no buffer. DESIGN CHOICE, entry 16. -/
def tableOperands : SideOperands :=
  { noOperands with sda := lowMask 1 (by decide), scl := lowMask 2 (by decide) }

/-- The command word in the low bits of a table word; the port `cmd_word` has eleven lines (R62). -/
def tableCommandWord (nbits w : Nat) : CommandWord := BitVec.ofNat 11 (w % 2 ^ nbits)

/-- The command the decoder reads from a word of spec/opcode_table.json, presented with `tableOperands`. -/
def decodeTableWord (nbits w : Nat) : Option Instr :=
  match decode (tableCommandWord nbits w) tableOperands with
  | .ok i    => some i
  | .error _ => none

end Sys2Proof
end

