-- ==== Sys2Proof/Machine/State.lean ====
section
/-! DEFINITION. The architectural state (10_state.md), the reasons a step can stop, and the state after reset
(10_state.md rule R35, 70_reset_and_hazards.md rule R201). -/

namespace Sys2Proof.Machine

/-- The steps of START that perform a micro-operation, numbered as in R111. -/
inductive StartStep where
  | s2 | s3 | s4 | s5 | s6 | s7
  deriving DecidableEq, Repr

/-- The steps of RESTART, numbered as in R113. -/
inductive RestartStep where
  | s1 | s2 | s3 | s4 | s5 | s6 | s7 | s8
  deriving DecidableEq, Repr

/-- The steps of STOP, numbered as in R115. -/
inductive StopStep where
  | s1 | s2 | s3 | s4 | s5 | s6
  deriving DecidableEq, Repr

/-- The steps of a WRITEBYTE body, numbered as in R131. -/
inductive WriteStep where
  | w2a | w2b | w2c | w2d | w2e | w3 | w4 | w5 | w6 | w7 | w8 | w9 | w10
  deriving DecidableEq, Repr

/-- The steps of a READBYTE body, numbered as in R135. -/
inductive ReadStep where
  | r2 | r3a | r3b | r3c | r3d | r3e | r4 | r5 | r6 | r7 | r8 | r9
  deriving DecidableEq, Repr

/-- The sequencer position SEQ (R19): IDLE, or the command and the step whose micro-operation comes next. For READBYTES `last`
tells the body of step 7 of R154 from the body of step 6a. -/
inductive Seq where
  | idle
  | start (k : StartStep)
  | restart (k : RestartStep)
  | stop (k : StopStep)
  | writeByte (k : WriteStep)
  | readByte (k : ReadStep)
  | writeBytes (k : WriteStep)
  | readBytes (last : Bool) (k : ReadStep)
  deriving DecidableEq, Repr

/-- The stored registers of one GPIO port of `w` pins; IN follows the pins and is not stored (R20). -/
structure PortRegs (w : Nat) where
  dir : BitVec w
  out : BitVec w
  deriving DecidableEq, Repr

/-- The registers of a port that nothing has written: PRESUMED, the XMEGA family's reset values (entry 1). -/
def PortRegs.reset {w : Nat} : PortRegs w := { dir := 0, out := 0 }

/-- The values on the host's input ports in one step (R62). -/
structure HostPins where
  cmdValid : Bool
  cmdWord  : CommandWord
  ops      : SideOperands
  deriving DecidableEq, Repr

/-- Everything the spec gives the machine, the inputs still to come, and three counters of the model's own. -/
structure State where
  /-- PORT (R11). -/
  port   : PortRef
  /-- SDA, the mask of the data pin (R12). -/
  sda    : Mask
  /-- SCL, the mask of the clock pin (R13). -/
  scl    : Mask
  /-- BOUND: a Bus Session exists (R14). -/
  bound  : Bool
  /-- BUSY (R16). -/
  busy   : Bool
  /-- RET (R17). -/
  ret    : Ret
  /-- SEQ (R19). -/
  seq    : Seq
  /-- DATA (R18). -/
  data   : Byte
  /-- BITCNT (R18). -/
  bitcnt : BitVec 3
  /-- ACKL: 0 = acknowledge, 1 = not-acknowledge (R18, R31). -/
  ackl   : Bool
  /-- NACKF (R18). -/
  nackf  : Bool
  /-- BUFR (R18). -/
  bufr   : Addr
  /-- LENR (R18). -/
  lenr   : Len
  /-- IDX (R18). -/
  idx    : Len
  /-- The delay counter (R85). -/
  delay  : DelayCount
  /-- The trace T, oldest first (R32). -/
  trace  : List Micro
  /-- DIR and OUT of every port, by port reference; a port not listed holds `PortRegs.reset` (R20). -/
  gpio   : List (Nat × PortRegs Config.W)
  /-- Caller buffer memory (R41); a byte not listed reads `Config.unlistedByte`. -/
  mem    : List Host.Cell
  /-- What the host puts on its ports, one entry a step, the next first; then it presents nothing (R62, R71; entry 16). -/
  host   : List HostPins
  /-- The reset input: how many micro-operations pass before each coming assertion of `rst` (R200; entry 8). -/
  rst    : List Nat
  /-- `ext_low` of the bound port at the coming samples, the next first; then it is `Config.freeExtLow` (R26, R30; entry 11). -/
  extLow : List Mask
  /-- The model's own: samples drawn so far (entry 22). -/
  samples : Nat
  /-- The model's own: the argument of the next free register values (entry 22). -/
  fresh  : Nat
  /-- The model's own: cycles of `clk` passed in delays (R81, R82; entry 22). -/
  cycles : Nat
  deriving DecidableEq, Repr

/-- The machine right after reset (R35, R201): no session, idle, an empty trace; the registers the spec leaves unspecified hold
the values of entries 1 and 7, memory lists nothing and no input has arrived. -/
def State.reset : State where
  port    := { key := 0 }
  sda     := 0
  scl     := 0
  bound   := false
  busy    := false
  ret     := 0
  seq     := .idle
  data    := 0
  bitcnt  := 0
  ackl    := false
  nackf   := false
  bufr    := nullAddr
  lenr    := 0
  idx     := 0
  delay   := 0
  trace   := []
  gpio    := []
  mem     := []
  host    := []
  rst     := []
  extLow  := []
  samples := 0
  fresh   := 0
  cycles  := 0

/-- The spec has no trap and no fault (R170). -/
inductive Fault where
  /-- Raised by `step` when a micro-operation is to be performed while BOUND = 0: it would read PORT, SDA and SCL, which hold no
  defined value then (R99, U12 "a read is a `fault` of the model"). No run from reset meets it. Safe: the machine stops. -/
  | sessionUnbound
  deriving DecidableEq, Repr

/-- The uses the spec gives no meaning and tells a model to refuse (R175). -/
inductive Refusal where
  /-- An arm of `exec` without a meaning; no arm raises it. Safe. -/
  | notModelled (mnemonic : String)
  /-- Raised by `step` for a command word that no row of the opcode map matches (R69, U1). Safe. -/
  | reservedWord (why : DecodeError)
  /-- Raised by RESTART, STOP, WRITEBYTE, READBYTE and a bus-touching WRITEBYTES or READBYTES while BOUND = 0
  (R175 `no_session`, U2). Safe. -/
  | noSession
  /-- Raised by START whose masks break the session invariant (R175 `bad_masks`, U5). Safe. -/
  | badMasks
  /-- Raised by READBYTES with a buffer and `len = 0` (R175 `read_length_zero`, U3). Safe. -/
  | readLengthZero
  /-- Raised by READBYTES with a buffer that has a byte at the registers of the bound port (R55, U10). Safe. -/
  | bufferOverPort
  /-- Raised by READBYTES with a buffer that has a byte at another device or at no memory, where the spec gives a store no effect
  (R42, U9). Safe. -/
  | bufferNotMemory
  deriving DecidableEq, Repr

end Sys2Proof.Machine
end

