-- ==== Sys2Proof/Machine/Flags.lean ====
section
/-! DEFINITION. The block's only status computations: the one-bit sample, the shift of the read accumulator, and the values put
on the return bus (10_state.md rules R17, R31; 41_line_controller.md rule R97; 43_byte_transfer.md rules R134, R136, R139). -/

namespace Sys2Proof.Machine

/-- `bool(v & SDA)`: 1 if the SDA pin reads high (R97). -/
def sampleBit {w : Nat} (v sda : BitVec w) : Bool := v &&& sda != 0

/-- `{DATA[6:0], s}`: shift left by one, the new bit into bit 0 (R135 step 3c, R136). -/
def shiftIn (data : Byte) (s : Bool) : Byte := (data <<< 1) ||| (BitVec.ofBool s).setWidth 8

/-- `DATA[BITCNT]` (R131 step 2a, R139). -/
def dataBit (data : Byte) (bitcnt : BitVec 3) : Bool := data.getLsbD bitcnt.toNat

/-- RET of WRITEBYTE: `zext(ACKL)`, exactly 0 or 1 (R134). -/
def retAck (ackl : Bool) : Ret := (BitVec.ofBool ackl).setWidth Config.RET_BITS

/-- RET of READBYTE: the byte, zero-extended (R67). -/
def retByte (data : Byte) : Ret := data.setWidth Config.RET_BITS

/-- RET of WRITEBYTES: the count, zero-extended (R67). -/
def retCount (n : Len) : Ret := n.setWidth Config.RET_BITS

/-- RET of READBYTES on success: READ_OK, sign-extended (R67). -/
def retReadOk : Ret := BitVec.ofInt Config.RET_BITS Config.READ_OK

/-- RET of READBYTES on failure: READ_FAIL, sign-extended (R67). -/
def retReadFail : Ret := BitVec.ofInt Config.RET_BITS Config.READ_FAIL

end Sys2Proof.Machine
end

