-- ==== Sys2Proof/Machine/Ops.lean ====
section
/-! DEFINITION. The named operations over the state: the two sparse stores, the four GPIO operations (10_state.md rules R21 to
R24), the line level (R25, R26), buffer memory (20_memory.md rule R42), the delays (40_timing_primitives.md), the line
micro-operations (41_line_controller.md), acceptance, return and reset. The block has no trap: there is no exception to take
or to return from (60_exceptions.md rules R170, R179). -/

namespace Sys2Proof.Machine

/-! ### Sparse stores: strictly rising keys, no entry equal to the default -/

/-- What a store holds at a key. -/
def cellsRead {α : Type} (dflt : α) : List (Nat × α) → Nat → α
  | [], _ => dflt
  | (k, v) :: r, a => if a = k then v else cellsRead dflt r a

/-- Put a value at a key, keeping the keys rising. -/
def cellsInsert {α : Type} : List (Nat × α) → Nat → α → List (Nat × α)
  | [], a, v => [(a, v)]
  | (k, w) :: r, a, v =>
    if a < k then (a, v) :: (k, w) :: r else if a = k then (a, v) :: r else (k, w) :: cellsInsert r a v

/-- Write a value at a key; writing the default removes the entry. -/
def cellsWrite {α : Type} [DecidableEq α] (dflt : α) (l : List (Nat × α)) (a : Nat) (v : α) : List (Nat × α) :=
  if v = dflt then l.filter (fun c => c.1 != a) else cellsInsert l a v

/-- The canonical form: keys strictly rising, no entry equal to the default. -/
def cellsWf {α : Type} [DecidableEq α] (dflt : α) : List (Nat × α) → Bool
  | [] => true
  | (k, v) :: r => (v != dflt) && (r.all fun c => decide (k < c.1)) && cellsWf dflt r

/-! ### Caller buffer memory -/

/-- What the platform has at an address (R49, U9, U10): memory at the address of key 1, since a platform has some buffer, and
elsewhere what its map says (entry 15). -/
def addrKind (a : Addr) : AddrKind :=
  if a.key.val = 1 then .memory
  else
    match Config.gpioMap a.key with
    | some p => .port { key := p }
    | none   => if Config.backed a.key then .memory else .elsewhere

/-- Whether an address is one of buffer memory (R41). -/
def isMemory (a : Addr) : Bool := addrKind a == .memory

/-- The byte of buffer memory at an address (R42). -/
def memRead (s : State) (a : Addr) : Byte := cellsRead Config.unlistedByte s.mem a.key.val

/-- `MemRead(addr, 1)`: the byte of memory, and from an address that is no memory a free byte (R42, R55, U9; entry 15). -/
def loadByte (s : State) (a : Addr) : Byte := if isMemory a then memRead s a else Config.freeBusByte a.key s.cycles

/-- `MemWrite(addr, 1, v)` (R42); the engine uses it on addresses of memory only (READBYTES refuses the others). -/
def memWrite (a : Addr) (v : Byte) (s : State) : State := { s with mem := cellsWrite Config.unlistedByte s.mem a.key.val v }

/-- Every key of a store is below a number. -/
def cellsBelow {α : Type} (n : Nat) (l : List (Nat × α)) : Bool := l.all fun c => decide (c.1 < n)

/-- Buffer memory is in canonical form, and lists addresses of the platform only. -/
abbrev memoryWf (s : State) : Prop := cellsWf Config.unlistedByte s.mem = true ∧ cellsBelow Config.ADDRS s.mem = true

/-! ### The GPIO block -/

/-- DIR and OUT of port `p` (R20). -/
def portRegs (s : State) (p : PortRef) : PortRegs Config.W := cellsRead PortRegs.reset s.gpio p.key.val

/-- Set DIR and OUT of port `p`. -/
def setPortRegs (p : PortRef) (r : PortRegs Config.W) (s : State) : State :=
  { s with gpio := cellsWrite PortRegs.reset s.gpio p.key.val r }

/-- The GPIO registers are in canonical form, and list ports of the platform only. -/
abbrev gpioWf (s : State) : Prop := cellsWf PortRegs.reset s.gpio = true ∧ cellsBelow Config.PORT_REFS s.gpio = true

/-- Direction-set on a port's registers: `DIR | m` (R21). -/
def dirSet {w : Nat} (m : BitVec w) (r : PortRegs w) : PortRegs w := { r with dir := r.dir ||| m }

/-- Direction-clear on a port's registers: `DIR & ~m` (R22). -/
def dirClr {w : Nat} (m : BitVec w) (r : PortRegs w) : PortRegs w := { r with dir := r.dir &&& ~~~m }

/-- Output-clear on a port's registers: `OUT & ~m` (R23). -/
def outClr {w : Nat} (m : BitVec w) (r : PortRegs w) : PortRegs w := { r with out := r.out &&& ~~~m }

/-- `GpioDirSet(p, m)` (R21). -/
def gpioDirSet (p : PortRef) (m : Mask) (s : State) : State := setPortRegs p (dirSet m (portRegs s p)) s

/-- `GpioDirClr(p, m)` (R22). -/
def gpioDirClr (p : PortRef) (m : Mask) (s : State) : State := setPortRegs p (dirClr m (portRegs s p)) s

/-- `GpioOutClr(p, m)` (R23). -/
def gpioOutClr (p : PortRef) (m : Mask) (s : State) : State := setPortRegs p (outClr m (portRegs s p)) s

/-- The level of one pin by the four lines of R26, from its DIR and OUT bits and `ext_low`; `undef` is the level of line 4,
contention, which the spec leaves undefined (entry 12). -/
def lineLevel (dir out extLow undef : Bool) : Bool :=
  if dir && !out then false
  else if dir && out && extLow then undef
  else !extLow

/-- IN of a port: bit `i` is the level of pin `i` (R24, R26), for all pins at once. -/
def inWord {w : Nat} (r : PortRegs w) (extLow undef : BitVec w) : BitVec w :=
  (~~~extLow &&& (~~~r.dir ||| r.out)) ||| (r.dir &&& r.out &&& extLow &&& undef)

/-- `ext_low` of the bound port at the `k`-th coming sample (R30): listed, or free. -/
def extWord (s : State) (k : Nat) : Mask := (s.extLow[k]?).getD (Config.freeExtLow (s.samples + k))

/-- One sample of the environment passes. -/
def drawSample (s : State) : State := { s with extLow := s.extLow.drop 1, samples := s.samples + 1 }

/-- The value `GpioIn(p)` returns now: IN at the instant of the read (R24). -/
def gpioIn (s : State) (p : PortRef) : Mask :=
  inWord (portRegs s p) (extWord s 0) (Config.freeContention s.samples)

/-! ### Micro-operations: each appends its entry to T and has its effect (R32) -/

/-- Append a micro-operation to T (R32). -/
def logMicro (u : Micro) (s : State) : State := { s with trace := s.trace ++ [u] }

/-- The delay counter after `n` cycles of counting down (R85). -/
def countDown : Nat → DelayCount → DelayCount
  | 0, c => c
  | n + 1, c => countDown n (c - 1)

/-- A delay of `n` cycles of `clk`: the counter is loaded with `n` and counted to zero (R85). -/
def delayFor (n : Nat) (s : State) : State :=
  { s with delay := countDown n (BitVec.ofNat Config.DELAY_BITS n), cycles := s.cycles + n }

/-- `WAIT_Q` (R81). -/
def waitQ (s : State) : State := delayFor Config.QDEL_CYCLES (logMicro .waitQ s)

/-- `WAIT_H` (R82). -/
def waitH (s : State) : State := delayFor Config.HDEL_CYCLES (logMicro .waitH s)

/-- `DRV_SDA` (R91). -/
def drvSda (s : State) : State := gpioDirSet s.port s.sda (logMicro .drvSda s)

/-- `REL_SDA` (R92). -/
def relSda (s : State) : State := gpioDirClr s.port s.sda (logMicro .relSda s)

/-- `DRV_SCL` (R93). -/
def drvScl (s : State) : State := gpioDirSet s.port s.scl (logMicro .drvScl s)

/-- `REL_SCL` (R94). -/
def relScl (s : State) : State := gpioDirClr s.port s.scl (logMicro .relScl s)

/-- `REL_BOTH` (R95). -/
def relBoth (s : State) : State := gpioDirClr s.port (s.sda ||| s.scl) (logMicro .relBoth s)

/-- `CLR_BOTH` (R96). -/
def clrBoth (s : State) : State := gpioOutClr s.port (s.sda ||| s.scl) (logMicro .clrBoth s)

/-- The bit `SMP_SDA` returns now (R97). -/
def sampledBit (s : State) : Bool := sampleBit (gpioIn s s.port) s.sda

/-- `emit(u)`: append `u` to T and perform it (R8, R32); a sample entry is given with the bit it returned. -/
def emit : Micro → State → State
  | .drvSda, s   => drvSda s
  | .relSda, s   => relSda s
  | .drvScl, s   => drvScl s
  | .relScl, s   => relScl s
  | .relBoth, s  => relBoth s
  | .clrBoth, s  => clrBoth s
  | .smpSda b, s => drawSample (logMicro (.smpSda b) s)
  | .waitQ, s    => waitQ s
  | .waitH, s    => waitH s

/-- `SMP_SDA`: the read itself changes T only; the sample of the environment passes (R97). -/
def smpSda (s : State) : State := emit (.smpSda (sampledBit s)) s

/-- `SET_SDA(b)`: drive low for 0, release for 1 (R100). -/
def setSda (b : Bool) (s : State) : State := emit (if b then .relSda else .drvSda) s

/-- Emit a list of micro-operations, in order (R46). -/
def emitAll (us : List Micro) (s : State) : State := us.foldl (fun s u => emit u s) s

/-! ### Acceptance, return, reset -/

/-- Acceptance of a command: BUSY rises and RET is no longer valid (R17, R74; entry 9). -/
def accept (s : State) : State := { s with busy := true, ret := Config.freeRet s.fresh, fresh := s.fresh + 1 }

/-- The end of a command: `BUSY <- 0`, `SEQ <- IDLE` (R17). -/
def returnNone (s : State) : State := { s with busy := false, seq := .idle }

/-- `return v`: `RET <- v`, `BUSY <- 0`, `SEQ <- IDLE` (R17). -/
def returnValue (v : Ret) (s : State) : State := { s with ret := v, busy := false, seq := .idle }

/-- DATA, BITCNT and ACKL are unspecified after a command that wrote them (R18; entry 10). -/
def forgetWrite (s : State) : State :=
  { s with data := Config.freeData s.fresh, bitcnt := Config.freeBitcnt s.fresh, ackl := Config.freeAckl s.fresh,
           fresh := s.fresh + 1 }

/-- DATA, BITCNT and NACKF are unspecified after a command that wrote them (R18; entry 10). -/
def forgetRead (s : State) : State :=
  { s with data := Config.freeData s.fresh, bitcnt := Config.freeBitcnt s.fresh, nackf := Config.freeNackf s.fresh,
           fresh := s.fresh + 1 }

/-- BUFR and LENR are unspecified after a command that wrote them (R18; entry 10). -/
def forgetOperands (s : State) : State :=
  { s with bufr := { key := Config.freeBufr s.fresh }, lenr := Config.freeLenr s.fresh, fresh := s.fresh + 1 }

/-- IDX is unspecified after a command that wrote it (R18; entry 10). -/
def forgetIndex (s : State) : State := { s with idx := Config.freeIdx s.fresh, fresh := s.fresh + 1 }

/-- The effect of `rst` (R201, R202): the block's own registers as after reset; no pin, no buffer byte and no other agent is
touched (entries 7 and 8). -/
def resetBlock (s : State) : State :=
  { State.reset with
    gpio := s.gpio, mem := s.mem, host := s.host, rst := s.rst, extLow := s.extLow,
    samples := s.samples, fresh := s.fresh, cycles := s.cycles }

end Sys2Proof.Machine
end

