-- ==== Sys2Proof/Machine/Operands.lean ====
section
/-! DEFINITION. The operand forms: the checks on operands (60_exceptions.md rules R175, R177), their capture into registers
(30_encoding.md rules R63 to R66), and the one addressing mode (44_transaction_sequencer.md rule R159). -/

namespace Sys2Proof.Machine

/-- START's mask operands meet the session invariant (R15, R175 `bad_masks`). -/
def masksOk (sda scl : Mask) : Bool := pinMasks sda scl

/-- `buf = NULL`, the only test on a buffer reference (R54). -/
def isNull (buf : Addr) : Bool := buf == nullAddr

/-- Format S: the operands are copied to PORT, SDA and SCL unchanged, and the session exists (R63, R111 step 1). -/
def bindSession (port : PortRef) (sda scl : Mask) (s : State) : State :=
  { s with port := port, sda := sda, scl := scl, bound := true }

/-- Format M: `op_buf` to BUFR and `op_len` to LENR, unchanged (R66). -/
def captureBuffer (buf : Addr) (len : Len) (s : State) : State := { s with bufr := buf, lenr := len }

/-- Whether a byte of the buffer is a register of the port `p` (R55, U10). -/
def bufferOnPort (p : PortRef) (buf : Addr) (len : Len) : Bool :=
  (List.range len.toNat).any fun i => addrKind (buf.plus i) == .port p

/-- Whether every byte of the buffer is memory (R41, R42, U9). -/
def bufferInMemory (buf : Addr) (len : Len) : Bool := (List.range len.toNat).all fun i => isMemory (buf.plus i)

/-- Effective address `BUFR + IDX`, no scaling (R159). -/
def effectiveAddr (s : State) : Addr := s.bufr.plus s.idx.toNat

/-- `MemRead(BUFR + IDX, 1)` (R151 step 4b). -/
def loadIndexed (s : State) : Byte := loadByte s (effectiveAddr s)

/-- `MemWrite(BUFR + IDX, 1, DATA)` (R154 steps 6b and 8). -/
def storeIndexed (s : State) : State := memWrite (effectiveAddr s) s.data s

end Sys2Proof.Machine
end

