-- ==== Sys2Proof/Machine/Engine.lean ====
section
/-! DEFINITION. The sequencer (10_state.md rule R19): for every position of SEQ the micro-operation performed there and the
position after it, following the pseudocode of files 42 to 44 step by step. The steps that perform no micro-operation (tests,
buffer accesses, `return`) happen with the micro-operation before them. -/

namespace Sys2Proof.Machine

/-- Move SEQ. -/
def goTo (q : Seq) (s : State) : State := { s with seq := q }

/-- START, steps 2 to 8 (R111). -/
def startStep : StartStep → State → State
  | .s2, s => goTo (.start .s3) (relBoth s)
  | .s3, s => goTo (.start .s4) (clrBoth s)
  | .s4, s => goTo (.start .s5) (waitH s)
  | .s5, s => goTo (.start .s6) (drvSda s)
  | .s6, s => goTo (.start .s7) (waitH s)
  | .s7, s => returnNone (drvScl s)

/-- RESTART, steps 1 to 9 (R113). -/
def restartStep : RestartStep → State → State
  | .s1, s => goTo (.restart .s2) (relSda s)
  | .s2, s => goTo (.restart .s3) (waitH s)
  | .s3, s => goTo (.restart .s4) (relScl s)
  | .s4, s => goTo (.restart .s5) (waitQ s)
  | .s5, s => goTo (.restart .s6) (drvSda s)
  | .s6, s => goTo (.restart .s7) (waitQ s)
  | .s7, s => goTo (.restart .s8) (drvScl s)
  | .s8, s => returnNone (waitH s)

/-- STOP, steps 1 to 7 (R115). -/
def stopStep : StopStep → State → State
  | .s1, s => goTo (.stop .s2) (drvSda s)
  | .s2, s => goTo (.stop .s3) (waitH s)
  | .s3, s => goTo (.stop .s4) (relScl s)
  | .s4, s => goTo (.stop .s5) (waitQ s)
  | .s5, s => goTo (.stop .s6) (relSda s)
  | .s6, s => returnNone (waitH s)

/-- The end of one data bit of WRITEBYTE: the next bit, or the acknowledge clock after bit 0 (R131 step 2). -/
def nextWriteBit (pos : WriteStep → Seq) (s : State) : State :=
  if s.bitcnt = 0 then goTo (pos .w3) s else goTo (pos .w2a) { s with bitcnt := s.bitcnt - 1 }

/-- A WRITEBYTE body, steps 2 to 10 (R131), inside the command whose positions are `pos`, which goes on with `done`. -/
def writeByteStep (pos : WriteStep → Seq) (done : State → State) : WriteStep → State → State
  | .w2a, s => goTo (pos .w2b) (setSda (dataBit s.data s.bitcnt) s)
  | .w2b, s => goTo (pos .w2c) (waitQ s)
  | .w2c, s => goTo (pos .w2d) (relScl s)
  | .w2d, s => goTo (pos .w2e) (waitH s)
  | .w2e, s => nextWriteBit pos (drvScl s)
  | .w3, s  => goTo (pos .w4) (relSda s)
  | .w4, s  => goTo (pos .w5) (waitH s)
  | .w5, s  => goTo (pos .w6) (relScl s)
  | .w6, s  => goTo (pos .w7) { smpSda s with ackl := sampledBit s }
  | .w7, s  => goTo (pos .w8) (waitH s)
  | .w8, s  => goTo (pos .w9) (drvScl s)
  | .w9, s  => goTo (pos .w10) (drvSda s)
  | .w10, s => done (waitH s)

/-- The head of a WRITEBYTE body: `DATA <- v`, the bit loop starts at 7 (R131 steps 1 and 2). -/
def beginWriteByte (pos : WriteStep → Seq) (v : Byte) (s : State) : State :=
  goTo (pos .w2a) { s with data := v, bitcnt := 7 }

/-- The end of one data bit of READBYTE: the next bit, or the acknowledge clock, where NACKF = 1 leaves step 4 out
(R135 steps 3 and 4). -/
def nextReadBit (pos : ReadStep → Seq) (s : State) : State :=
  if s.bitcnt = 0 then goTo (pos (if s.nackf then .r5 else .r4)) s
  else goTo (pos .r3a) { s with bitcnt := s.bitcnt - 1 }

/-- A READBYTE body, steps 2 to 9 (R135), inside the command whose positions are `pos`, which goes on with `done`. -/
def readByteStep (pos : ReadStep → Seq) (done : State → State) : ReadStep → State → State
  | .r2, s  => goTo (pos .r3a) { relSda s with bitcnt := 7 }
  | .r3a, s => goTo (pos .r3b) (waitH s)
  | .r3b, s => goTo (pos .r3c) (relScl s)
  | .r3c, s => goTo (pos .r3d) { smpSda s with data := shiftIn s.data (sampledBit s) }
  | .r3d, s => goTo (pos .r3e) (waitH s)
  | .r3e, s => nextReadBit pos (drvScl s)
  | .r4, s  => goTo (pos .r5) (drvSda s)
  | .r5, s  => goTo (pos .r6) (waitH s)
  | .r6, s  => goTo (pos .r7) (relScl s)
  | .r7, s  => goTo (pos .r8) (waitH s)
  | .r8, s  => goTo (pos .r9) (drvScl s)
  | .r9, s  => done (relSda s)

/-- The head of a READBYTE body: `NACKF <- nack`, `DATA <- 0` (R135 step 1). -/
def beginReadByte (pos : ReadStep → Seq) (nack : Bool) (s : State) : State :=
  goTo (pos .r2) { s with nackf := nack, data := 0 }

/-- WRITEBYTE step 11: return ACKL (R131, R134). -/
def finishWriteByte (s : State) : State := returnValue (retAck s.ackl) (forgetWrite s)

/-- READBYTE step 10: return DATA (R135). -/
def finishReadByte (s : State) : State := returnValue (retByte s.data) (forgetRead s)

/-- The return of WRITEBYTES after bytes were sent (R151 steps 4d and 5). -/
def finishWriteBytes (v : Ret) (s : State) : State := returnValue v (forgetIndex (forgetOperands (forgetWrite s)))

/-- WRITEBYTES steps 4b and 4c: load the byte at IDX and begin its body (R151, R53). -/
def beginIndexedWrite (s : State) : State := beginWriteByte .writeBytes (loadIndexed s) s

/-- WRITEBYTES steps 4d to 5, after the body of one byte: stop on NACK, else the next byte or the full count (R151). -/
def nextWriteBytes (s : State) : State :=
  if s.ackl then finishWriteBytes (retCount s.idx) s
  else if s.idx + 1 < s.lenr then beginIndexedWrite { s with idx := s.idx + 1 }
  else finishWriteBytes (retCount s.lenr) s

/-- The return of READBYTES after bytes were read (R154 step 9). -/
def finishReadBytes (s : State) : State := returnValue retReadOk (forgetIndex (forgetOperands (forgetRead s)))

/-- READBYTES steps 6 and 7: the body at IDX answers ACK while `IDX < LENR - 1`, else NACK (R154). -/
def beginIndexedRead (s : State) : State :=
  if s.idx < s.lenr - 1 then beginReadByte (.readBytes false) false s else beginReadByte (.readBytes true) true s

/-- READBYTES after the body of one byte: store it, then the next byte (steps 6b, 6c) or the return (steps 8, 9) (R154). -/
def nextReadBytes (last : Bool) (s : State) : State :=
  if last then finishReadBytes (storeIndexed s)
  else beginIndexedRead { storeIndexed s with idx := s.idx + 1 }

/-- Perform the next micro-operation of the command in progress and advance SEQ (R19). -/
def microStep (s : State) : State :=
  match s.seq with
  | .idle             => s
  | .start k          => startStep k s
  | .restart k        => restartStep k s
  | .stop k           => stopStep k s
  | .writeByte k      => writeByteStep .writeByte finishWriteByte k s
  | .readByte k       => readByteStep .readByte finishReadByte k s
  | .writeBytes k     => writeByteStep .writeBytes nextWriteBytes k s
  | .readBytes last k => readByteStep (.readBytes last) (nextReadBytes last) k s

/-- Whether `rst` is asserted now (R200). -/
def resetDue (s : State) : Bool :=
  match s.rst with
  | 0 :: _ => true
  | _      => false

/-- The assertion of `rst` that is due takes effect (R201, R202). -/
def takeReset (s : State) : State := resetBlock { s with rst := s.rst.drop 1 }

/-- One micro-operation brings the next assertion of `rst` nearer. -/
def resetNearer (s : State) : State :=
  match s.rst with
  | (n + 1) :: r => { s with rst := n :: r }
  | _          => s

/-- The engine's one step: the reset input if it is asserted, else the next micro-operation (R19, R202). -/
def engineStep (s : State) : State := if resetDue s then takeReset s else microStep (resetNearer s)

/-- The engine runs, for at most `n` steps, until SEQ is IDLE; nothing suspends it (R10, R46, R75). -/
def run : Nat → State → State
  | 0, s => s
  | n + 1, s => if s.seq = .idle then s else run n (engineStep s)

end Sys2Proof.Machine
end

