-- ==== Sys2Proof/Machine/ByteTransfer.lean ====
section
/-! DEFINITION. The meanings of WRITEBYTE and READBYTE (43_byte_transfer.md). -/

namespace Sys2Proof.Machine

/-- `WRITEBYTE value` (R131, R175): 48 micro-operations. -/
def execWriteByte (value : Byte) (s : State) : Host.Outcome State Fault Refusal :=
  if s.busy then .next s
  else if s.bound then .next (run 48 (beginWriteByte .writeByte value (accept s)))
  else .refused .noSession

/-- `READBYTE nack` (R135, R175): at most 47 micro-operations. -/
def execReadByte (nack : Bool) (s : State) : Host.Outcome State Fault Refusal :=
  if s.busy then .next s
  else if s.bound then .next (run 47 (beginReadByte .readByte nack (accept s)))
  else .refused .noSession

end Sys2Proof.Machine
end

