-- ==== Sys2Proof/Machine/Condition.lean ====
section
/-! DEFINITION. The meanings of START, RESTART and STOP (42_condition_generator.md). A command presented while BUSY = 1 is
ignored (30_encoding.md rule R74). -/

namespace Sys2Proof.Machine

/-- `START port, sda, scl` (R111, R112, R175): six micro-operations. -/
def execStart (port : PortRef) (sda scl : Mask) (s : State) : Host.Outcome State Fault Refusal :=
  if s.busy then .next s
  else if masksOk sda scl then .next (run 6 (goTo (.start .s2) (bindSession port sda scl (accept s))))
  else .refused .badMasks

/-- `RESTART` (R113, R175): eight micro-operations. -/
def execRestart (s : State) : Host.Outcome State Fault Refusal :=
  if s.busy then .next s
  else if s.bound then .next (run 8 (goTo (.restart .s1) (accept s)))
  else .refused .noSession

/-- `STOP` (R115, R175): six micro-operations. -/
def execStop (s : State) : Host.Outcome State Fault Refusal :=
  if s.busy then .next s
  else if s.bound then .next (run 6 (goTo (.stop .s1) (accept s)))
  else .refused .noSession

end Sys2Proof.Machine
end

