-- ==== Sys2Proof/Machine/Transaction.lean ====
section
/-! DEFINITION. The meanings of WRITEBYTES and READBYTES (44_transaction_sequencer.md); the order of the checks is
60_exceptions.md rule R177. -/

namespace Sys2Proof.Machine

/-- `WRITEBYTES buf, len` (R151, R153, R175): null and zero-length returns with no bus activity, else at most `48 * len`
micro-operations. A buffer over GPIO registers is read in order like any other (R55). -/
def execWriteBytes (buf : Addr) (len : Len) (s : State) : Host.Outcome State Fault Refusal :=
  if s.busy then .next s
  else if isNull buf then .next (returnValue (retCount 0) (forgetOperands (captureBuffer buf len (accept s))))
  else if len = 0 then .next (returnValue (retCount len) (forgetIndex (forgetOperands (captureBuffer buf len (accept s)))))
  else if s.bound then
    .next (run (48 * len.toNat) (beginIndexedWrite { captureBuffer buf len (accept s) with idx := 0 }))
  else .refused .noSession

/-- `READBYTES buf, len` (R154, R156, R175): the null return with no bus activity, else at most `47 * len`
micro-operations. A buffer over the bound port's registers, or not in memory, is refused (R55, U10, U9). -/
def execReadBytes (buf : Addr) (len : Len) (s : State) : Host.Outcome State Fault Refusal :=
  if s.busy then .next s
  else if isNull buf then .next (returnValue retReadFail (forgetOperands (captureBuffer buf len (accept s))))
  else if len = 0 then .refused .readLengthZero
  else if !s.bound then .refused .noSession
  else if bufferOnPort s.port buf len then .refused .bufferOverPort
  else if bufferInMemory buf len then
    .next (run (47 * len.toNat) (beginIndexedRead { captureBuffer buf len (accept s) with idx := 0 }))
  else .refused .bufferNotMemory

end Sys2Proof.Machine
end

