-- ==== Sys2Proof/Machine/Dispatch.lean ====
section
/-! DEFINITION. One arm per command, each one call of its meaning. -/

namespace Sys2Proof.Machine

def exec (i : Instr) (s : State) : Host.Outcome State Fault Refusal :=
  match i with
  | .start port sda scl => Sys2Proof.Machine.execStart port sda scl s
  | .restart => Sys2Proof.Machine.execRestart s
  | .stop => Sys2Proof.Machine.execStop s
  | .writeByte value => Sys2Proof.Machine.execWriteByte value s
  | .readByte nack => Sys2Proof.Machine.execReadByte nack s
  | .writeBytes buf len => Sys2Proof.Machine.execWriteBytes buf len s
  | .readBytes buf len => Sys2Proof.Machine.execReadBytes buf len s

end Sys2Proof.Machine
end

