-- ==== Sys2Proof/Machine/Interface.lean ====
section
/-! DEFINITION. The host interface (30_encoding.md rules R62, R74): what the host presents in this step, and a command in progress
going on. -/

namespace Sys2Proof.Machine

/-- The command word and side operands the host presents in this step, if `cmd_valid = 1` (R62, R74). -/
def presented (s : State) : Option (CommandWord × SideOperands) :=
  match s.host with
  | pins :: _ => if pins.cmdValid then some (pins.cmdWord, pins.ops) else none
  | []        => none

/-- The step's values on the host's ports pass. -/
def popHost (s : State) : State := { s with host := s.host.drop 1 }

/-- The host presents one command before everything else it will present. -/
def pushCommand (cw : CommandWord) (ops : SideOperands) (s : State) : State :=
  { s with host := { cmdValid := true, cmdWord := cw, ops := ops } :: s.host }

/-- A step while BUSY = 1: the next micro-operation; the host is blocked and what it will present waits (R10, R74). -/
def continueCommand (s : State) : Host.Outcome State Fault Refusal :=
  if s.bound then .next (engineStep s) else .fault .sessionUnbound

end Sys2Proof.Machine
end

