-- ==== Sys2Proof/Machine/Step.lean ====
section
/-! DEFINITION. One step of the machine: the reset input, a command in progress, or the command the host presents, which runs to
its return (30_encoding.md rules R74, R75; 70_reset_and_hazards.md rule R201). -/

namespace Sys2Proof.Machine

def step (s : State) : Host.Outcome State Fault Refusal :=
  if resetDue s then .next (takeReset s)
  else if s.busy then continueCommand s
  else
    match presented s with
    | none => .next (popHost s)
    | some (cw, ops) =>
      match decode cw ops with
      | .ok i    => exec i (popHost s)
      | .error e => .refused (.reservedWord e)

/-- The host presents the word of an opcode-table row, with `tableOperands`, in the next step (entry 16). -/
def State.withFetchWord (s : State) (nbits w : Nat) : State := pushCommand (tableCommandWord nbits w) tableOperands s

end Sys2Proof.Machine
end

