-- ==== Sys2Proof/Safety.lean ====
section
/-! DEFINITION. The terms the statements use: the trace each command must leave (files 42 to 44), its duration (70_reset_and_hazards.md
rule R230), what the environment answers (10_state.md rules R27, R30), what a trace shows on an ideal bus (42_condition_generator.md
rule R117, 43_byte_transfer.md rule R132), and the invariant of the machine. -/

namespace Sys2Proof.Safety

open Sys2Proof.Machine

/-! ### The traces of the rules -/

/-- `RB CB H DS H DC` (R111). -/
def startTrace : List Micro := [.relBoth, .clrBoth, .waitH, .drvSda, .waitH, .drvScl]

/-- `RS H RC Q DS Q DC H` (R113). -/
def restartTrace : List Micro := [.relSda, .waitH, .relScl, .waitQ, .drvSda, .waitQ, .drvScl, .waitH]

/-- `DS H RC Q RS H` (R115). -/
def stopTrace : List Micro := [.drvSda, .waitH, .relScl, .waitQ, .relSda, .waitH]

/-- The bits of a byte in wire order, most significant first (R45). -/
def msbFirst (v : Byte) : List Bool :=
  [v.getLsbD 7, v.getLsbD 6, v.getLsbD 5, v.getLsbD 4, v.getLsbD 3, v.getLsbD 2, v.getLsbD 1, v.getLsbD 0]

/-- `<DS or RS> Q RC H DC`: one data bit of WRITEBYTE (R131). -/
def writeBitTrace (b : Bool) : List Micro := [if b then .relSda else .drvSda, .waitQ, .relScl, .waitH, .drvScl]

/-- Eight data bits, then `RS H RC S=<a> H DC DS H` (R131). -/
def writeByteTrace (v : Byte) (a : Bool) : List Micro :=
  (msbFirst v).flatMap writeBitTrace ++
    [.relSda, .waitH, .relScl, .smpSda a, .waitH, .drvScl, .drvSda, .waitH]

/-- `H RC S=<b> H DC`: one data bit of READBYTE (R135). -/
def readBitTrace (b : Bool) : List Micro := [.waitH, .relScl, .smpSda b, .waitH, .drvScl]

/-- `RS`, eight data bits, then `[DS] H RC H DC RS`, with `DS` when the answer is ACK (R135). -/
def readByteTrace (nack : Bool) (v : Byte) : List Micro :=
  .relSda :: ((msbFirst v).flatMap readBitTrace ++
    ((if nack then [] else [.drvSda]) ++ [.waitH, .relScl, .waitH, .drvScl, .relSda]))

/-- `n` WRITEBYTE traces back to back, of the bytes `f 0 .. f (n - 1)`, all acknowledged (R150, R151). -/
def ackedTrace (f : Nat → Byte) (n : Nat) : List Micro := (List.range n).flatMap fun j => writeByteTrace (f j) false

/-- `n` READBYTE traces back to back, of the received bytes `f 0 .. f (n - 1)`, NACK on the last only (R154, R155). -/
def readTrace (f : Nat → Byte) (n : Nat) : List Micro :=
  (List.range n).flatMap fun j => readByteTrace (decide (j + 1 = n)) (f j)

/-! ### Durations -/

/-- The length of a micro-operation in quarter-bits; everything but the delays counts as zero (R230). -/
def quarterBits : Micro → Nat
  | .waitQ => 1
  | .waitH => 2
  | _      => 0

/-- The length of a trace in quarter-bits (R230). -/
def duration (us : List Micro) : Nat := (us.map quarterBits).sum

/-- From `s` to `t` the block has performed `n` micro-operations, taking `q` quarter-bits, and is idle again (R186, R230). -/
def Performs (s t : State) (n q : Nat) : Prop :=
  (∃ tr, t.trace = s.trace ++ tr ∧ tr.length = n ∧ duration tr = q) ∧
    t.cycles = s.cycles + q * Config.QDEL_CYCLES ∧ t.busy = false ∧ t.seq = .idle

/-! ### The environment -/

/-- What the `k`-th coming sample of a released SDA returns: 0 if the environment pulls the pin of the SDA mask low, else 1
(R27, R30). -/
def sdaAnswer (s : State) (k : Nat) : Bool := extWord s k &&& s.sda != s.sda

/-- `{s1, s2, .., s8}`: the byte whose bits, most significant first, are `f 0 .. f 7` (R136). -/
def assembled (f : Nat → Bool) : Byte :=
  BitVec.ofBool (f 0) ++ BitVec.ofBool (f 1) ++ BitVec.ofBool (f 2) ++ BitVec.ofBool (f 3) ++
    BitVec.ofBool (f 4) ++ BitVec.ofBool (f 5) ++ BitVec.ofBool (f 6) ++ BitVec.ofBool (f 7)

/-- The `j`-th byte the environment sends in the coming samples of a read. -/
def sentByte (s : State) (j : Nat) : Byte := assembled fun k => sdaAnswer s (8 * j + k)

/-- Byte `j` of a buffer as an undisturbed WRITEBYTES from `s` reads it: after the 30 quarter-bits of each byte before it (R53). -/
def sourceByte (s : State) (buf : Addr) (j : Nat) : Byte :=
  loadByte { s with cycles := s.cycles + 30 * j * Config.QDEL_CYCLES } (buf.plus j)

/-- The word of the environment that makes a sample of the pin `sda` read `b` (R26). -/
def answerWord (sda : Mask) (b : Bool) : Mask := if b then 0 else sda

/-- No later index of a buffer of `len` bytes has the address of index `j`; so it is for every index of a buffer whose bytes have
addresses of their own (R41). -/
def LastAt (buf : Addr) (len : Len) (j : Nat) : Prop := ∀ i, j < i → i < len.toNat → buf.plus i ≠ buf.plus j

/-- A loop-back peer's script for the round trip: an acknowledge for every byte written, then the bytes back, MSB first, SDA left
alone otherwise (R160). -/
def loopBackScript (sda : Mask) (bytes : List Byte) : List Mask :=
  bytes.map (fun _ => answerWord sda false) ++ bytes.flatMap fun v => (msbFirst v).map (answerWord sda)

/-! ### What a trace shows on an ideal bus: pull-ups fitted, no peer pulls a line -/

/-- The levels of the two lines, true for high. -/
structure Lines where
  sda : Bool
  scl : Bool
  deriving DecidableEq, Repr

/-- The levels after a micro-operation, on an ideal bus with OUT = 0 on both pins (R26, R28). -/
def linesAfter (l : Lines) : Micro → Lines
  | .drvSda   => { l with sda := false }
  | .relSda   => { l with sda := true }
  | .drvScl   => { l with scl := false }
  | .relScl   => { l with scl := true }
  | .relBoth  => { sda := true, scl := true }
  | .clrBoth  => l
  | .smpSda _ => l
  | .waitQ    => l
  | .waitH    => l

/-- What a peer sees on the two lines (R9). -/
inductive BusEvent where
  /-- SDA falls while SCL is high. -/
  | start
  /-- SDA rises while SCL is high. -/
  | stop
  /-- SCL rises, with SDA at this level. -/
  | clockRise (sda : Bool)
  /-- SCL falls. -/
  | clockFall
  deriving DecidableEq, Repr

/-- The event of one change of levels; a change of SDA while SCL is low is none (R9). When both lines rise at once the order is a
race (R214) and no event is given. -/
def eventOf (l m : Lines) : List BusEvent :=
  if l.scl = m.scl then
    if l.scl then (if l.sda = m.sda then [] else if m.sda then [.stop] else [.start]) else []
  else if l.sda = m.sda then (if m.scl then [.clockRise m.sda] else [.clockFall])
  else []

/-- The events of a trace, from given levels. -/
def busEvents : Lines → List Micro → List BusEvent
  | _, [] => []
  | l, u :: us => eventOf l (linesAfter l u) ++ busEvents (linesAfter l u) us

/-- The levels of the bound port's two pins on an ideal bus: high where the pin is released (R26, R28). -/
def linesOf (s : State) : Lines where
  sda := (portRegs s s.port).dir &&& s.sda == 0
  scl := (portRegs s s.port).dir &&& s.scl == 0

/-- The events of one clock pulse with SDA at a level. -/
def pulse (b : Bool) : List BusEvent := [.clockRise b, .clockFall]

/-! ### When a command runs undisturbed -/

/-- The block accepts a command (R74) and no assertion of `rst` is to come (R202). -/
def Ready (s : State) : Prop := s.busy = false ∧ s.rst = []

/-! ### Frames -/

/-- PORT, SDA, SCL and BOUND are unchanged. -/
def SameSession (s t : State) : Prop := t.port = s.port ∧ t.sda = s.sda ∧ t.scl = s.scl ∧ t.bound = s.bound

/-- Every byte of buffer memory reads as before. -/
def SameMemory (s t : State) : Prop := ∀ a, memRead t a = memRead s a

/-- Every OUT register of every port is unchanged. -/
def SameOut (s t : State) : Prop := ∀ p, (portRegs t p).out = (portRegs s p).out

/-- What the host and the reset input will still do is unchanged. -/
def SameInputs (s t : State) : Prop := t.host = s.host ∧ t.rst = s.rst

/-- Registers of all ports but `p`, and all bits of `p` outside the mask `m`, are unchanged (R20). -/
def OnlyPins (p : PortRef) (m : Mask) (s t : State) : Prop :=
  (∀ q, q ≠ p → portRegs t q = portRegs s q) ∧
  (portRegs t p).dir &&& ~~~m = (portRegs s p).dir &&& ~~~m ∧
  (portRegs t p).out &&& ~~~m = (portRegs s p).out &&& ~~~m

/-- BUFR, LENR and IDX are unchanged. -/
def SameBuffer (s t : State) : Prop := t.bufr = s.bufr ∧ t.lenr = s.lenr ∧ t.idx = s.idx

/-- DATA, BITCNT, ACKL and NACKF are unchanged. -/
def SameByteRegs (s t : State) : Prop :=
  t.data = s.data ∧ t.bitcnt = s.bitcnt ∧ t.ackl = s.ackl ∧ t.nackf = s.nackf

/-- The environment has answered no sample. -/
def NoSample (s t : State) : Prop := t.extLow = s.extLow ∧ t.samples = s.samples

/-- The pins a command works on: START's operands, else the session's (R111 step 1, R99). -/
def pinsOf (s : State) : Instr → PortRef × Mask
  | .start p sda scl => (p, sda ||| scl)
  | .restart         => (s.port, s.sda ||| s.scl)
  | .stop            => (s.port, s.sda ||| s.scl)
  | .writeByte _     => (s.port, s.sda ||| s.scl)
  | .readByte _      => (s.port, s.sda ||| s.scl)
  | .writeBytes _ _  => (s.port, s.sda ||| s.scl)
  | .readBytes _ _   => (s.port, s.sda ||| s.scl)

/-- Whether a command is START. -/
def isStart : Instr → Bool
  | .start _ _ _    => true
  | .restart        => false
  | .stop           => false
  | .writeByte _    => false
  | .readByte _     => false
  | .writeBytes _ _ => false
  | .readBytes _ _  => false

/-! ### The invariant -/

/-- START has bound the session and not yet performed CLR_BOTH (R111 steps 2 and 3). -/
def beforeClear : Seq → Bool
  | .start .s2 => true
  | .start .s3 => true
  | _          => false

/-- In the loops of WRITEBYTES and READBYTES the index stays below the length; READBYTES is at its last body exactly when
`IDX = LENR - 1` (R157, R154). -/
def loopBound (s : State) : Prop :=
  match s.seq with
  | .writeBytes _     => s.idx < s.lenr
  | .readBytes last _ => s.idx < s.lenr ∧ (last = true ↔ s.idx = s.lenr - 1)
  | _                 => True

/-- A READBYTES in progress stores to memory only, never to a port's registers (R55). -/
def storesInMemory (s : State) : Prop :=
  match s.seq with
  | .readBytes _ _ => bufferInMemory s.bufr s.lenr = true
  | _              => True

/-- The invariant of the machine: both stores in canonical form; BUSY exactly while SEQ is not IDLE (R16, R19); a command in
progress has a session (R99); a session has single-bit, disjoint masks (R15) and, but for the head of START, OUT = 0 on both pins
(R28); the loops are in bounds; stores go to memory (R55). -/
structure MachineInv (s : State) : Prop where
  memory  : memoryWf s
  gpio    : gpioWf s
  busy    : s.busy = true ↔ s.seq ≠ .idle
  session : s.busy = true → s.bound = true
  masks   : s.bound = true → pinMasks s.sda s.scl = true
  outLow  : s.bound = true → beforeClear s.seq = false → (portRegs s s.port).out &&& (s.sda ||| s.scl) = 0
  loops   : loopBound s
  stores  : storesInMemory s

end Sys2Proof.Safety
end

