-- ==== Sys2Proof/Certificates/Slice0/Obligations.lean ====
section
/-! DEFINITION. The statements for the provers. Each docstring names the rule of spec/ it formalises; a statement that rests on the
model's own choice says so and names the log entry. -/

open Sys2Proof Sys2Proof.Machine Sys2Proof.Safety

/-! ### Encoding and the step -/

/-- Decode and encode agree (R61, R63, R65, R66, R68): every command is read back from its word and side operands with every
operand at every value; a word that decodes is the word of what it decodes to, and the side operands are taken unchanged. -/
def Obligations.DecodeEncodeAgree : Prop :=
  (∀ i, decode (encodeWord i) (encodeOperands i) = .ok i) ∧
  (∀ cw ops i, decode cw ops = .ok i →
    encodeWord i = cw ∧
    (∀ p a b, i = .start p a b → p = ops.port ∧ a = ops.sda ∧ b = ops.scl) ∧
    (∀ buf len, i = .writeBytes buf len ∨ i = .readBytes buf len → buf = ops.buf ∧ len = ops.len))

/-- A command word decodes to the mnemonic of the row it selects, is reserved exactly when it selects none, and selects at most one
(R68, R69). -/
def Obligations.WordSelectsOneRow : Prop :=
  ∀ cw ops,
    (∀ i, decode cw ops = .ok i → ∃ r ∈ opcodeMap, r.mnemonic = mnemonicOf i ∧ rowSelects cw r = true) ∧
    ((∃ e, decode cw ops = .error e) ↔ ∀ r ∈ opcodeMap, rowSelects cw r = false) ∧
    (∀ r ∈ opcodeMap, ∀ q ∈ opcodeMap, rowSelects cw r = true → rowSelects cw q = true → r = q)

/-- Words written out from the spec's encoding decode as 95_test_vectors.md V21 and V22 say. -/
def Obligations.SampleWordsDecode : Prop :=
  ∀ ops,
    decode 0b00000000000#11 ops = .ok (.start ops.port ops.sda ops.scl) ∧
    decode 0b00100000000#11 ops = .ok .restart ∧
    decode 0b01000000000#11 ops = .ok .stop ∧
    decode 0b01110100101#11 ops = .ok (.writeByte 0xA5) ∧
    decode 0b10000000001#11 ops = .ok (.readByte true) ∧
    decode 0b10100000000#11 ops = .ok (.writeBytes ops.buf ops.len) ∧
    decode 0b11000000000#11 ops = .ok (.readBytes ops.buf ops.len) ∧
    decode 0b11110100101#11 ops = .error .reservedOpcode ∧
    decode 0b10000000010#11 ops = .error .readBitsNotZero

/-- A presented word that selects no row of the opcode map is refused (R69, R175 `reserved_word`). -/
def Obligations.ReservedWordRefused : Prop :=
  ∀ s cw ops, Ready s → presented s = some (cw, ops) → (∀ r ∈ opcodeMap, rowSelects cw r = false) →
    ∃ e, step s = .refused (.reservedWord e)

/-- A step runs the presented command: when the block is idle, no reset is due and the word decodes to `i`, the step is `exec i`
on the state whose host has moved on to what it presents next (R74). The list of what the host presents is the model's own
(log entry 16). -/
def Obligations.StepRunsPresentedCommand : Prop :=
  ∀ s pins rest i, s.busy = false → resetDue s = false → s.host = pins :: rest → pins.cmdValid = true →
    decode pins.cmdWord pins.ops = .ok i → step s = exec i { s with host := rest }

/-- While idle with no command presented and no reset due, a step changes nothing of the block (R74, R46): only the host's list,
the model's own (log entry 16), moves on. -/
def Obligations.IdleStepChangesNothing : Prop :=
  ∀ s, s.busy = false → resetDue s = false → presented s = none →
    step s = .next { s with host := s.host.drop 1 }

/-- A command presented while BUSY = 1 is ignored (R74): it has no effect, and a command in progress goes on the same whatever
the host would present. That the host's list (log entry 16) does not move meanwhile is the model's inference (log entry 17). -/
def Obligations.BusyIgnoresCommands : Prop :=
  (∀ i s, s.busy = true → exec i s = .next s) ∧
  (∀ s t hs, s.busy = true → step s = .next t → step { s with host := hs } = .next { t with host := hs })

/-! ### Reset -/

/-- What reset leaves, where the spec gives a value (R35, R201): no session, idle, an empty trace. -/
def Obligations.ResetValues : Prop :=
  State.reset.bound = false ∧ State.reset.busy = false ∧ State.reset.seq = .idle ∧ State.reset.trace = []

/-- The state after reset meets the invariant. -/
def Obligations.InvariantAtReset : Prop := MachineInv State.reset

/-- Every step keeps the invariant: canonical stores, BUSY exactly while SEQ is not IDLE (R16, R19), a session whenever a
command is in progress (R99), session masks single-bit and disjoint (R15), OUT = 0 on both session pins but for the head of
START (R28), the loops in bounds (R157). -/
def Obligations.StepKeepsInvariant : Prop :=
  ∀ s t, MachineInv s → step s = .next t → MachineInv t

/-- The reset input (R201): the session is lost, the block is idle, T is empty; no pin register and no buffer byte changes. -/
def Obligations.ResetInputEffect : Prop :=
  ∀ s, resetDue s = true → ∃ t, step s = .next t ∧
    t.bound = false ∧ t.busy = false ∧ t.seq = .idle ∧ t.trace = [] ∧
    (∀ p, portRegs t p = portRegs s p) ∧ SameMemory s t

/-- Reset during a command (R202), compared with the run of the same command that no reset disturbs: if `rst` comes before the
command's last micro-operation the command is abandoned, the session lost, and the pins stay as the micro-operations before it
left them; if it comes later the command is as undisturbed. The form of the input `rst`, a list of micro-operation counts, and that
a reset lands between two micro-operations, so that one due right after the last is after the command, are the model's (log entries
8 and 18). -/
def Obligations.ResetInMidCommand : Prop :=
  ∀ i s t u k r tr, s.busy = false → s.rst = k :: r →
    exec i s = .next t → exec i { s with rst := [] } = .next u → u.trace = s.trace ++ tr →
    (k < tr.length →
      t.bound = false ∧ t.busy = false ∧ t.seq = .idle ∧ t.trace = [] ∧ t.rst = r ∧
      t.gpio = (emitAll (tr.take k) { s with port := u.port, sda := u.sda, scl := u.scl }).gpio) ∧
    (tr.length ≤ k → t = { u with rst := (k - tr.length) :: r })

/-! ### The GPIO block and the micro-operations -/

/-- The three writing GPIO operations (R21, R22, R23): DIR or OUT of the port by the mask, bit by bit, and no other register of
any port. -/
def Obligations.GpioOperations : Prop :=
  ∀ s p m,
    portRegs (gpioDirSet p m s) p = { dir := (portRegs s p).dir ||| m, out := (portRegs s p).out } ∧
    portRegs (gpioDirClr p m s) p = { dir := (portRegs s p).dir &&& ~~~m, out := (portRegs s p).out } ∧
    portRegs (gpioOutClr p m s) p = { dir := (portRegs s p).dir, out := (portRegs s p).out &&& ~~~m } ∧
    (∀ q, q ≠ p → portRegs (gpioDirSet p m s) q = portRegs s q ∧ portRegs (gpioDirClr p m s) q = portRegs s q ∧
      portRegs (gpioOutClr p m s) q = portRegs s q)

/-- Each bit of IN is the level of its pin by the lines of R26, whatever the level of a contention (R24, R26, R27); a pin the master
drives low reads 0, a released pin reads what the environment leaves. -/
def Obligations.InFollowsLineLevel : Prop :=
  ∀ (w : Nat) (r : PortRegs w) (x y : BitVec w) (i : Nat), i < w →
    (inWord r x y).getLsbD i =
      lineLevel (r.dir.getLsbD i) (r.out.getLsbD i) (x.getLsbD i) (y.getLsbD i) ∧
    (r.dir.getLsbD i = true → r.out.getLsbD i = false → (inWord r x y).getLsbD i = false) ∧
    (r.dir.getLsbD i = false → (inWord r x y).getLsbD i = !x.getLsbD i) ∧
    (r.dir.getLsbD i = true → r.out.getLsbD i = true → x.getLsbD i = false → (inWord r x y).getLsbD i = true)

/-- The line micro-operations (R91 to R96, R98): whatever the line state, one entry of T and one register operation on the bound
port, and nothing else: every other field of the state and every other port is unchanged. -/
def Obligations.LineMicroOperations : Prop :=
  ∀ s,
    let r := portRegs s s.port
    ((drvSda s).trace = s.trace ++ [.drvSda] ∧ portRegs (drvSda s) s.port = { dir := r.dir ||| s.sda, out := r.out }) ∧
    ((relSda s).trace = s.trace ++ [.relSda] ∧ portRegs (relSda s) s.port = { dir := r.dir &&& ~~~s.sda, out := r.out }) ∧
    ((drvScl s).trace = s.trace ++ [.drvScl] ∧ portRegs (drvScl s) s.port = { dir := r.dir ||| s.scl, out := r.out }) ∧
    ((relScl s).trace = s.trace ++ [.relScl] ∧ portRegs (relScl s) s.port = { dir := r.dir &&& ~~~s.scl, out := r.out }) ∧
    ((relBoth s).trace = s.trace ++ [.relBoth] ∧
      portRegs (relBoth s) s.port = { dir := r.dir &&& ~~~(s.sda ||| s.scl), out := r.out }) ∧
    ((clrBoth s).trace = s.trace ++ [.clrBoth] ∧
      portRegs (clrBoth s) s.port = { dir := r.dir, out := r.out &&& ~~~(s.sda ||| s.scl) }) ∧
    (∀ f ∈ [drvSda, relSda, drvScl, relScl, relBoth, clrBoth],
      f s = { s with trace := (f s).trace, gpio := (f s).gpio } ∧ (∀ q, q ≠ s.port → portRegs (f s) q = portRegs s q))

/-- SMP_SDA returns 1 exactly when a pin of the SDA mask reads high and logs that bit in T; nothing else of the state changes but the
model's own list of the environment's words and its counter of samples, which move on (log entries 11, 22) (R97). -/
def Obligations.SampleIsOneBit : Prop :=
  ∀ s,
    (sampledBit s = true ↔ ∃ i, i < Config.W ∧ s.sda.getLsbD i = true ∧ (gpioIn s s.port).getLsbD i = true) ∧
    smpSda s = { s with trace := s.trace ++ [.smpSda (sampledBit s)], extLow := s.extLow.drop 1, samples := s.samples + 1 }

/-- The two delays (R80, R81, R82): one entry of T each, `QDEL_CYCLES` cycles and exactly twice that, no GPIO operation, no memory
access and no other register than the delay counter. -/
def Obligations.DelaysTakeTheirCycles : Prop :=
  ∀ s,
    waitQ s = { s with trace := s.trace ++ [.waitQ], delay := (waitQ s).delay, cycles := s.cycles + Config.QDEL_CYCLES } ∧
    waitH s = { s with trace := s.trace ++ [.waitH], delay := (waitH s).delay,
                       cycles := s.cycles + 2 * Config.QDEL_CYCLES } ∧
    (waitQ s).delay = 0 ∧ (waitH s).delay = 0

/-! ### Results: every command completes, and what it leaves -/

/-- START (R111): binds the session, performs `RB CB H DS H DC` in four quarter-bits, leaves both pins driven and both OUT bits 0,
and is over. -/
def Obligations.StartBindsAndTakesTheBus : Prop :=
  ∀ s p a b, Ready s → pinMasks a b = true →
    ∃ t, exec (.start p a b) s = .next t ∧
      t.port = p ∧ t.sda = a ∧ t.scl = b ∧ t.bound = true ∧ t.busy = false ∧ t.seq = .idle ∧
      t.trace = s.trace ++ startTrace ∧ t.cycles = s.cycles + 4 * Config.QDEL_CYCLES ∧
      portRegs t p = { dir := (portRegs s p).dir ||| (a ||| b), out := (portRegs s p).out &&& ~~~(a ||| b) }

/-- RESTART (R113): without a session it is refused; with one it performs `RS H RC Q DS Q DC H` in six quarter-bits, keeps the session
and OUT, and leaves both pins driven. R113 also says that RET is unchanged; the model leaves it free (R17, log entry 9). -/
def Obligations.RestartResult : Prop :=
  ∀ s, Ready s → (s.bound = false → exec .restart s = .refused .noSession) ∧ (s.bound = true →
    ∃ t, exec .restart s = .next t ∧ SameSession s t ∧ t.busy = false ∧ t.seq = .idle ∧
      t.trace = s.trace ++ restartTrace ∧ t.cycles = s.cycles + 6 * Config.QDEL_CYCLES ∧
      portRegs t s.port = { dir := (portRegs s s.port).dir ||| (s.sda ||| s.scl), out := (portRegs s s.port).out })

/-- STOP (R115): without a session it is refused; with one it performs `DS H RC Q RS H` in five quarter-bits, keeps the session and
OUT, and leaves both pins released. -/
def Obligations.StopResult : Prop :=
  ∀ s, Ready s → (s.bound = false → exec .stop s = .refused .noSession) ∧ (s.bound = true →
    ∃ t, exec .stop s = .next t ∧ SameSession s t ∧ t.busy = false ∧ t.seq = .idle ∧
      t.trace = s.trace ++ stopTrace ∧ t.cycles = s.cycles + 5 * Config.QDEL_CYCLES ∧
      portRegs t s.port = { dir := (portRegs s s.port).dir &&& ~~~(s.sda ||| s.scl), out := (portRegs s s.port).out })

/-- WRITEBYTE (R131, R133, R134): without a session it is refused; with one it sends the byte MSB first, returns exactly 1 for NACK
(nobody pulls SDA low at the sample) or 0 for ACK, and leaves both pins driven. -/
def Obligations.WriteByteResult : Prop :=
  ∀ s v, Ready s → (s.bound = false → exec (.writeByte v) s = .refused .noSession) ∧ (s.bound = true →
    ∃ t, exec (.writeByte v) s = .next t ∧ t.ret = (if sdaAnswer s 0 then 1 else 0) ∧
      t.busy = false ∧ t.seq = .idle ∧
      t.trace = s.trace ++ writeByteTrace v (sdaAnswer s 0) ∧ t.cycles = s.cycles + 30 * Config.QDEL_CYCLES ∧
      portRegs t s.port = { dir := (portRegs s s.port).dir ||| (s.sda ||| s.scl), out := (portRegs s s.port).out })

/-- READBYTE (R135, R136): without a session it is refused; with one it returns the eight sampled bits, the first in bit 7, answers
ACK by driving SDA and NACK by leaving it, and leaves SDA released and SCL driven. -/
def Obligations.ReadByteResult : Prop :=
  ∀ s nack, Ready s → (s.bound = false → exec (.readByte nack) s = .refused .noSession) ∧ (s.bound = true →
    ∃ t, exec (.readByte nack) s = .next t ∧ t.ret = (sentByte s 0).setWidth Config.RET_BITS ∧
      t.busy = false ∧ t.seq = .idle ∧
      t.trace = s.trace ++ readByteTrace nack (sentByte s 0) ∧ t.cycles = s.cycles + 36 * Config.QDEL_CYCLES ∧
      portRegs t s.port =
        { dir := ((portRegs s s.port).dir ||| s.scl) &&& ~~~s.sda, out := (portRegs s s.port).out })

/-- WRITEBYTES when the peer acknowledges every byte (R151): every byte of the buffer, as it is read just before it is sent (R53), is
sent in ascending order and the return value is `len`. -/
def Obligations.WriteBytesAllAcknowledged : Prop :=
  ∀ s buf len, Ready s → s.bound = true → buf ≠ nullAddr → len ≠ 0 →
    (∀ j, j < len.toNat → sdaAnswer s j = false) →
    ∃ t, exec (.writeBytes buf len) s = .next t ∧ t.ret = len.setWidth Config.RET_BITS ∧
      t.busy = false ∧ t.seq = .idle ∧
      t.trace = s.trace ++ ackedTrace (sourceByte s buf) len.toNat ∧
      portRegs t s.port = { dir := (portRegs s s.port).dir ||| (s.sda ||| s.scl), out := (portRegs s s.port).out }

/-- The WRITEBYTES count (R151, R152), for every non-null buffer and every answer of the environment: the command puts the bytes below
the first refused one, and that one, on the wire and no byte after it, and returns the index of the refused byte; it returns `len`
exactly when every byte was acknowledged; when a byte was sent both pins are left driven, after a NACK too (R153 (e), R178). -/
def Obligations.WriteBytesCountsAcknowledged : Prop :=
  ∀ s buf len, Ready s → s.bound = true → buf ≠ nullAddr →
    ∃ t k, exec (.writeBytes buf len) s = .next t ∧ t.ret = BitVec.ofNat Config.RET_BITS k ∧ k ≤ len.toNat ∧
      (∀ j, j < k → sdaAnswer s j = false) ∧
      (k < len.toNat → sdaAnswer s k = true ∧
        t.trace = s.trace ++ (ackedTrace (sourceByte s buf) k ++ writeByteTrace (sourceByte s buf k) true)) ∧
      (k = len.toNat → t.trace = s.trace ++ ackedTrace (sourceByte s buf) k) ∧
      (t.ret = len.setWidth Config.RET_BITS ↔ ∀ j, j < len.toNat → sdaAnswer s j = false) ∧
      (len ≠ 0 → portRegs t s.port =
        { dir := (portRegs s s.port).dir ||| (s.sda ||| s.scl), out := (portRegs s s.port).out }) ∧
      t.busy = false ∧ t.seq = .idle

/-- WRITEBYTES with a null buffer or a zero length returns 0 with no bus activity and no session needed (R54, R153 (a), (b)). -/
def Obligations.WriteBytesWithoutBus : Prop :=
  ∀ s buf len, s.busy = false → buf = nullAddr ∨ len = 0 →
    ∃ t, exec (.writeBytes buf len) s = .next t ∧ t.ret = 0 ∧ t.busy = false ∧ t.seq = .idle ∧
      t.trace = s.trace ∧ (∀ p, portRegs t p = portRegs s p) ∧ SameMemory s t ∧ SameSession s t ∧ SameByteRegs s t ∧
      NoSample s t ∧ t.delay = s.delay ∧ (buf = nullAddr → t.idx = s.idx)

/-- READBYTES (R154, R155, R159): the bytes the environment sends land at `buf + 0 .. buf + len - 1`, ACK after each but the last, NACK
after the last; it returns READ_OK and leaves SDA released and SCL driven. Where two indexes share an address (the operation `+ i` is the
platform's, log entry 4), the later byte stands there. The buffer is memory: ReadBytesBufferPlace says what another one does. -/
def Obligations.ReadBytesResult : Prop :=
  ∀ s buf len, Ready s → s.bound = true → buf ≠ nullAddr → len ≠ 0 → bufferInMemory buf len = true →
    ∃ t, exec (.readBytes buf len) s = .next t ∧ t.ret = BitVec.ofInt Config.RET_BITS Config.READ_OK ∧
      t.busy = false ∧ t.seq = .idle ∧
      t.trace = s.trace ++ readTrace (sentByte s) len.toNat ∧
      (∀ j, j < len.toNat → LastAt buf len j → memRead t (buf.plus j) = sentByte s j) ∧
      portRegs t s.port =
        { dir := ((portRegs s s.port).dir ||| s.scl) &&& ~~~s.sda, out := (portRegs s s.port).out }

/-- READBYTES with a null buffer returns the failure indicator, which is negative, for any length and without a session, and changes no
register but RET, BUSY, SEQ, BUFR and LENR (R54, R156 (a)). -/
def Obligations.ReadBytesNullFails : Prop :=
  ∀ s len, s.busy = false →
    ∃ t, exec (.readBytes nullAddr len) s = .next t ∧ t.ret = BitVec.ofInt Config.RET_BITS Config.READ_FAIL ∧
      t.ret.toInt < 0 ∧ t.busy = false ∧ t.seq = .idle ∧
      t.trace = s.trace ∧ (∀ p, portRegs t p = portRegs s p) ∧ SameMemory s t ∧ SameSession s t ∧ SameByteRegs s t ∧
      NoSample s t ∧ t.delay = s.delay ∧ t.idx = s.idx

/-- The uses with no defined meaning are refused by name, in the fixed order of checks (R175, R177): the null test before the length
test before the session test. -/
def Obligations.RefusedUses : Prop :=
  ∀ s, s.busy = false →
    (∀ p a b, pinMasks a b = false → exec (.start p a b) s = .refused .badMasks) ∧
    (∀ buf, buf ≠ nullAddr → exec (.readBytes buf 0) s = .refused .readLengthZero) ∧
    (s.bound = false →
      exec .restart s = .refused .noSession ∧ exec .stop s = .refused .noSession ∧
      (∀ v, exec (.writeByte v) s = .refused .noSession) ∧ (∀ n, exec (.readByte n) s = .refused .noSession) ∧
      (∀ buf len, buf ≠ nullAddr → len ≠ 0 →
        exec (.writeBytes buf len) s = .refused .noSession ∧ exec (.readBytes buf len) s = .refused .noSession))

/-! ### Frames: what a command leaves unchanged -/

/-- START leaves unchanged: all of buffer memory, DATA, BITCNT, ACKL, NACKF, BUFR, LENR, IDX, every pin register bit but those its two
masks select on its port (R20, R36). RET is unspecified after it (R17). -/
def Obligations.StartFrame : Prop :=
  ∀ s p a b t, s.rst = [] → exec (.start p a b) s = .next t →
    SameMemory s t ∧ SameByteRegs s t ∧ SameBuffer s t ∧ OnlyPins p (a ||| b) s t ∧ NoSample s t ∧ SameInputs s t

/-- RESTART and STOP leave unchanged: the session, all of buffer memory, every OUT register, DATA, BITCNT, ACKL, NACKF, BUFR, LENR, IDX,
every DIR bit but the session's two (R20, R36). RET is unspecified after them (R17, log entry 9). -/
def Obligations.RestartStopFrame : Prop :=
  ∀ i s t, i = .restart ∨ i = .stop → s.rst = [] → exec i s = .next t →
    SameSession s t ∧ SameMemory s t ∧ SameOut s t ∧ SameByteRegs s t ∧ SameBuffer s t ∧
      OnlyPins s.port (s.sda ||| s.scl) s t ∧ NoSample s t ∧ SameInputs s t

/-- WRITEBYTE and WRITEBYTES leave unchanged: the session, all of buffer memory, every OUT register, NACKF, every DIR bit but the session's
two; WRITEBYTE also BUFR, LENR and IDX (R20, R36). -/
def Obligations.WriteFrame : Prop :=
  ∀ s t, s.rst = [] →
    (∀ v, exec (.writeByte v) s = .next t →
      SameSession s t ∧ SameMemory s t ∧ SameOut s t ∧ t.nackf = s.nackf ∧ SameBuffer s t ∧
        OnlyPins s.port (s.sda ||| s.scl) s t ∧ SameInputs s t) ∧
    (∀ buf len, exec (.writeBytes buf len) s = .next t →
      SameSession s t ∧ SameMemory s t ∧ SameOut s t ∧ t.nackf = s.nackf ∧
        OnlyPins s.port (s.sda ||| s.scl) s t ∧ SameInputs s t)

/-- READBYTE and READBYTES leave unchanged: the session, every OUT register, ACKL, every DIR bit but the session's two; READBYTE all of
buffer memory, BUFR, LENR and IDX; READBYTES every byte but those at the effective addresses of the indexes below `len` (R20, R36,
R159). -/
def Obligations.ReadFrame : Prop :=
  ∀ s t, s.rst = [] →
    (∀ n, exec (.readByte n) s = .next t →
      SameSession s t ∧ SameMemory s t ∧ SameOut s t ∧ t.ackl = s.ackl ∧ SameBuffer s t ∧
        OnlyPins s.port (s.sda ||| s.scl) s t ∧ SameInputs s t) ∧
    (∀ buf len, exec (.readBytes buf len) s = .next t →
      SameSession s t ∧ SameOut s t ∧ t.ackl = s.ackl ∧ OnlyPins s.port (s.sda ||| s.scl) s t ∧ SameInputs s t ∧
        (∀ a, (∀ j : Len, j < len → a ≠ effectiveAddr { s with bufr := buf, idx := j }) → memRead t a = memRead s a) ∧
        (buf = nullAddr → SameMemory s t))

/-! ### Whole-machine rules -/

/-- "Only the two bits selected by SDA and SCL of the bound port are ever affected by the engine" (R20), for every command and also
when a reset lands in the middle of it (R202). -/
def Obligations.OnlySessionPinsChange : Prop :=
  ∀ i s t, exec i s = .next t → OnlyPins (pinsOf s i).1 (pinsOf s i).2 s t

/-- The engine never sets an OUT bit, and only START clears any (R20, R96, R217). -/
def Obligations.OutNeverSet : Prop :=
  ∀ i s t, exec i s = .next t →
    (∀ p, (portRegs t p).out &&& ~~~(portRegs s p).out = 0) ∧ (isStart i = false → SameOut s t)

/-- A session, once bound, lasts through every step until a reset (R14, R15): STOP does not end it, and only START changes it. -/
def Obligations.SessionLastsUntilReset : Prop :=
  ∀ s t, MachineInv s → s.rst = [] → step s = .next t → s.bound = true →
    t.bound = true ∧
    (s.busy = true → t.port = s.port ∧ t.sda = s.sda ∧ t.scl = s.scl) ∧
    ((∀ cw ops i, presented s = some (cw, ops) → decode cw ops = .ok i → isStart i = false) →
      t.port = s.port ∧ t.sda = s.sda ∧ t.scl = s.scl)

/-- T is append-only, and what a command appends decides every pin register: performing the appended micro-operations on the session the
command used gives the same GPIO block (R32, R46). -/
def Obligations.TraceDecidesThePins : Prop :=
  ∀ i s t, s.rst = [] → exec i s = .next t →
    ∃ tr, t.trace = s.trace ++ tr ∧ t.gpio = (emitAll tr { s with port := t.port, sda := t.sda, scl := t.scl }).gpio

/-- The block never looks at SCL, nor at any pin but SDA (R44, R141): if the environment's words differ only outside the SDA mask, the
command leaves the same state, whatever the environment does to SCL, and the words still to come differ only there again. The list of
words is the model's (log entry 11). A WRITEBYTES buffer is null or memory: a load from a port's input register sees its pins (R55). -/
def Obligations.OnlySdaIsSampled : Prop :=
  ∀ i (s : State) (xs ys : List Mask) t, (∀ buf len, i = .writeBytes buf len → buf = nullAddr ∨ bufferInMemory buf len = true) →
    xs.map (fun x => x &&& s.sda) = ys.map (fun y => y &&& s.sda) →
    exec i { s with extLow := xs } = .next t →
    ∃ zs, exec i { s with extLow := ys } = .next { t with extLow := zs } ∧
      t.extLow.map (fun x => x &&& s.sda) = zs.map (fun y => y &&& s.sda)

/-- Running a command to its return is the same as its micro-steps one `step` at a time (R19, R46): the machine's own run of `n` steps
from a state in mid-command is the engine's run. That one step of the machine runs an accepted command to its return is the model's
inference (log entry 18). -/
def Obligations.StepsComposeTheCommand : Prop :=
  ∀ n s, MachineInv s → (∀ m, m < n → (run m s).busy = true) → Host.Core.run Sys2Proof.core n s = .next (run n s)

/-! ### On the wire -/

/-- WRITEBYTE on an ideal bus (R132): issued with SCL driven, the events on the wire are eight clock pulses with the bits of the byte, MSB
first, and a ninth with SDA released; no START or STOP signature. -/
def Obligations.WriteByteOnTheWire : Prop :=
  ∀ s v, Ready s → s.bound = true → pinMasks s.sda s.scl = true → (linesOf s).scl = false →
    ∃ t tr, exec (.writeByte v) s = .next t ∧ t.trace = s.trace ++ tr ∧
      busEvents (linesOf s) tr = (msbFirst v).flatMap pulse ++ pulse true ∧
      linesOf t = { sda := false, scl := false }

/-- READBYTE on an ideal bus (R138): issued with SCL driven, nine pulses, SDA released in the first eight, and in the ninth low for ACK and
released for NACK. -/
def Obligations.ReadAnswerOnTheWire : Prop :=
  ∀ s n, Ready s → s.bound = true → pinMasks s.sda s.scl = true → (linesOf s).scl = false →
    ∃ t tr, exec (.readByte n) s = .next t ∧ t.trace = s.trace ++ tr ∧
      busEvents (linesOf s) tr = (List.replicate 8 true).flatMap pulse ++ pulse n ∧
      linesOf t = { sda := true, scl := false }

/-- START followed immediately by STOP (R117), from released lines: SDA falls while SCL is high, SCL falls once and rises once, SDA rises
while SCL is high. -/
def Obligations.StartStopShape : Prop :=
  ∀ s p a b, Ready s → pinMasks a b = true → (portRegs s p).dir &&& (a ||| b) = 0 →
    ∃ t u, exec (.start p a b) s = .next t ∧ exec .stop t = .next u ∧
      u.trace = s.trace ++ (startTrace ++ stopTrace) ∧ linesOf { s with port := p, sda := a, scl := b } = { sda := true, scl := true } ∧
      busEvents { sda := true, scl := true } (startTrace ++ stopTrace) = [.start, .clockFall, .clockRise false, .stop] ∧
      linesOf u = { sda := true, scl := true }

/-- An absent peer (SDA left alone at the samples the command takes, at most eight) makes WRITEBYTE return 1 and READBYTE return 0xFF;
SDA stuck low at them makes them return 0 and 0x00 (R174). -/
def Obligations.AbsentPeerAndStuckLine : Prop :=
  ∀ s v n, Ready s → s.bound = true → pinMasks s.sda s.scl = true →
    ((∀ k, k < 8 → extWord s k &&& s.sda = 0) →
      (∃ t, exec (.writeByte v) s = .next t ∧ t.ret = 1) ∧ (∃ t, exec (.readByte n) s = .next t ∧ t.ret = 0xFF)) ∧
    ((∀ k, k < 8 → extWord s k &&& s.sda = s.sda) →
      (∃ t, exec (.writeByte v) s = .next t ∧ t.ret = 0) ∧ (∃ t, exec (.readByte n) s = .next t ∧ t.ret = 0x00))

/-- The round trip (R160): START, WRITEBYTES, RESTART, READBYTES, STOP against a loop-back peer puts the bytes of the first buffer into the
second, for every length of 1 or more; the trace of WRITEBYTES carries the bytes the peer echoes, all acknowledged.
Where two indexes of a buffer share an address (the operation `+ i` is the platform's, log entry 4), the later byte stands there.
Both buffers are memory. -/
def Obligations.RoundTrip : Prop :=
  ∀ s p a b data buf len, Ready s → pinMasks a b = true → data ≠ nullAddr → buf ≠ nullAddr → len ≠ 0 →
    bufferInMemory data len = true → bufferInMemory buf len = true →
    s.extLow = loopBackScript a ((List.range len.toNat).map fun j => memRead s (data.plus j)) →
    ∃ s1 s2 s3 s4 s5, exec (.start p a b) s = .next s1 ∧ exec (.writeBytes data len) s1 = .next s2 ∧
      exec .restart s2 = .next s3 ∧ exec (.readBytes buf len) s3 = .next s4 ∧ exec .stop s4 = .next s5 ∧
      s2.ret = len.setWidth Config.RET_BITS ∧
      s2.trace = s1.trace ++ ackedTrace (fun j => memRead s (data.plus j)) len.toNat ∧
      s4.ret = BitVec.ofInt Config.RET_BITS Config.READ_OK ∧
      ∀ j, j < len.toNat → LastAt buf len j → memRead s5 (buf.plus j) = memRead s (data.plus j)

/-! ### Counts -/

/-- Every command that is not refused terminates after the number of micro-operations R186 gives, in the time R230 gives: START 6 in
4 quarter-bits, RESTART 8 in 6, STOP 6 in 5, WRITEBYTE 48 in 30, READBYTE 47 or 46 in 36, WRITEBYTES 48 and 30 for each of the `n` bytes
sent, of which all or all but the last are counted in its return value, READBYTES `47 * (len - 1) + 46` in `36 * len`; the returns
with no bus activity 0 in 0. -/
def Obligations.CountsAndDurations : Prop :=
  ∀ s t, Ready s →
    (∀ p a b, exec (.start p a b) s = .next t → Performs s t 6 4) ∧
    (exec .restart s = .next t → Performs s t 8 6) ∧
    (exec .stop s = .next t → Performs s t 6 5) ∧
    (∀ v, exec (.writeByte v) s = .next t → Performs s t 48 30) ∧
    (∀ nack, exec (.readByte nack) s = .next t → Performs s t (if nack then 46 else 47) 36) ∧
    (∀ buf len, exec (.writeBytes buf len) s = .next t →
      ∃ n, Performs s t (48 * n) (30 * n) ∧ n ≤ len.toNat ∧ (n = 0 ↔ buf = nullAddr ∨ len = 0) ∧
        (t.ret = BitVec.ofNat Config.RET_BITS n ∨ t.ret = BitVec.ofNat Config.RET_BITS (n - 1))) ∧
    (∀ buf len, exec (.readBytes buf len) s = .next t →
      if buf = nullAddr then Performs s t 0 0 else Performs s t (47 * (len.toNat - 1) + 46) (36 * len.toNat))

/-- The end of the body of a refused byte inside WRITEBYTES (R151 step 4d, R171): ACKL is 1 and IDX is its index, and the
micro-step returns that index. That the return happens with the body's last micro-operation is the model's inference (log entry
18). -/
def Obligations.NackReturnsTheIndex : Prop :=
  ∀ s, s.seq = .writeBytes .w10 → s.ackl = true →
    (microStep s).ret = s.idx.setWidth Config.RET_BITS ∧ (microStep s).busy = false ∧ (microStep s).seq = .idle

/-- Where a buffer of READBYTES may lie, in every idle state with a session (R55, U10; R42, U9): with a byte at the bound port's registers
the command is refused; with all bytes in memory it completes; with a byte at another device or at no memory it is refused. Which
addresses are which is the platform's map (log entry 15). -/
def Obligations.ReadBytesBufferPlace : Prop :=
  ∀ s buf len, s.busy = false → s.bound = true → buf ≠ nullAddr → len ≠ 0 →
    if ∃ j, j < len.toNat ∧ addrKind (buf.plus j) = .port s.port then exec (.readBytes buf len) s = .refused .bufferOverPort
    else if ∀ j, j < len.toNat → addrKind (buf.plus j) = .memory then ∃ t, exec (.readBytes buf len) s = .next t
    else exec (.readBytes buf len) s = .refused .bufferNotMemory
end

