-- ==== Sys2Proof/Laws/State.lean ====
section
/-! SUPPORT. What each named update of the state does to each field: one lemma per field per update, true by rfl. A field an update
sets to a free value, or to a store after a write, has no lemma here. -/

namespace Sys2Proof.Machine

@[simp] theorem logMicro_port (u : Micro) (s : State) : (logMicro u s).port = s.port := rfl
@[simp] theorem logMicro_sda (u : Micro) (s : State) : (logMicro u s).sda = s.sda := rfl
@[simp] theorem logMicro_scl (u : Micro) (s : State) : (logMicro u s).scl = s.scl := rfl
@[simp] theorem logMicro_bound (u : Micro) (s : State) : (logMicro u s).bound = s.bound := rfl
@[simp] theorem logMicro_busy (u : Micro) (s : State) : (logMicro u s).busy = s.busy := rfl
@[simp] theorem logMicro_ret (u : Micro) (s : State) : (logMicro u s).ret = s.ret := rfl
@[simp] theorem logMicro_seq (u : Micro) (s : State) : (logMicro u s).seq = s.seq := rfl
@[simp] theorem logMicro_data (u : Micro) (s : State) : (logMicro u s).data = s.data := rfl
@[simp] theorem logMicro_bitcnt (u : Micro) (s : State) : (logMicro u s).bitcnt = s.bitcnt := rfl
@[simp] theorem logMicro_ackl (u : Micro) (s : State) : (logMicro u s).ackl = s.ackl := rfl
@[simp] theorem logMicro_nackf (u : Micro) (s : State) : (logMicro u s).nackf = s.nackf := rfl
@[simp] theorem logMicro_bufr (u : Micro) (s : State) : (logMicro u s).bufr = s.bufr := rfl
@[simp] theorem logMicro_lenr (u : Micro) (s : State) : (logMicro u s).lenr = s.lenr := rfl
@[simp] theorem logMicro_idx (u : Micro) (s : State) : (logMicro u s).idx = s.idx := rfl
@[simp] theorem logMicro_delay (u : Micro) (s : State) : (logMicro u s).delay = s.delay := rfl
@[simp] theorem logMicro_trace (u : Micro) (s : State) : (logMicro u s).trace = s.trace ++ [u] := rfl
@[simp] theorem logMicro_gpio (u : Micro) (s : State) : (logMicro u s).gpio = s.gpio := rfl
@[simp] theorem logMicro_mem (u : Micro) (s : State) : (logMicro u s).mem = s.mem := rfl
@[simp] theorem logMicro_host (u : Micro) (s : State) : (logMicro u s).host = s.host := rfl
@[simp] theorem logMicro_rst (u : Micro) (s : State) : (logMicro u s).rst = s.rst := rfl
@[simp] theorem logMicro_extLow (u : Micro) (s : State) : (logMicro u s).extLow = s.extLow := rfl
@[simp] theorem logMicro_samples (u : Micro) (s : State) : (logMicro u s).samples = s.samples := rfl
@[simp] theorem logMicro_fresh (u : Micro) (s : State) : (logMicro u s).fresh = s.fresh := rfl
@[simp] theorem logMicro_cycles (u : Micro) (s : State) : (logMicro u s).cycles = s.cycles := rfl

@[simp] theorem memWrite_port (a : Addr) (v : Byte) (s : State) : (memWrite a v s).port = s.port := rfl
@[simp] theorem memWrite_sda (a : Addr) (v : Byte) (s : State) : (memWrite a v s).sda = s.sda := rfl
@[simp] theorem memWrite_scl (a : Addr) (v : Byte) (s : State) : (memWrite a v s).scl = s.scl := rfl
@[simp] theorem memWrite_bound (a : Addr) (v : Byte) (s : State) : (memWrite a v s).bound = s.bound := rfl
@[simp] theorem memWrite_busy (a : Addr) (v : Byte) (s : State) : (memWrite a v s).busy = s.busy := rfl
@[simp] theorem memWrite_ret (a : Addr) (v : Byte) (s : State) : (memWrite a v s).ret = s.ret := rfl
@[simp] theorem memWrite_seq (a : Addr) (v : Byte) (s : State) : (memWrite a v s).seq = s.seq := rfl
@[simp] theorem memWrite_data (a : Addr) (v : Byte) (s : State) : (memWrite a v s).data = s.data := rfl
@[simp] theorem memWrite_bitcnt (a : Addr) (v : Byte) (s : State) : (memWrite a v s).bitcnt = s.bitcnt := rfl
@[simp] theorem memWrite_ackl (a : Addr) (v : Byte) (s : State) : (memWrite a v s).ackl = s.ackl := rfl
@[simp] theorem memWrite_nackf (a : Addr) (v : Byte) (s : State) : (memWrite a v s).nackf = s.nackf := rfl
@[simp] theorem memWrite_bufr (a : Addr) (v : Byte) (s : State) : (memWrite a v s).bufr = s.bufr := rfl
@[simp] theorem memWrite_lenr (a : Addr) (v : Byte) (s : State) : (memWrite a v s).lenr = s.lenr := rfl
@[simp] theorem memWrite_idx (a : Addr) (v : Byte) (s : State) : (memWrite a v s).idx = s.idx := rfl
@[simp] theorem memWrite_delay (a : Addr) (v : Byte) (s : State) : (memWrite a v s).delay = s.delay := rfl
@[simp] theorem memWrite_trace (a : Addr) (v : Byte) (s : State) : (memWrite a v s).trace = s.trace := rfl
@[simp] theorem memWrite_gpio (a : Addr) (v : Byte) (s : State) : (memWrite a v s).gpio = s.gpio := rfl
@[simp] theorem memWrite_host (a : Addr) (v : Byte) (s : State) : (memWrite a v s).host = s.host := rfl
@[simp] theorem memWrite_rst (a : Addr) (v : Byte) (s : State) : (memWrite a v s).rst = s.rst := rfl
@[simp] theorem memWrite_extLow (a : Addr) (v : Byte) (s : State) : (memWrite a v s).extLow = s.extLow := rfl
@[simp] theorem memWrite_samples (a : Addr) (v : Byte) (s : State) : (memWrite a v s).samples = s.samples := rfl
@[simp] theorem memWrite_fresh (a : Addr) (v : Byte) (s : State) : (memWrite a v s).fresh = s.fresh := rfl
@[simp] theorem memWrite_cycles (a : Addr) (v : Byte) (s : State) : (memWrite a v s).cycles = s.cycles := rfl

@[simp] theorem setPortRegs_port (p : PortRef) (r : PortRegs Config.W) (s : State) : (setPortRegs p r s).port = s.port := rfl
@[simp] theorem setPortRegs_sda (p : PortRef) (r : PortRegs Config.W) (s : State) : (setPortRegs p r s).sda = s.sda := rfl
@[simp] theorem setPortRegs_scl (p : PortRef) (r : PortRegs Config.W) (s : State) : (setPortRegs p r s).scl = s.scl := rfl
@[simp] theorem setPortRegs_bound (p : PortRef) (r : PortRegs Config.W) (s : State) : (setPortRegs p r s).bound = s.bound := rfl
@[simp] theorem setPortRegs_busy (p : PortRef) (r : PortRegs Config.W) (s : State) : (setPortRegs p r s).busy = s.busy := rfl
@[simp] theorem setPortRegs_ret (p : PortRef) (r : PortRegs Config.W) (s : State) : (setPortRegs p r s).ret = s.ret := rfl
@[simp] theorem setPortRegs_seq (p : PortRef) (r : PortRegs Config.W) (s : State) : (setPortRegs p r s).seq = s.seq := rfl
@[simp] theorem setPortRegs_data (p : PortRef) (r : PortRegs Config.W) (s : State) : (setPortRegs p r s).data = s.data := rfl
@[simp] theorem setPortRegs_bitcnt (p : PortRef) (r : PortRegs Config.W) (s : State) : (setPortRegs p r s).bitcnt = s.bitcnt := rfl
@[simp] theorem setPortRegs_ackl (p : PortRef) (r : PortRegs Config.W) (s : State) : (setPortRegs p r s).ackl = s.ackl := rfl
@[simp] theorem setPortRegs_nackf (p : PortRef) (r : PortRegs Config.W) (s : State) : (setPortRegs p r s).nackf = s.nackf := rfl
@[simp] theorem setPortRegs_bufr (p : PortRef) (r : PortRegs Config.W) (s : State) : (setPortRegs p r s).bufr = s.bufr := rfl
@[simp] theorem setPortRegs_lenr (p : PortRef) (r : PortRegs Config.W) (s : State) : (setPortRegs p r s).lenr = s.lenr := rfl
@[simp] theorem setPortRegs_idx (p : PortRef) (r : PortRegs Config.W) (s : State) : (setPortRegs p r s).idx = s.idx := rfl
@[simp] theorem setPortRegs_delay (p : PortRef) (r : PortRegs Config.W) (s : State) : (setPortRegs p r s).delay = s.delay := rfl
@[simp] theorem setPortRegs_trace (p : PortRef) (r : PortRegs Config.W) (s : State) : (setPortRegs p r s).trace = s.trace := rfl
@[simp] theorem setPortRegs_mem (p : PortRef) (r : PortRegs Config.W) (s : State) : (setPortRegs p r s).mem = s.mem := rfl
@[simp] theorem setPortRegs_host (p : PortRef) (r : PortRegs Config.W) (s : State) : (setPortRegs p r s).host = s.host := rfl
@[simp] theorem setPortRegs_rst (p : PortRef) (r : PortRegs Config.W) (s : State) : (setPortRegs p r s).rst = s.rst := rfl
@[simp] theorem setPortRegs_extLow (p : PortRef) (r : PortRegs Config.W) (s : State) : (setPortRegs p r s).extLow = s.extLow := rfl
@[simp] theorem setPortRegs_samples (p : PortRef) (r : PortRegs Config.W) (s : State) : (setPortRegs p r s).samples = s.samples := rfl
@[simp] theorem setPortRegs_fresh (p : PortRef) (r : PortRegs Config.W) (s : State) : (setPortRegs p r s).fresh = s.fresh := rfl
@[simp] theorem setPortRegs_cycles (p : PortRef) (r : PortRegs Config.W) (s : State) : (setPortRegs p r s).cycles = s.cycles := rfl

@[simp] theorem drawSample_port (s : State) : (drawSample s).port = s.port := rfl
@[simp] theorem drawSample_sda (s : State) : (drawSample s).sda = s.sda := rfl
@[simp] theorem drawSample_scl (s : State) : (drawSample s).scl = s.scl := rfl
@[simp] theorem drawSample_bound (s : State) : (drawSample s).bound = s.bound := rfl
@[simp] theorem drawSample_busy (s : State) : (drawSample s).busy = s.busy := rfl
@[simp] theorem drawSample_ret (s : State) : (drawSample s).ret = s.ret := rfl
@[simp] theorem drawSample_seq (s : State) : (drawSample s).seq = s.seq := rfl
@[simp] theorem drawSample_data (s : State) : (drawSample s).data = s.data := rfl
@[simp] theorem drawSample_bitcnt (s : State) : (drawSample s).bitcnt = s.bitcnt := rfl
@[simp] theorem drawSample_ackl (s : State) : (drawSample s).ackl = s.ackl := rfl
@[simp] theorem drawSample_nackf (s : State) : (drawSample s).nackf = s.nackf := rfl
@[simp] theorem drawSample_bufr (s : State) : (drawSample s).bufr = s.bufr := rfl
@[simp] theorem drawSample_lenr (s : State) : (drawSample s).lenr = s.lenr := rfl
@[simp] theorem drawSample_idx (s : State) : (drawSample s).idx = s.idx := rfl
@[simp] theorem drawSample_delay (s : State) : (drawSample s).delay = s.delay := rfl
@[simp] theorem drawSample_trace (s : State) : (drawSample s).trace = s.trace := rfl
@[simp] theorem drawSample_gpio (s : State) : (drawSample s).gpio = s.gpio := rfl
@[simp] theorem drawSample_mem (s : State) : (drawSample s).mem = s.mem := rfl
@[simp] theorem drawSample_host (s : State) : (drawSample s).host = s.host := rfl
@[simp] theorem drawSample_rst (s : State) : (drawSample s).rst = s.rst := rfl
@[simp] theorem drawSample_extLow (s : State) : (drawSample s).extLow = s.extLow.drop 1 := rfl
@[simp] theorem drawSample_samples (s : State) : (drawSample s).samples = s.samples + 1 := rfl
@[simp] theorem drawSample_fresh (s : State) : (drawSample s).fresh = s.fresh := rfl
@[simp] theorem drawSample_cycles (s : State) : (drawSample s).cycles = s.cycles := rfl

@[simp] theorem accept_port (s : State) : (accept s).port = s.port := rfl
@[simp] theorem accept_sda (s : State) : (accept s).sda = s.sda := rfl
@[simp] theorem accept_scl (s : State) : (accept s).scl = s.scl := rfl
@[simp] theorem accept_bound (s : State) : (accept s).bound = s.bound := rfl
@[simp] theorem accept_busy (s : State) : (accept s).busy = true := rfl
@[simp] theorem accept_ret (s : State) : (accept s).ret = Config.freeRet s.fresh := rfl
@[simp] theorem accept_seq (s : State) : (accept s).seq = s.seq := rfl
@[simp] theorem accept_data (s : State) : (accept s).data = s.data := rfl
@[simp] theorem accept_bitcnt (s : State) : (accept s).bitcnt = s.bitcnt := rfl
@[simp] theorem accept_ackl (s : State) : (accept s).ackl = s.ackl := rfl
@[simp] theorem accept_nackf (s : State) : (accept s).nackf = s.nackf := rfl
@[simp] theorem accept_bufr (s : State) : (accept s).bufr = s.bufr := rfl
@[simp] theorem accept_lenr (s : State) : (accept s).lenr = s.lenr := rfl
@[simp] theorem accept_idx (s : State) : (accept s).idx = s.idx := rfl
@[simp] theorem accept_delay (s : State) : (accept s).delay = s.delay := rfl
@[simp] theorem accept_trace (s : State) : (accept s).trace = s.trace := rfl
@[simp] theorem accept_gpio (s : State) : (accept s).gpio = s.gpio := rfl
@[simp] theorem accept_mem (s : State) : (accept s).mem = s.mem := rfl
@[simp] theorem accept_host (s : State) : (accept s).host = s.host := rfl
@[simp] theorem accept_rst (s : State) : (accept s).rst = s.rst := rfl
@[simp] theorem accept_extLow (s : State) : (accept s).extLow = s.extLow := rfl
@[simp] theorem accept_samples (s : State) : (accept s).samples = s.samples := rfl
@[simp] theorem accept_fresh (s : State) : (accept s).fresh = s.fresh + 1 := rfl
@[simp] theorem accept_cycles (s : State) : (accept s).cycles = s.cycles := rfl

@[simp] theorem returnNone_port (s : State) : (returnNone s).port = s.port := rfl
@[simp] theorem returnNone_sda (s : State) : (returnNone s).sda = s.sda := rfl
@[simp] theorem returnNone_scl (s : State) : (returnNone s).scl = s.scl := rfl
@[simp] theorem returnNone_bound (s : State) : (returnNone s).bound = s.bound := rfl
@[simp] theorem returnNone_busy (s : State) : (returnNone s).busy = false := rfl
@[simp] theorem returnNone_ret (s : State) : (returnNone s).ret = s.ret := rfl
@[simp] theorem returnNone_seq (s : State) : (returnNone s).seq = .idle := rfl
@[simp] theorem returnNone_data (s : State) : (returnNone s).data = s.data := rfl
@[simp] theorem returnNone_bitcnt (s : State) : (returnNone s).bitcnt = s.bitcnt := rfl
@[simp] theorem returnNone_ackl (s : State) : (returnNone s).ackl = s.ackl := rfl
@[simp] theorem returnNone_nackf (s : State) : (returnNone s).nackf = s.nackf := rfl
@[simp] theorem returnNone_bufr (s : State) : (returnNone s).bufr = s.bufr := rfl
@[simp] theorem returnNone_lenr (s : State) : (returnNone s).lenr = s.lenr := rfl
@[simp] theorem returnNone_idx (s : State) : (returnNone s).idx = s.idx := rfl
@[simp] theorem returnNone_delay (s : State) : (returnNone s).delay = s.delay := rfl
@[simp] theorem returnNone_trace (s : State) : (returnNone s).trace = s.trace := rfl
@[simp] theorem returnNone_gpio (s : State) : (returnNone s).gpio = s.gpio := rfl
@[simp] theorem returnNone_mem (s : State) : (returnNone s).mem = s.mem := rfl
@[simp] theorem returnNone_host (s : State) : (returnNone s).host = s.host := rfl
@[simp] theorem returnNone_rst (s : State) : (returnNone s).rst = s.rst := rfl
@[simp] theorem returnNone_extLow (s : State) : (returnNone s).extLow = s.extLow := rfl
@[simp] theorem returnNone_samples (s : State) : (returnNone s).samples = s.samples := rfl
@[simp] theorem returnNone_fresh (s : State) : (returnNone s).fresh = s.fresh := rfl
@[simp] theorem returnNone_cycles (s : State) : (returnNone s).cycles = s.cycles := rfl

@[simp] theorem returnValue_port (v : Ret) (s : State) : (returnValue v s).port = s.port := rfl
@[simp] theorem returnValue_sda (v : Ret) (s : State) : (returnValue v s).sda = s.sda := rfl
@[simp] theorem returnValue_scl (v : Ret) (s : State) : (returnValue v s).scl = s.scl := rfl
@[simp] theorem returnValue_bound (v : Ret) (s : State) : (returnValue v s).bound = s.bound := rfl
@[simp] theorem returnValue_busy (v : Ret) (s : State) : (returnValue v s).busy = false := rfl
@[simp] theorem returnValue_ret (v : Ret) (s : State) : (returnValue v s).ret = v := rfl
@[simp] theorem returnValue_seq (v : Ret) (s : State) : (returnValue v s).seq = .idle := rfl
@[simp] theorem returnValue_data (v : Ret) (s : State) : (returnValue v s).data = s.data := rfl
@[simp] theorem returnValue_bitcnt (v : Ret) (s : State) : (returnValue v s).bitcnt = s.bitcnt := rfl
@[simp] theorem returnValue_ackl (v : Ret) (s : State) : (returnValue v s).ackl = s.ackl := rfl
@[simp] theorem returnValue_nackf (v : Ret) (s : State) : (returnValue v s).nackf = s.nackf := rfl
@[simp] theorem returnValue_bufr (v : Ret) (s : State) : (returnValue v s).bufr = s.bufr := rfl
@[simp] theorem returnValue_lenr (v : Ret) (s : State) : (returnValue v s).lenr = s.lenr := rfl
@[simp] theorem returnValue_idx (v : Ret) (s : State) : (returnValue v s).idx = s.idx := rfl
@[simp] theorem returnValue_delay (v : Ret) (s : State) : (returnValue v s).delay = s.delay := rfl
@[simp] theorem returnValue_trace (v : Ret) (s : State) : (returnValue v s).trace = s.trace := rfl
@[simp] theorem returnValue_gpio (v : Ret) (s : State) : (returnValue v s).gpio = s.gpio := rfl
@[simp] theorem returnValue_mem (v : Ret) (s : State) : (returnValue v s).mem = s.mem := rfl
@[simp] theorem returnValue_host (v : Ret) (s : State) : (returnValue v s).host = s.host := rfl
@[simp] theorem returnValue_rst (v : Ret) (s : State) : (returnValue v s).rst = s.rst := rfl
@[simp] theorem returnValue_extLow (v : Ret) (s : State) : (returnValue v s).extLow = s.extLow := rfl
@[simp] theorem returnValue_samples (v : Ret) (s : State) : (returnValue v s).samples = s.samples := rfl
@[simp] theorem returnValue_fresh (v : Ret) (s : State) : (returnValue v s).fresh = s.fresh := rfl
@[simp] theorem returnValue_cycles (v : Ret) (s : State) : (returnValue v s).cycles = s.cycles := rfl

@[simp] theorem forgetWrite_port (s : State) : (forgetWrite s).port = s.port := rfl
@[simp] theorem forgetWrite_sda (s : State) : (forgetWrite s).sda = s.sda := rfl
@[simp] theorem forgetWrite_scl (s : State) : (forgetWrite s).scl = s.scl := rfl
@[simp] theorem forgetWrite_bound (s : State) : (forgetWrite s).bound = s.bound := rfl
@[simp] theorem forgetWrite_busy (s : State) : (forgetWrite s).busy = s.busy := rfl
@[simp] theorem forgetWrite_ret (s : State) : (forgetWrite s).ret = s.ret := rfl
@[simp] theorem forgetWrite_seq (s : State) : (forgetWrite s).seq = s.seq := rfl
@[simp] theorem forgetWrite_nackf (s : State) : (forgetWrite s).nackf = s.nackf := rfl
@[simp] theorem forgetWrite_bufr (s : State) : (forgetWrite s).bufr = s.bufr := rfl
@[simp] theorem forgetWrite_lenr (s : State) : (forgetWrite s).lenr = s.lenr := rfl
@[simp] theorem forgetWrite_idx (s : State) : (forgetWrite s).idx = s.idx := rfl
@[simp] theorem forgetWrite_delay (s : State) : (forgetWrite s).delay = s.delay := rfl
@[simp] theorem forgetWrite_trace (s : State) : (forgetWrite s).trace = s.trace := rfl
@[simp] theorem forgetWrite_gpio (s : State) : (forgetWrite s).gpio = s.gpio := rfl
@[simp] theorem forgetWrite_mem (s : State) : (forgetWrite s).mem = s.mem := rfl
@[simp] theorem forgetWrite_host (s : State) : (forgetWrite s).host = s.host := rfl
@[simp] theorem forgetWrite_rst (s : State) : (forgetWrite s).rst = s.rst := rfl
@[simp] theorem forgetWrite_extLow (s : State) : (forgetWrite s).extLow = s.extLow := rfl
@[simp] theorem forgetWrite_samples (s : State) : (forgetWrite s).samples = s.samples := rfl
@[simp] theorem forgetWrite_fresh (s : State) : (forgetWrite s).fresh = s.fresh + 1 := rfl
@[simp] theorem forgetWrite_cycles (s : State) : (forgetWrite s).cycles = s.cycles := rfl

@[simp] theorem forgetRead_port (s : State) : (forgetRead s).port = s.port := rfl
@[simp] theorem forgetRead_sda (s : State) : (forgetRead s).sda = s.sda := rfl
@[simp] theorem forgetRead_scl (s : State) : (forgetRead s).scl = s.scl := rfl
@[simp] theorem forgetRead_bound (s : State) : (forgetRead s).bound = s.bound := rfl
@[simp] theorem forgetRead_busy (s : State) : (forgetRead s).busy = s.busy := rfl
@[simp] theorem forgetRead_ret (s : State) : (forgetRead s).ret = s.ret := rfl
@[simp] theorem forgetRead_seq (s : State) : (forgetRead s).seq = s.seq := rfl
@[simp] theorem forgetRead_ackl (s : State) : (forgetRead s).ackl = s.ackl := rfl
@[simp] theorem forgetRead_bufr (s : State) : (forgetRead s).bufr = s.bufr := rfl
@[simp] theorem forgetRead_lenr (s : State) : (forgetRead s).lenr = s.lenr := rfl
@[simp] theorem forgetRead_idx (s : State) : (forgetRead s).idx = s.idx := rfl
@[simp] theorem forgetRead_delay (s : State) : (forgetRead s).delay = s.delay := rfl
@[simp] theorem forgetRead_trace (s : State) : (forgetRead s).trace = s.trace := rfl
@[simp] theorem forgetRead_gpio (s : State) : (forgetRead s).gpio = s.gpio := rfl
@[simp] theorem forgetRead_mem (s : State) : (forgetRead s).mem = s.mem := rfl
@[simp] theorem forgetRead_host (s : State) : (forgetRead s).host = s.host := rfl
@[simp] theorem forgetRead_rst (s : State) : (forgetRead s).rst = s.rst := rfl
@[simp] theorem forgetRead_extLow (s : State) : (forgetRead s).extLow = s.extLow := rfl
@[simp] theorem forgetRead_samples (s : State) : (forgetRead s).samples = s.samples := rfl
@[simp] theorem forgetRead_fresh (s : State) : (forgetRead s).fresh = s.fresh + 1 := rfl
@[simp] theorem forgetRead_cycles (s : State) : (forgetRead s).cycles = s.cycles := rfl

@[simp] theorem forgetOperands_port (s : State) : (forgetOperands s).port = s.port := rfl
@[simp] theorem forgetOperands_sda (s : State) : (forgetOperands s).sda = s.sda := rfl
@[simp] theorem forgetOperands_scl (s : State) : (forgetOperands s).scl = s.scl := rfl
@[simp] theorem forgetOperands_bound (s : State) : (forgetOperands s).bound = s.bound := rfl
@[simp] theorem forgetOperands_busy (s : State) : (forgetOperands s).busy = s.busy := rfl
@[simp] theorem forgetOperands_ret (s : State) : (forgetOperands s).ret = s.ret := rfl
@[simp] theorem forgetOperands_seq (s : State) : (forgetOperands s).seq = s.seq := rfl
@[simp] theorem forgetOperands_data (s : State) : (forgetOperands s).data = s.data := rfl
@[simp] theorem forgetOperands_bitcnt (s : State) : (forgetOperands s).bitcnt = s.bitcnt := rfl
@[simp] theorem forgetOperands_ackl (s : State) : (forgetOperands s).ackl = s.ackl := rfl
@[simp] theorem forgetOperands_nackf (s : State) : (forgetOperands s).nackf = s.nackf := rfl
@[simp] theorem forgetOperands_idx (s : State) : (forgetOperands s).idx = s.idx := rfl
@[simp] theorem forgetOperands_delay (s : State) : (forgetOperands s).delay = s.delay := rfl
@[simp] theorem forgetOperands_trace (s : State) : (forgetOperands s).trace = s.trace := rfl
@[simp] theorem forgetOperands_gpio (s : State) : (forgetOperands s).gpio = s.gpio := rfl
@[simp] theorem forgetOperands_mem (s : State) : (forgetOperands s).mem = s.mem := rfl
@[simp] theorem forgetOperands_host (s : State) : (forgetOperands s).host = s.host := rfl
@[simp] theorem forgetOperands_rst (s : State) : (forgetOperands s).rst = s.rst := rfl
@[simp] theorem forgetOperands_extLow (s : State) : (forgetOperands s).extLow = s.extLow := rfl
@[simp] theorem forgetOperands_samples (s : State) : (forgetOperands s).samples = s.samples := rfl
@[simp] theorem forgetOperands_fresh (s : State) : (forgetOperands s).fresh = s.fresh + 1 := rfl
@[simp] theorem forgetOperands_cycles (s : State) : (forgetOperands s).cycles = s.cycles := rfl

@[simp] theorem forgetIndex_port (s : State) : (forgetIndex s).port = s.port := rfl
@[simp] theorem forgetIndex_sda (s : State) : (forgetIndex s).sda = s.sda := rfl
@[simp] theorem forgetIndex_scl (s : State) : (forgetIndex s).scl = s.scl := rfl
@[simp] theorem forgetIndex_bound (s : State) : (forgetIndex s).bound = s.bound := rfl
@[simp] theorem forgetIndex_busy (s : State) : (forgetIndex s).busy = s.busy := rfl
@[simp] theorem forgetIndex_ret (s : State) : (forgetIndex s).ret = s.ret := rfl
@[simp] theorem forgetIndex_seq (s : State) : (forgetIndex s).seq = s.seq := rfl
@[simp] theorem forgetIndex_data (s : State) : (forgetIndex s).data = s.data := rfl
@[simp] theorem forgetIndex_bitcnt (s : State) : (forgetIndex s).bitcnt = s.bitcnt := rfl
@[simp] theorem forgetIndex_ackl (s : State) : (forgetIndex s).ackl = s.ackl := rfl
@[simp] theorem forgetIndex_nackf (s : State) : (forgetIndex s).nackf = s.nackf := rfl
@[simp] theorem forgetIndex_bufr (s : State) : (forgetIndex s).bufr = s.bufr := rfl
@[simp] theorem forgetIndex_lenr (s : State) : (forgetIndex s).lenr = s.lenr := rfl
@[simp] theorem forgetIndex_delay (s : State) : (forgetIndex s).delay = s.delay := rfl
@[simp] theorem forgetIndex_trace (s : State) : (forgetIndex s).trace = s.trace := rfl
@[simp] theorem forgetIndex_gpio (s : State) : (forgetIndex s).gpio = s.gpio := rfl
@[simp] theorem forgetIndex_mem (s : State) : (forgetIndex s).mem = s.mem := rfl
@[simp] theorem forgetIndex_host (s : State) : (forgetIndex s).host = s.host := rfl
@[simp] theorem forgetIndex_rst (s : State) : (forgetIndex s).rst = s.rst := rfl
@[simp] theorem forgetIndex_extLow (s : State) : (forgetIndex s).extLow = s.extLow := rfl
@[simp] theorem forgetIndex_samples (s : State) : (forgetIndex s).samples = s.samples := rfl
@[simp] theorem forgetIndex_fresh (s : State) : (forgetIndex s).fresh = s.fresh + 1 := rfl
@[simp] theorem forgetIndex_cycles (s : State) : (forgetIndex s).cycles = s.cycles := rfl

@[simp] theorem bindSession_port (p : PortRef) (a b : Mask) (s : State) : (bindSession p a b s).port = p := rfl
@[simp] theorem bindSession_sda (p : PortRef) (a b : Mask) (s : State) : (bindSession p a b s).sda = a := rfl
@[simp] theorem bindSession_scl (p : PortRef) (a b : Mask) (s : State) : (bindSession p a b s).scl = b := rfl
@[simp] theorem bindSession_bound (p : PortRef) (a b : Mask) (s : State) : (bindSession p a b s).bound = true := rfl
@[simp] theorem bindSession_busy (p : PortRef) (a b : Mask) (s : State) : (bindSession p a b s).busy = s.busy := rfl
@[simp] theorem bindSession_ret (p : PortRef) (a b : Mask) (s : State) : (bindSession p a b s).ret = s.ret := rfl
@[simp] theorem bindSession_seq (p : PortRef) (a b : Mask) (s : State) : (bindSession p a b s).seq = s.seq := rfl
@[simp] theorem bindSession_data (p : PortRef) (a b : Mask) (s : State) : (bindSession p a b s).data = s.data := rfl
@[simp] theorem bindSession_bitcnt (p : PortRef) (a b : Mask) (s : State) : (bindSession p a b s).bitcnt = s.bitcnt := rfl
@[simp] theorem bindSession_ackl (p : PortRef) (a b : Mask) (s : State) : (bindSession p a b s).ackl = s.ackl := rfl
@[simp] theorem bindSession_nackf (p : PortRef) (a b : Mask) (s : State) : (bindSession p a b s).nackf = s.nackf := rfl
@[simp] theorem bindSession_bufr (p : PortRef) (a b : Mask) (s : State) : (bindSession p a b s).bufr = s.bufr := rfl
@[simp] theorem bindSession_lenr (p : PortRef) (a b : Mask) (s : State) : (bindSession p a b s).lenr = s.lenr := rfl
@[simp] theorem bindSession_idx (p : PortRef) (a b : Mask) (s : State) : (bindSession p a b s).idx = s.idx := rfl
@[simp] theorem bindSession_delay (p : PortRef) (a b : Mask) (s : State) : (bindSession p a b s).delay = s.delay := rfl
@[simp] theorem bindSession_trace (p : PortRef) (a b : Mask) (s : State) : (bindSession p a b s).trace = s.trace := rfl
@[simp] theorem bindSession_gpio (p : PortRef) (a b : Mask) (s : State) : (bindSession p a b s).gpio = s.gpio := rfl
@[simp] theorem bindSession_mem (p : PortRef) (a b : Mask) (s : State) : (bindSession p a b s).mem = s.mem := rfl
@[simp] theorem bindSession_host (p : PortRef) (a b : Mask) (s : State) : (bindSession p a b s).host = s.host := rfl
@[simp] theorem bindSession_rst (p : PortRef) (a b : Mask) (s : State) : (bindSession p a b s).rst = s.rst := rfl
@[simp] theorem bindSession_extLow (p : PortRef) (a b : Mask) (s : State) : (bindSession p a b s).extLow = s.extLow := rfl
@[simp] theorem bindSession_samples (p : PortRef) (a b : Mask) (s : State) : (bindSession p a b s).samples = s.samples := rfl
@[simp] theorem bindSession_fresh (p : PortRef) (a b : Mask) (s : State) : (bindSession p a b s).fresh = s.fresh := rfl
@[simp] theorem bindSession_cycles (p : PortRef) (a b : Mask) (s : State) : (bindSession p a b s).cycles = s.cycles := rfl

@[simp] theorem captureBuffer_port (a : Addr) (n : Len) (s : State) : (captureBuffer a n s).port = s.port := rfl
@[simp] theorem captureBuffer_sda (a : Addr) (n : Len) (s : State) : (captureBuffer a n s).sda = s.sda := rfl
@[simp] theorem captureBuffer_scl (a : Addr) (n : Len) (s : State) : (captureBuffer a n s).scl = s.scl := rfl
@[simp] theorem captureBuffer_bound (a : Addr) (n : Len) (s : State) : (captureBuffer a n s).bound = s.bound := rfl
@[simp] theorem captureBuffer_busy (a : Addr) (n : Len) (s : State) : (captureBuffer a n s).busy = s.busy := rfl
@[simp] theorem captureBuffer_ret (a : Addr) (n : Len) (s : State) : (captureBuffer a n s).ret = s.ret := rfl
@[simp] theorem captureBuffer_seq (a : Addr) (n : Len) (s : State) : (captureBuffer a n s).seq = s.seq := rfl
@[simp] theorem captureBuffer_data (a : Addr) (n : Len) (s : State) : (captureBuffer a n s).data = s.data := rfl
@[simp] theorem captureBuffer_bitcnt (a : Addr) (n : Len) (s : State) : (captureBuffer a n s).bitcnt = s.bitcnt := rfl
@[simp] theorem captureBuffer_ackl (a : Addr) (n : Len) (s : State) : (captureBuffer a n s).ackl = s.ackl := rfl
@[simp] theorem captureBuffer_nackf (a : Addr) (n : Len) (s : State) : (captureBuffer a n s).nackf = s.nackf := rfl
@[simp] theorem captureBuffer_bufr (a : Addr) (n : Len) (s : State) : (captureBuffer a n s).bufr = a := rfl
@[simp] theorem captureBuffer_lenr (a : Addr) (n : Len) (s : State) : (captureBuffer a n s).lenr = n := rfl
@[simp] theorem captureBuffer_idx (a : Addr) (n : Len) (s : State) : (captureBuffer a n s).idx = s.idx := rfl
@[simp] theorem captureBuffer_delay (a : Addr) (n : Len) (s : State) : (captureBuffer a n s).delay = s.delay := rfl
@[simp] theorem captureBuffer_trace (a : Addr) (n : Len) (s : State) : (captureBuffer a n s).trace = s.trace := rfl
@[simp] theorem captureBuffer_gpio (a : Addr) (n : Len) (s : State) : (captureBuffer a n s).gpio = s.gpio := rfl
@[simp] theorem captureBuffer_mem (a : Addr) (n : Len) (s : State) : (captureBuffer a n s).mem = s.mem := rfl
@[simp] theorem captureBuffer_host (a : Addr) (n : Len) (s : State) : (captureBuffer a n s).host = s.host := rfl
@[simp] theorem captureBuffer_rst (a : Addr) (n : Len) (s : State) : (captureBuffer a n s).rst = s.rst := rfl
@[simp] theorem captureBuffer_extLow (a : Addr) (n : Len) (s : State) : (captureBuffer a n s).extLow = s.extLow := rfl
@[simp] theorem captureBuffer_samples (a : Addr) (n : Len) (s : State) : (captureBuffer a n s).samples = s.samples := rfl
@[simp] theorem captureBuffer_fresh (a : Addr) (n : Len) (s : State) : (captureBuffer a n s).fresh = s.fresh := rfl
@[simp] theorem captureBuffer_cycles (a : Addr) (n : Len) (s : State) : (captureBuffer a n s).cycles = s.cycles := rfl

@[simp] theorem goTo_port (q : Seq) (s : State) : (goTo q s).port = s.port := rfl
@[simp] theorem goTo_sda (q : Seq) (s : State) : (goTo q s).sda = s.sda := rfl
@[simp] theorem goTo_scl (q : Seq) (s : State) : (goTo q s).scl = s.scl := rfl
@[simp] theorem goTo_bound (q : Seq) (s : State) : (goTo q s).bound = s.bound := rfl
@[simp] theorem goTo_busy (q : Seq) (s : State) : (goTo q s).busy = s.busy := rfl
@[simp] theorem goTo_ret (q : Seq) (s : State) : (goTo q s).ret = s.ret := rfl
@[simp] theorem goTo_seq (q : Seq) (s : State) : (goTo q s).seq = q := rfl
@[simp] theorem goTo_data (q : Seq) (s : State) : (goTo q s).data = s.data := rfl
@[simp] theorem goTo_bitcnt (q : Seq) (s : State) : (goTo q s).bitcnt = s.bitcnt := rfl
@[simp] theorem goTo_ackl (q : Seq) (s : State) : (goTo q s).ackl = s.ackl := rfl
@[simp] theorem goTo_nackf (q : Seq) (s : State) : (goTo q s).nackf = s.nackf := rfl
@[simp] theorem goTo_bufr (q : Seq) (s : State) : (goTo q s).bufr = s.bufr := rfl
@[simp] theorem goTo_lenr (q : Seq) (s : State) : (goTo q s).lenr = s.lenr := rfl
@[simp] theorem goTo_idx (q : Seq) (s : State) : (goTo q s).idx = s.idx := rfl
@[simp] theorem goTo_delay (q : Seq) (s : State) : (goTo q s).delay = s.delay := rfl
@[simp] theorem goTo_trace (q : Seq) (s : State) : (goTo q s).trace = s.trace := rfl
@[simp] theorem goTo_gpio (q : Seq) (s : State) : (goTo q s).gpio = s.gpio := rfl
@[simp] theorem goTo_mem (q : Seq) (s : State) : (goTo q s).mem = s.mem := rfl
@[simp] theorem goTo_host (q : Seq) (s : State) : (goTo q s).host = s.host := rfl
@[simp] theorem goTo_rst (q : Seq) (s : State) : (goTo q s).rst = s.rst := rfl
@[simp] theorem goTo_extLow (q : Seq) (s : State) : (goTo q s).extLow = s.extLow := rfl
@[simp] theorem goTo_samples (q : Seq) (s : State) : (goTo q s).samples = s.samples := rfl
@[simp] theorem goTo_fresh (q : Seq) (s : State) : (goTo q s).fresh = s.fresh := rfl
@[simp] theorem goTo_cycles (q : Seq) (s : State) : (goTo q s).cycles = s.cycles := rfl

@[simp] theorem popHost_port (s : State) : (popHost s).port = s.port := rfl
@[simp] theorem popHost_sda (s : State) : (popHost s).sda = s.sda := rfl
@[simp] theorem popHost_scl (s : State) : (popHost s).scl = s.scl := rfl
@[simp] theorem popHost_bound (s : State) : (popHost s).bound = s.bound := rfl
@[simp] theorem popHost_busy (s : State) : (popHost s).busy = s.busy := rfl
@[simp] theorem popHost_ret (s : State) : (popHost s).ret = s.ret := rfl
@[simp] theorem popHost_seq (s : State) : (popHost s).seq = s.seq := rfl
@[simp] theorem popHost_data (s : State) : (popHost s).data = s.data := rfl
@[simp] theorem popHost_bitcnt (s : State) : (popHost s).bitcnt = s.bitcnt := rfl
@[simp] theorem popHost_ackl (s : State) : (popHost s).ackl = s.ackl := rfl
@[simp] theorem popHost_nackf (s : State) : (popHost s).nackf = s.nackf := rfl
@[simp] theorem popHost_bufr (s : State) : (popHost s).bufr = s.bufr := rfl
@[simp] theorem popHost_lenr (s : State) : (popHost s).lenr = s.lenr := rfl
@[simp] theorem popHost_idx (s : State) : (popHost s).idx = s.idx := rfl
@[simp] theorem popHost_delay (s : State) : (popHost s).delay = s.delay := rfl
@[simp] theorem popHost_trace (s : State) : (popHost s).trace = s.trace := rfl
@[simp] theorem popHost_gpio (s : State) : (popHost s).gpio = s.gpio := rfl
@[simp] theorem popHost_mem (s : State) : (popHost s).mem = s.mem := rfl
@[simp] theorem popHost_host (s : State) : (popHost s).host = s.host.drop 1 := rfl
@[simp] theorem popHost_rst (s : State) : (popHost s).rst = s.rst := rfl
@[simp] theorem popHost_extLow (s : State) : (popHost s).extLow = s.extLow := rfl
@[simp] theorem popHost_samples (s : State) : (popHost s).samples = s.samples := rfl
@[simp] theorem popHost_fresh (s : State) : (popHost s).fresh = s.fresh := rfl
@[simp] theorem popHost_cycles (s : State) : (popHost s).cycles = s.cycles := rfl

end Sys2Proof.Machine
end

