-- ==== Sys2Proof/Laws/Store.lean ====
section
/-! SUPPORT. The laws of the sparse stores: a read after a write, and the canonical form every write keeps. -/

namespace Sys2Proof.Machine

section

variable {α : Type}

theorem cellsRead_insert (d : α) (l : List (Nat × α)) (a b : Nat) (v : α) :
    cellsRead d (cellsInsert l a v) b = if b = a then v else cellsRead d l b := by
  induction l with
  | nil => simp [cellsInsert, cellsRead]
  | cons c r ih =>
    obtain ⟨k, w⟩ := c
    by_cases h1 : a < k
    · simp [cellsInsert, cellsRead, h1]
    · by_cases h2 : a = k
      · subst h2; by_cases h3 : b = a <;> simp [cellsInsert, cellsRead, h3]
      · by_cases h3 : b = k
        · subst h3; simp [cellsInsert, cellsRead, h1, h2, Ne.symm h2]
        · simp [cellsInsert, cellsRead, h1, h2, h3, ih]

theorem cellsRead_filter (d : α) (l : List (Nat × α)) (a b : Nat) :
    cellsRead d (l.filter fun c => c.1 != a) b = if b = a then d else cellsRead d l b := by
  induction l with
  | nil => simp [cellsRead]
  | cons c r ih =>
    obtain ⟨k, w⟩ := c
    by_cases h1 : k = a
    · subst h1; by_cases h3 : b = k
      · subst h3; simpa using ih
      · simpa [cellsRead, h3] using ih
    · by_cases h3 : b = k
      · subst h3; simp [cellsRead, h1]
      · simp [cellsRead, h1, h3, ih]

theorem cellsInsert_above {l : List (Nat × α)} {j a : Nat} {v : α} (hl : ∀ c ∈ l, j < c.1) (ha : j < a) :
    ∀ c ∈ cellsInsert l a v, j < c.1 := by
  induction l with
  | nil => simpa [cellsInsert] using ha
  | cons c r ih =>
    obtain ⟨k, w⟩ := c
    simp only [List.mem_cons, forall_eq_or_imp] at hl
    by_cases h1 : a < k
    · simp only [cellsInsert, h1, if_true, List.mem_cons, forall_eq_or_imp]; exact ⟨ha, hl⟩
    · by_cases h2 : a = k
      · simp only [cellsInsert, h2, if_true, if_false, List.mem_cons, forall_eq_or_imp, lt_irrefl]
        exact hl
      · simp only [cellsInsert, h1, h2, if_false, List.mem_cons, forall_eq_or_imp]
        exact ⟨hl.1, ih hl.2⟩

theorem cellsBelow_insert {n a : Nat} {l : List (Nat × α)} (h : cellsBelow n l = true) (ha : a < n) (v : α) :
    cellsBelow n (cellsInsert l a v) = true := by
  induction l with
  | nil => simpa [cellsBelow, cellsInsert] using ha
  | cons c r ih =>
    obtain ⟨k, w⟩ := c
    simp only [cellsBelow, List.all_cons, Bool.and_eq_true, decide_eq_true_eq] at h ih ⊢
    by_cases h1 : a < k
    · simp [cellsInsert, h1, ha, h.1, h.2]
    · by_cases h2 : a = k
      · simp [cellsInsert, h2, h.1, h.2]
      · simpa [cellsInsert, h1, h2, h.1] using ih h.2

variable [DecidableEq α]

/-- What a store reads after a write, at every key. -/
theorem cellsRead_write (d : α) (l : List (Nat × α)) (a b : Nat) (v : α) :
    cellsRead d (cellsWrite d l a v) b = if b = a then v else cellsRead d l b := by
  unfold cellsWrite
  split
  · next h => rw [cellsRead_filter, h]
  · rw [cellsRead_insert]

theorem cellsWf_cons {d v : α} {k : Nat} {r : List (Nat × α)} :
    cellsWf d ((k, v) :: r) = true ↔ v ≠ d ∧ (∀ c ∈ r, k < c.1) ∧ cellsWf d r = true := by
  simp [cellsWf, and_assoc]

theorem cellsWf_insert {d : α} {l : List (Nat × α)} (h : cellsWf d l = true) (a : Nat) {v : α} (hv : v ≠ d) :
    cellsWf d (cellsInsert l a v) = true := by
  induction l with
  | nil => simp [cellsInsert, cellsWf, hv]
  | cons c r ih =>
    obtain ⟨k, w⟩ := c
    obtain ⟨hw, hk, hr⟩ := cellsWf_cons.1 h
    by_cases h1 : a < k
    · simp only [cellsInsert, h1, if_true]
      refine cellsWf_cons.2 ⟨hv, ?_, h⟩
      simp only [List.mem_cons, forall_eq_or_imp]
      exact ⟨h1, fun c hc => lt_trans h1 (hk c hc)⟩
    · by_cases h2 : a = k
      · subst h2
        simp only [cellsInsert, lt_irrefl, if_true, if_false]
        exact cellsWf_cons.2 ⟨hv, hk, hr⟩
      · simp only [cellsInsert, h1, h2, if_false]
        exact cellsWf_cons.2 ⟨hw, cellsInsert_above hk (by omega), ih hr⟩

theorem cellsWf_filter {d : α} {l : List (Nat × α)} (h : cellsWf d l = true) (p : Nat × α → Bool) :
    cellsWf d (l.filter p) = true := by
  induction l with
  | nil => simpa using h
  | cons c r ih =>
    obtain ⟨k, w⟩ := c
    obtain ⟨hw, hk, hr⟩ := cellsWf_cons.1 h
    rw [List.filter_cons]
    split
    · exact cellsWf_cons.2 ⟨hw, fun c hc => hk c (List.mem_of_mem_filter hc), ih hr⟩
    · exact ih hr

/-- Every write keeps the canonical form. -/
theorem cellsWf_write {d : α} {l : List (Nat × α)} (h : cellsWf d l = true) (a : Nat) (v : α) :
    cellsWf d (cellsWrite d l a v) = true := by
  unfold cellsWrite
  split
  · exact cellsWf_filter h _
  · next hv => exact cellsWf_insert h a hv

/-- A write at a key below a number keeps every key below it. -/
theorem cellsBelow_write {d : α} {n a : Nat} {l : List (Nat × α)} (h : cellsBelow n l = true) (ha : a < n) (v : α) :
    cellsBelow n (cellsWrite d l a v) = true := by
  unfold cellsWrite
  split
  · simp only [cellsBelow, List.all_eq_true] at h ⊢
    exact fun c hc => h c (List.mem_of_mem_filter hc)
  · exact cellsBelow_insert h ha v

end

/-! ### The two stores of the state -/

theorem addr_ext {a b : Addr} : a.key = b.key ↔ a = b := by cases a; cases b; simp

theorem portRef_ext {p q : PortRef} : p.key = q.key ↔ p = q := by cases p; cases q; simp

@[simp] theorem memRead_memWrite (a b : Addr) (v : Byte) (s : State) :
    memRead (memWrite a v s) b = if b = a then v else memRead s b :=
  (cellsRead_write Config.unlistedByte s.mem a.key.val b.key.val v).trans (by simp only [Fin.val_inj, addr_ext]; rfl)

@[simp] theorem portRegs_setPortRegs (p q : PortRef) (r : PortRegs Config.W) (s : State) :
    portRegs (setPortRegs p r s) q = if q = p then r else portRegs s q :=
  (cellsRead_write PortRegs.reset s.gpio p.key.val q.key.val r).trans (by simp only [Fin.val_inj, portRef_ext]; rfl)

/-- A load from memory gives the byte there, whatever the time (R42). -/
theorem loadByte_memory {a : Addr} (h : isMemory a = true) (s : State) : loadByte s a = memRead s a := if_pos h

/-- What a load looks at: buffer memory, and the time where there is no memory. -/
theorem loadByte_congr {s t : State} (hm : t.mem = s.mem) (hc : t.cycles = s.cycles) (a : Addr) : loadByte t a = loadByte s a := by
  simp only [loadByte, memRead, hm, hc]

theorem memoryWf_memWrite {s : State} (h : memoryWf s) (a : Addr) (v : Byte) : memoryWf (memWrite a v s) :=
  ⟨cellsWf_write h.1 a.key v, cellsBelow_write h.2 a.key.isLt v⟩

theorem gpioWf_setPortRegs {s : State} (h : gpioWf s) (p : PortRef) (r : PortRegs Config.W) : gpioWf (setPortRegs p r s) :=
  ⟨cellsWf_write h.1 p.key r, cellsBelow_write h.2 p.key.isLt r⟩

theorem memoryWf_reset : memoryWf State.reset := ⟨rfl, rfl⟩

theorem gpioWf_reset : gpioWf State.reset := ⟨rfl, rfl⟩

end Sys2Proof.Machine
end

