-- ==== Sys2Proof/Laws/Ops.lean ====
section
/-! SUPPORT. What a micro-operation does, said once (40_timing_primitives.md, 41_line_controller.md): its entry in T, its effect on
the two registers of the bound port, the cycles it takes, and that it changes nothing else; then the same for a list of them. -/

namespace Sys2Proof.Machine

/-- The effect of a micro-operation on the registers of the bound port, for the masks of the session (R73). -/
def regsAfter {w : Nat} (sda scl : BitVec w) : Micro → PortRegs w → PortRegs w
  | .drvSda, r   => dirSet sda r
  | .relSda, r   => dirClr sda r
  | .drvScl, r   => dirSet scl r
  | .relScl, r   => dirClr scl r
  | .relBoth, r  => dirClr (sda ||| scl) r
  | .clrBoth, r  => outClr (sda ||| scl) r
  | .smpSda _, r => r
  | .waitQ, r    => r
  | .waitH, r    => r

/-- The clock cycles a micro-operation takes (R81, R82, R84). -/
def cyclesOf : Micro → Nat
  | .waitQ => Config.QDEL_CYCLES
  | .waitH => Config.HDEL_CYCLES
  | _      => 0

/-- The samples a micro-operation takes. -/
def samplesOf : Micro → Nat
  | .smpSda _ => 1
  | _         => 0

theorem countDown_eq (n : Nat) (c : DelayCount) : countDown n c = c - BitVec.ofNat Config.DELAY_BITS n := by
  induction n generalizing c with
  | zero => simp [countDown]
  | succ n ih => rw [countDown, ih, BitVec.ofNat_add, BitVec.sub_sub, BitVec.add_comm]; rfl

/-- A delay leaves its counter at zero and lets its cycles pass (R85). -/
theorem delayFor_eq (n : Nat) (s : State) : delayFor n s = { s with delay := 0, cycles := s.cycles + n } := by
  simp [delayFor, countDown_eq]

theorem emit_waitQ_eq (s : State) : emit .waitQ s =
    { s with trace := s.trace ++ [.waitQ], delay := 0, cycles := s.cycles + Config.QDEL_CYCLES } := by
  simp [emit, waitQ, delayFor_eq, logMicro]

theorem emit_waitH_eq (s : State) : emit .waitH s =
    { s with trace := s.trace ++ [.waitH], delay := 0, cycles := s.cycles + Config.HDEL_CYCLES } := by
  simp [emit, waitH, delayFor_eq, logMicro]

@[simp] theorem emit_port (u : Micro) (s : State) : (emit u s).port = s.port := by cases u <;> rfl

@[simp] theorem emit_sda (u : Micro) (s : State) : (emit u s).sda = s.sda := by cases u <;> rfl

@[simp] theorem emit_scl (u : Micro) (s : State) : (emit u s).scl = s.scl := by cases u <;> rfl

@[simp] theorem emit_bound (u : Micro) (s : State) : (emit u s).bound = s.bound := by cases u <;> rfl

@[simp] theorem emit_busy (u : Micro) (s : State) : (emit u s).busy = s.busy := by cases u <;> rfl

@[simp] theorem emit_ret (u : Micro) (s : State) : (emit u s).ret = s.ret := by cases u <;> rfl

@[simp] theorem emit_seq (u : Micro) (s : State) : (emit u s).seq = s.seq := by cases u <;> rfl

@[simp] theorem emit_data (u : Micro) (s : State) : (emit u s).data = s.data := by cases u <;> rfl

@[simp] theorem emit_bitcnt (u : Micro) (s : State) : (emit u s).bitcnt = s.bitcnt := by cases u <;> rfl

@[simp] theorem emit_ackl (u : Micro) (s : State) : (emit u s).ackl = s.ackl := by cases u <;> rfl

@[simp] theorem emit_nackf (u : Micro) (s : State) : (emit u s).nackf = s.nackf := by cases u <;> rfl

@[simp] theorem emit_bufr (u : Micro) (s : State) : (emit u s).bufr = s.bufr := by cases u <;> rfl

@[simp] theorem emit_lenr (u : Micro) (s : State) : (emit u s).lenr = s.lenr := by cases u <;> rfl

@[simp] theorem emit_idx (u : Micro) (s : State) : (emit u s).idx = s.idx := by cases u <;> rfl

@[simp] theorem emit_mem (u : Micro) (s : State) : (emit u s).mem = s.mem := by cases u <;> rfl

@[simp] theorem emit_host (u : Micro) (s : State) : (emit u s).host = s.host := by cases u <;> rfl

@[simp] theorem emit_rst (u : Micro) (s : State) : (emit u s).rst = s.rst := by cases u <;> rfl

@[simp] theorem emit_fresh (u : Micro) (s : State) : (emit u s).fresh = s.fresh := by cases u <;> rfl

@[simp] theorem emit_trace (u : Micro) (s : State) : (emit u s).trace = s.trace ++ [u] := by cases u <;> rfl

@[simp] theorem emit_cycles (u : Micro) (s : State) : (emit u s).cycles = s.cycles + cyclesOf u := by
  cases u <;> rfl

@[simp] theorem emit_extLow (u : Micro) (s : State) : (emit u s).extLow = s.extLow.drop (samplesOf u) := by
  cases u <;> rfl

@[simp] theorem emit_samples (u : Micro) (s : State) : (emit u s).samples = s.samples + samplesOf u := by
  cases u <;> rfl

/-- The registers of every port after a micro-operation. -/
theorem portRegs_emit (u : Micro) (s : State) (q : PortRef) :
    portRegs (emit u s) q = if q = s.port then regsAfter s.sda s.scl u (portRegs s s.port) else portRegs s q := by
  have hlog : ∀ v, portRegs (logMicro v s) = portRegs s := fun _ => rfl
  have hid : ∀ t : State, t.gpio = s.gpio → portRegs t q = if q = s.port then portRegs s s.port else portRegs s q := by
    intro t ht
    by_cases h : q = s.port
    · simp [h, portRegs, ht]
    · simp [h, portRegs, ht]
  cases u with
  | smpSda b => exact hid _ rfl
  | waitQ => exact hid _ (by rw [emit_waitQ_eq])
  | waitH => exact hid _ (by rw [emit_waitH_eq])
  | _ => simp [emit, drvSda, relSda, drvScl, relScl, relBoth, clrBoth, gpioDirSet, gpioDirClr, gpioOutClr, hlog, regsAfter]

theorem gpioWf_emit {s : State} (h : gpioWf s) (u : Micro) : gpioWf (emit u s) := by
  cases u with
  | smpSda b => exact h
  | waitQ => rw [emit_waitQ_eq]; exact h
  | waitH => rw [emit_waitH_eq]; exact h
  | _ => exact gpioWf_setPortRegs (s := logMicro _ s) h _ _

/-! ### A list of micro-operations -/

@[simp] theorem emitAll_nil (s : State) : emitAll [] s = s := rfl

@[simp] theorem emitAll_cons (u : Micro) (us : List Micro) (s : State) : emitAll (u :: us) s = emitAll us (emit u s) := rfl

theorem emitAll_append (us vs : List Micro) (s : State) : emitAll (us ++ vs) s = emitAll vs (emitAll us s) :=
  List.foldl_append

@[simp] theorem emitAll_port (us : List Micro) (s : State) : (emitAll us s).port = s.port := by
  induction us generalizing s with
  | nil => rfl
  | cons u us ih => simp [ih]

@[simp] theorem emitAll_sda (us : List Micro) (s : State) : (emitAll us s).sda = s.sda := by
  induction us generalizing s with
  | nil => rfl
  | cons u us ih => simp [ih]

@[simp] theorem emitAll_scl (us : List Micro) (s : State) : (emitAll us s).scl = s.scl := by
  induction us generalizing s with
  | nil => rfl
  | cons u us ih => simp [ih]

@[simp] theorem emitAll_bound (us : List Micro) (s : State) : (emitAll us s).bound = s.bound := by
  induction us generalizing s with
  | nil => rfl
  | cons u us ih => simp [ih]

@[simp] theorem emitAll_busy (us : List Micro) (s : State) : (emitAll us s).busy = s.busy := by
  induction us generalizing s with
  | nil => rfl
  | cons u us ih => simp [ih]

@[simp] theorem emitAll_ret (us : List Micro) (s : State) : (emitAll us s).ret = s.ret := by
  induction us generalizing s with
  | nil => rfl
  | cons u us ih => simp [ih]

@[simp] theorem emitAll_seq (us : List Micro) (s : State) : (emitAll us s).seq = s.seq := by
  induction us generalizing s with
  | nil => rfl
  | cons u us ih => simp [ih]

@[simp] theorem emitAll_data (us : List Micro) (s : State) : (emitAll us s).data = s.data := by
  induction us generalizing s with
  | nil => rfl
  | cons u us ih => simp [ih]

@[simp] theorem emitAll_bitcnt (us : List Micro) (s : State) : (emitAll us s).bitcnt = s.bitcnt := by
  induction us generalizing s with
  | nil => rfl
  | cons u us ih => simp [ih]

@[simp] theorem emitAll_ackl (us : List Micro) (s : State) : (emitAll us s).ackl = s.ackl := by
  induction us generalizing s with
  | nil => rfl
  | cons u us ih => simp [ih]

@[simp] theorem emitAll_nackf (us : List Micro) (s : State) : (emitAll us s).nackf = s.nackf := by
  induction us generalizing s with
  | nil => rfl
  | cons u us ih => simp [ih]

@[simp] theorem emitAll_bufr (us : List Micro) (s : State) : (emitAll us s).bufr = s.bufr := by
  induction us generalizing s with
  | nil => rfl
  | cons u us ih => simp [ih]

@[simp] theorem emitAll_lenr (us : List Micro) (s : State) : (emitAll us s).lenr = s.lenr := by
  induction us generalizing s with
  | nil => rfl
  | cons u us ih => simp [ih]

@[simp] theorem emitAll_idx (us : List Micro) (s : State) : (emitAll us s).idx = s.idx := by
  induction us generalizing s with
  | nil => rfl
  | cons u us ih => simp [ih]

@[simp] theorem emitAll_mem (us : List Micro) (s : State) : (emitAll us s).mem = s.mem := by
  induction us generalizing s with
  | nil => rfl
  | cons u us ih => simp [ih]

@[simp] theorem emitAll_host (us : List Micro) (s : State) : (emitAll us s).host = s.host := by
  induction us generalizing s with
  | nil => rfl
  | cons u us ih => simp [ih]

@[simp] theorem emitAll_rst (us : List Micro) (s : State) : (emitAll us s).rst = s.rst := by
  induction us generalizing s with
  | nil => rfl
  | cons u us ih => simp [ih]

@[simp] theorem emitAll_fresh (us : List Micro) (s : State) : (emitAll us s).fresh = s.fresh := by
  induction us generalizing s with
  | nil => rfl
  | cons u us ih => simp [ih]

@[simp] theorem emitAll_trace (us : List Micro) (s : State) : (emitAll us s).trace = s.trace ++ us := by
  induction us generalizing s with
  | nil => simp
  | cons u us ih => simp [ih]

@[simp] theorem emitAll_cycles (us : List Micro) (s : State) :
    (emitAll us s).cycles = s.cycles + (us.map cyclesOf).sum := by
  induction us generalizing s with
  | nil => simp
  | cons u us ih => simp [ih, Nat.add_assoc]

@[simp] theorem emitAll_samples (us : List Micro) (s : State) :
    (emitAll us s).samples = s.samples + (us.map samplesOf).sum := by
  induction us generalizing s with
  | nil => simp
  | cons u us ih => simp [ih, Nat.add_assoc]

@[simp] theorem emitAll_extLow (us : List Micro) (s : State) :
    (emitAll us s).extLow = s.extLow.drop (us.map samplesOf).sum := by
  induction us generalizing s with
  | nil => simp
  | cons u us ih => simp [ih]

/-- The registers of every port after a list of micro-operations. -/
theorem portRegs_emitAll (us : List Micro) (s : State) (q : PortRef) :
    portRegs (emitAll us s) q =
      if q = s.port then us.foldl (fun r u => regsAfter s.sda s.scl u r) (portRegs s s.port) else portRegs s q := by
  induction us generalizing s with
  | nil => by_cases h : q = s.port <;> simp [h]
  | cons u us ih =>
    rw [emitAll_cons, ih]
    by_cases h : q = s.port <;> simp [portRegs_emit, h]

theorem gpioWf_emitAll {s : State} (h : gpioWf s) (us : List Micro) : gpioWf (emitAll us s) := by
  induction us generalizing s with
  | nil => exact h
  | cons u us ih => exact ih (gpioWf_emit h u)

end Sys2Proof.Machine
end

