-- ==== Sys2Proof/Laws/Engine.lean ====
section
/-! SUPPORT. What the engine does, said once: `run` in pieces, the sample of a released SDA, and the bodies of WRITEBYTE and READBYTE
inside whichever command runs them (43_byte_transfer.md rules R131, R135), as one list of micro-operations. -/

namespace Sys2Proof.Machine

open Sys2Proof.Safety

/-! ### run -/

@[simp] theorem run_zero (s : State) : run 0 s = s := rfl

/-- An idle engine stays as it is. -/
theorem run_idle (n : Nat) {s : State} (h : s.seq = .idle) : run n s = s := by
  cases n with
  | zero => rfl
  | succ n => simp [run, h]

/-- Running in two pieces. -/
theorem run_add (m n : Nat) (s : State) : run (m + n) s = run n (run m s) := by
  induction m generalizing s with
  | zero => simp
  | succ m ih =>
    by_cases h : s.seq = .idle
    · rw [run_idle _ h, run_idle _ h, run_idle _ h]
    · rw [Nat.add_right_comm, run, if_neg h, ih, run, if_neg h]

/-- With no reset to come, one engine step is the next micro-operation. -/
theorem engineStep_noReset {s : State} (h : s.rst = []) : engineStep s = microStep s := by
  simp [engineStep, resetDue, resetNearer, h]

theorem run_succ {n : Nat} {s : State} (hq : s.seq ≠ .idle) (h : s.rst = []) : run (n + 1) s = run n (microStep s) := by
  rw [run, if_neg hq, engineStep_noReset h]

/-! ### Control fields commute with micro-operations -/

/-- DATA and BITCNT set together. -/
def setBits (d : Byte) (c : BitVec 3) (s : State) : State := { s with data := d, bitcnt := c }

/-- ACKL set. -/
def setAckl (a : Bool) (s : State) : State := { s with ackl := a }

/-- NACKF set. -/
def setNackf (a : Bool) (s : State) : State := { s with nackf := a }

theorem emit_goTo (u : Micro) (q : Seq) (s : State) : emit u (goTo q s) = goTo q (emit u s) := by cases u <;> rfl

theorem emit_setBits (u : Micro) (d : Byte) (c : BitVec 3) (s : State) :
    emit u (setBits d c s) = setBits d c (emit u s) := by cases u <;> rfl

theorem emit_setAckl (u : Micro) (a : Bool) (s : State) : emit u (setAckl a s) = setAckl a (emit u s) := by cases u <;> rfl

theorem emit_setNackf (u : Micro) (a : Bool) (s : State) : emit u (setNackf a s) = setNackf a (emit u s) := by
  cases u <;> rfl

theorem emitAll_goTo (us : List Micro) (q : Seq) (s : State) : emitAll us (goTo q s) = goTo q (emitAll us s) := by
  induction us generalizing s with
  | nil => rfl
  | cons u us ih => simp only [emitAll_cons, emit_goTo, ih]

theorem emitAll_setBits (us : List Micro) (d : Byte) (c : BitVec 3) (s : State) :
    emitAll us (setBits d c s) = setBits d c (emitAll us s) := by
  induction us generalizing s with
  | nil => rfl
  | cons u us ih => simp only [emitAll_cons, emit_setBits, ih]

theorem emitAll_setNackf (us : List Micro) (a : Bool) (s : State) :
    emitAll us (setNackf a s) = setNackf a (emitAll us s) := by
  induction us generalizing s with
  | nil => rfl
  | cons u us ih => simp only [emitAll_cons, emit_setNackf, ih]

theorem emitAll_setAckl (us : List Micro) (a : Bool) (s : State) :
    emitAll us (setAckl a s) = setAckl a (emitAll us s) := by
  induction us generalizing s with
  | nil => rfl
  | cons u us ih => simp only [emitAll_cons, emit_setAckl, ih]

theorem goTo_goTo (q r : Seq) (s : State) : goTo q (goTo r s) = goTo q s := rfl

theorem setBits_setBits (d e : Byte) (b c : BitVec 3) (s : State) : setBits d b (setBits e c s) = setBits d b s := rfl

/-! ### The sample -/

/-- Some pin of a mask is not pulled low exactly when the pulled pins do not cover the mask. -/
theorem free_pin {w : Nat} (x m : BitVec w) : (~~~x &&& m != 0) = (x &&& m != m) := by
  rw [Bool.eq_iff_iff, bne_iff_ne, bne_iff_ne, not_iff_not]
  constructor
  all_goals
    intro h
    apply BitVec.eq_of_getLsbD_eq
    intro i hi
    have hb := congrArg (fun v : BitVec w => v.getLsbD i) h
    simp only [BitVec.getLsbD_and, BitVec.getLsbD_not, hi, decide_true, Bool.true_and, BitVec.ofNat_eq_ofNat,
      BitVec.getLsbD_zero] at hb ⊢
    revert hb
    cases x.getLsbD i <;> cases m.getLsbD i <;> simp

/-- What SMP_SDA sees of IN while SDA is released: the pins nobody pulls low (R26, R27). -/
theorem inWord_released {w : Nat} {r : PortRegs w} {m : BitVec w} (h : r.dir &&& m = 0) (x y : BitVec w) :
    inWord r x y &&& m = ~~~x &&& m := by
  apply BitVec.eq_of_getLsbD_eq
  intro i hi
  have hb := congrArg (fun v : BitVec w => v.getLsbD i) h
  simp only [inWord, BitVec.getLsbD_and, BitVec.getLsbD_or, BitVec.getLsbD_not, hi, decide_true, Bool.true_and,
    BitVec.ofNat_eq_ofNat, BitVec.getLsbD_zero] at hb ⊢
  revert hb
  cases r.dir.getLsbD i <;> cases m.getLsbD i <;> simp

/-- A sample of a released SDA returns what the environment puts on the pin (R27). -/
theorem sampledBit_released {s : State} (h : (portRegs s s.port).dir &&& s.sda = 0) : sampledBit s = sdaAnswer s 0 := by
  unfold sampledBit sampleBit gpioIn sdaAnswer
  rw [inWord_released h, free_pin]

/-- The environment's word at a later sample, seen from after some samples have passed. -/
theorem extWord_emitAll (us : List Micro) (s : State) (k : Nat) :
    extWord (emitAll us s) k = extWord s ((us.map samplesOf).sum + k) := by
  simp [extWord, List.getElem?_drop, Nat.add_assoc]

theorem sdaAnswer_emitAll (us : List Micro) (s : State) (k : Nat) :
    sdaAnswer (emitAll us s) k = sdaAnswer s ((us.map samplesOf).sum + k) := by
  simp [sdaAnswer, extWord_emitAll]

theorem run_goTo {q : Seq} (hq : q ≠ .idle) (n : Nat) {s : State} (h : s.rst = []) :
    run (n + 1) (goTo q s) = run n (microStep (goTo q s)) := run_succ hq h

/-! ### The body of WRITEBYTE -/

section

variable {pos : WriteStep → Seq} {done : State → State}

/-- One data bit of WRITEBYTE (R131 step 2): its five micro-operations. -/
theorem run_writeBit (hne : ∀ k, pos k ≠ .idle)
    (hm : ∀ k s, microStep (goTo (pos k) s) = writeByteStep pos done k (goTo (pos k) s))
    (n : Nat) (v : Byte) (c : BitVec 3) {s : State} (h : s.rst = []) :
    run (5 + n) (goTo (pos .w2a) (setBits v c s)) =
      run n (nextWriteBit pos (goTo (pos .w2e) (setBits v c (emitAll (writeBitTrace (dataBit v c)) s)))) := by
  rw [show 5 + n = n + 1 + 1 + 1 + 1 + 1 by omega]
  have h1 : ∀ x, writeByteStep pos done .w2a (goTo (pos .w2a) (setBits v c x)) =
      goTo (pos .w2b) (setBits v c (emit (if dataBit v c then .relSda else .drvSda) x)) := fun x => by
    simp only [writeByteStep, setSda, emit_goTo, emit_setBits, goTo_goTo]; rfl
  have h2 : ∀ x, writeByteStep pos done .w2b (goTo (pos .w2b) (setBits v c x)) =
      goTo (pos .w2c) (setBits v c (emit .waitQ x)) := fun _ => rfl
  have h3 : ∀ x, writeByteStep pos done .w2c (goTo (pos .w2c) (setBits v c x)) =
      goTo (pos .w2d) (setBits v c (emit .relScl x)) := fun _ => rfl
  have h4 : ∀ x, writeByteStep pos done .w2d (goTo (pos .w2d) (setBits v c x)) =
      goTo (pos .w2e) (setBits v c (emit .waitH x)) := fun _ => rfl
  have h5 : ∀ x, writeByteStep pos done .w2e (goTo (pos .w2e) (setBits v c x)) =
      nextWriteBit pos (goTo (pos .w2e) (setBits v c (emit .drvScl x))) := fun _ => rfl
  have hb : ∀ x : State, x.rst = [] → (setBits v c x).rst = [] := fun _ hx => hx
  rw [run_goTo (hne _) _ (hb _ h), hm, h1, run_goTo (hne _) _ (hb _ (by simpa using h)), hm, h2,
    run_goTo (hne _) _ (hb _ (by simpa using h)), hm, h3, run_goTo (hne _) _ (hb _ (by simpa using h)), hm, h4,
    run_goTo (hne _) _ (hb _ (by simpa using h)), hm, h5]
  rfl

theorem nextWriteBit_more {v : Byte} {c : BitVec 3} (hc : c ≠ 0) (q : Seq) (s : State) :
    nextWriteBit pos (goTo q (setBits v c s)) = goTo (pos .w2a) (setBits v (c - 1) s) := if_neg hc

theorem nextWriteBit_last {v : Byte} (q : Seq) (s : State) :
    nextWriteBit pos (goTo q (setBits v 0 s)) = goTo (pos .w3) (setBits v 0 s) := rfl

/-- A data bit that is not the last: the next one follows (R131 step 2). -/
theorem run_writeBit_more (hne : ∀ k, pos k ≠ .idle)
    (hm : ∀ k s, microStep (goTo (pos k) s) = writeByteStep pos done k (goTo (pos k) s))
    (n : Nat) (v : Byte) (c : BitVec 3) (hc : c ≠ 0) {s : State} (h : s.rst = []) :
    run (5 + n) (goTo (pos .w2a) (setBits v c s)) =
      run n (goTo (pos .w2a) (setBits v (c - 1) (emitAll (writeBitTrace (dataBit v c)) s))) := by
  rw [run_writeBit hne hm n v c h, nextWriteBit_more hc]

/-- The eight data bits of WRITEBYTE, most significant first (R131 step 2, R132). -/
theorem run_writeBits (hne : ∀ k, pos k ≠ .idle)
    (hm : ∀ k s, microStep (goTo (pos k) s) = writeByteStep pos done k (goTo (pos k) s))
    (n : Nat) (v : Byte) {s : State} (h : s.rst = []) :
    run (40 + n) (goTo (pos .w2a) (setBits v 7 s)) =
      run n (goTo (pos .w3) (setBits v 0 (emitAll ((msbFirst v).flatMap writeBitTrace) s))) := by
  have hr : ∀ (x : State) us, x.rst = [] → (emitAll us x).rst = [] := fun x us hx => by simpa using hx
  rw [show 40 + n = 5 + (5 + (5 + (5 + (5 + (5 + (5 + (5 + n))))))) by omega]
  rw [run_writeBit_more hne hm _ v 7 (by decide) h]
  rw [run_writeBit_more hne hm _ v (7 - 1) (by decide) (hr _ _ h)]
  rw [run_writeBit_more hne hm _ v (7 - 1 - 1) (by decide) (hr _ _ (hr _ _ h))]
  rw [run_writeBit_more hne hm _ v (7 - 1 - 1 - 1) (by decide) (hr _ _ (hr _ _ (hr _ _ h)))]
  rw [run_writeBit_more hne hm _ v (7 - 1 - 1 - 1 - 1) (by decide) (hr _ _ (hr _ _ (hr _ _ (hr _ _ h))))]
  rw [run_writeBit_more hne hm _ v (7 - 1 - 1 - 1 - 1 - 1) (by decide)
    (hr _ _ (hr _ _ (hr _ _ (hr _ _ (hr _ _ h)))))]
  rw [run_writeBit_more hne hm _ v (7 - 1 - 1 - 1 - 1 - 1 - 1) (by decide)
    (hr _ _ (hr _ _ (hr _ _ (hr _ _ (hr _ _ (hr _ _ h))))))]
  rw [run_writeBit hne hm _ v (7 - 1 - 1 - 1 - 1 - 1 - 1 - 1)
    (hr _ _ (hr _ _ (hr _ _ (hr _ _ (hr _ _ (hr _ _ (hr _ _ h)))))))]
  have hz : (7 - 1 - 1 - 1 - 1 - 1 - 1 - 1 : BitVec 3) = 0 := by decide
  rw [hz, nextWriteBit_last]
  simp only [← emitAll_append, msbFirst, List.flatMap_cons, List.flatMap_nil, List.append_nil, List.append_assoc]
  congr 1

/-- The ninth clock of WRITEBYTE: SDA released, the answer sampled, SDA taken again (R131 steps 3 to 10, R133). -/
theorem run_writeAck (hne : ∀ k, pos k ≠ .idle)
    (hm : ∀ k s, microStep (goTo (pos k) s) = writeByteStep pos done k (goTo (pos k) s))
    (n : Nat) (v : Byte) {s : State} (h : s.rst = []) :
    run (8 + n) (goTo (pos .w3) (setBits v 0 s)) =
      run n (done (goTo (pos .w10) (setAckl (sdaAnswer s 0) (setBits v 0 (emitAll
        [.relSda, .waitH, .relScl, .smpSda (sdaAnswer s 0), .waitH, .drvScl, .drvSda, .waitH] s))))) := by
  have hr : ∀ (x : State) us, x.rst = [] → (emitAll us x).rst = [] := fun x us hx => by simpa using hx
  have hb : ∀ x : State, x.rst = [] → (setBits v 0 x).rst = [] := fun _ hx => hx
  have hs : sampledBit (emitAll [.relSda, .waitH, .relScl] s) = sdaAnswer s 0 := by
    rw [sampledBit_released, sdaAnswer_emitAll]
    · rfl
    · rw [portRegs_emitAll]
      simp only [emitAll_port, emitAll_sda, if_true, List.foldl_cons, List.foldl_nil, regsAfter, dirClr]
      apply BitVec.eq_of_getLsbD_eq
      intro i hi
      simp only [BitVec.getLsbD_and, BitVec.getLsbD_not, hi]
      cases (BitVec.getLsbD s.sda i) <;> simp
  have h1 : ∀ x, writeByteStep pos done .w3 (goTo (pos .w3) (setBits v 0 x)) =
      goTo (pos .w4) (setBits v 0 (emitAll [.relSda] x)) := fun _ => rfl
  have h2 : ∀ us x, writeByteStep pos done .w4 (goTo (pos .w4) (setBits v 0 (emitAll us x))) =
      goTo (pos .w5) (setBits v 0 (emitAll (us ++ [.waitH]) x)) := fun us x => by rw [emitAll_append]; rfl
  have h3 : ∀ us x, writeByteStep pos done .w5 (goTo (pos .w5) (setBits v 0 (emitAll us x))) =
      goTo (pos .w6) (setBits v 0 (emitAll (us ++ [.relScl]) x)) := fun us x => by rw [emitAll_append]; rfl
  have h4 : ∀ us x, writeByteStep pos done .w6 (goTo (pos .w6) (setBits v 0 (emitAll us x))) =
      goTo (pos .w7) (setAckl (sampledBit (emitAll us x)) (setBits v 0
        (emitAll (us ++ [.smpSda (sampledBit (emitAll us x))]) x))) := fun us x => by rw [emitAll_append]; rfl
  have h5 : ∀ us a x, writeByteStep pos done .w7 (goTo (pos .w7) (setAckl a (setBits v 0 (emitAll us x)))) =
      goTo (pos .w8) (setAckl a (setBits v 0 (emitAll (us ++ [.waitH]) x))) := fun us a x => by rw [emitAll_append]; rfl
  have h6 : ∀ us a x, writeByteStep pos done .w8 (goTo (pos .w8) (setAckl a (setBits v 0 (emitAll us x)))) =
      goTo (pos .w9) (setAckl a (setBits v 0 (emitAll (us ++ [.drvScl]) x))) := fun us a x => by rw [emitAll_append]; rfl
  have h7 : ∀ us a x, writeByteStep pos done .w9 (goTo (pos .w9) (setAckl a (setBits v 0 (emitAll us x)))) =
      goTo (pos .w10) (setAckl a (setBits v 0 (emitAll (us ++ [.drvSda]) x))) := fun us a x => by
    rw [emitAll_append]; rfl
  have h8 : ∀ us a x, writeByteStep pos done .w10 (goTo (pos .w10) (setAckl a (setBits v 0 (emitAll us x)))) =
      done (goTo (pos .w10) (setAckl a (setBits v 0 (emitAll (us ++ [.waitH]) x)))) := fun us a x => by
    rw [emitAll_append]; rfl
  have ha : ∀ us a, (setAckl a (setBits v 0 (emitAll us s))).rst = [] := fun us _ => hr s us h
  have hc : ∀ us, (setBits v 0 (emitAll us s)).rst = [] := fun us => hr s us h
  rw [show 8 + n = n + 1 + 1 + 1 + 1 + 1 + 1 + 1 + 1 by omega]
  rw [run_goTo (hne _) _ (hb _ h), hm, h1, run_goTo (hne _) _ (hc _), hm, h2, run_goTo (hne _) _ (hc _), hm, h3,
    run_goTo (hne _) _ (hc _), hm, h4, run_goTo (hne _) _ (ha _ _), hm, h5, run_goTo (hne _) _ (ha _ _), hm, h6,
    run_goTo (hne _) _ (ha _ _), hm, h7, run_goTo (hne _) _ (ha _ _), hm, h8]
  simp only [List.cons_append, List.nil_append, hs]

/-- A whole WRITEBYTE body: its 48 micro-operations, ACKL the environment's answer, then what the command does next (R131). -/
theorem run_writeBody (hne : ∀ k, pos k ≠ .idle)
    (hm : ∀ k s, microStep (goTo (pos k) s) = writeByteStep pos done k (goTo (pos k) s))
    (n : Nat) (v : Byte) {s : State} (h : s.rst = []) :
    run (48 + n) (beginWriteByte pos v s) =
      run n (done (goTo (pos .w10) (setAckl (sdaAnswer s 0) (setBits v 0
        (emitAll (writeByteTrace v (sdaAnswer s 0)) s))))) := by
  have hd : ((msbFirst v).flatMap writeBitTrace).map samplesOf = List.replicate 40 0 := by
    simp only [msbFirst, writeBitTrace, List.flatMap_cons, List.flatMap_nil, List.map_append, List.map_cons]
    repeat' split
    all_goals rfl
  have hz : sdaAnswer (emitAll ((msbFirst v).flatMap writeBitTrace) s) 0 = sdaAnswer s 0 := by
    rw [sdaAnswer_emitAll, hd]; rfl
  rw [show 48 + n = 40 + (8 + n) by omega]
  change run _ (goTo (pos .w2a) (setBits v 7 s)) = _
  rw [run_writeBits hne hm _ v h, run_writeAck hne hm _ v (by simpa using h), hz, ← emitAll_append]
  rfl

end

/-! ### The body of READBYTE -/

section

variable {pos : ReadStep → Seq} {done : State → State}

/-- The accumulator after the samples of `f 0 .. f (n - 1)` (R135 step 3c). -/
def accumulated (f : Nat → Bool) : Nat → Byte
  | 0 => 0
  | n + 1 => shiftIn (accumulated f n) (f n)

/-- Eight samples make the byte, most significant bit first (R136). -/
theorem accumulated_eight (f : Nat → Bool) : accumulated f 8 = assembled f := by
  simp only [accumulated, assembled]
  generalize f 0 = b0; generalize f 1 = b1; generalize f 2 = b2; generalize f 3 = b3
  generalize f 4 = b4; generalize f 5 = b5; generalize f 6 = b6; generalize f 7 = b7
  revert b0 b1 b2 b3 b4 b5 b6 b7
  decide

/-- The bits of SDA's mask that are not SCL's are released. -/
def SdaReleased (s : State) : Prop := (portRegs s s.port).dir &&& s.sda &&& ~~~s.scl = 0

/-- One data bit of READBYTE (R135 step 3): its five micro-operations, and SDA stays released. -/
theorem run_readBit (hne : ∀ k, pos k ≠ .idle)
    (hm : ∀ k s, microStep (goTo (pos k) s) = readByteStep pos done k (goTo (pos k) s))
    (n : Nat) (d : Byte) (c : BitVec 3) {s : State} (h : s.rst = []) (hs : SdaReleased s) :
    run (5 + n) (goTo (pos .r3a) (setBits d c s)) =
        run n (nextReadBit pos (goTo (pos .r3e) (setBits (shiftIn d (sdaAnswer s 0)) c
          (emitAll (readBitTrace (sdaAnswer s 0)) s)))) ∧
      SdaReleased (emitAll (readBitTrace (sdaAnswer s 0)) s) := by
  have hr : ∀ (x : State) us, x.rst = [] → (emitAll us x).rst = [] := fun x us hx => by simpa using hx
  have hb : ∀ e (x : State), x.rst = [] → (setBits e c x).rst = [] := fun _ _ hx => hx
  have hbit : ∀ i < Config.W, ((portRegs s s.port).dir.getLsbD i && s.sda.getLsbD i && !s.scl.getLsbD i) = false := by
    intro i hi
    have := congrArg (fun x => BitVec.getLsbD x i) hs
    simpa [BitVec.getLsbD_and, BitVec.getLsbD_not, hi] using this
  have hsm : sampledBit (emitAll [.waitH, .relScl] s) = sdaAnswer s 0 := by
    rw [sampledBit_released, sdaAnswer_emitAll]
    · rfl
    · rw [portRegs_emitAll]
      simp only [emitAll_port, emitAll_sda, if_true, List.foldl_cons, List.foldl_nil, regsAfter, dirClr]
      apply BitVec.eq_of_getLsbD_eq
      intro i hi
      have := hbit i hi
      simp only [BitVec.getLsbD_and, BitVec.getLsbD_not, hi, decide_true, Bool.true_and]
      revert this
      cases (portRegs s s.port).dir.getLsbD i <;> cases s.sda.getLsbD i <;> cases s.scl.getLsbD i <;> simp
  have h1 : ∀ x, readByteStep pos done .r3a (goTo (pos .r3a) (setBits d c x)) =
      goTo (pos .r3b) (setBits d c (emitAll [.waitH] x)) := fun _ => rfl
  have h2 : ∀ us x, readByteStep pos done .r3b (goTo (pos .r3b) (setBits d c (emitAll us x))) =
      goTo (pos .r3c) (setBits d c (emitAll (us ++ [.relScl]) x)) := fun us x => by rw [emitAll_append]; rfl
  have h3 : ∀ us x, readByteStep pos done .r3c (goTo (pos .r3c) (setBits d c (emitAll us x))) =
      goTo (pos .r3d) (setBits (shiftIn d (sampledBit (emitAll us x))) c
        (emitAll (us ++ [.smpSda (sampledBit (emitAll us x))]) x)) := fun us x => by rw [emitAll_append]; rfl
  have h4 : ∀ us e x, readByteStep pos done .r3d (goTo (pos .r3d) (setBits e c (emitAll us x))) =
      goTo (pos .r3e) (setBits e c (emitAll (us ++ [.waitH]) x)) := fun us e x => by rw [emitAll_append]; rfl
  have h5 : ∀ us e x, readByteStep pos done .r3e (goTo (pos .r3e) (setBits e c (emitAll us x))) =
      nextReadBit pos (goTo (pos .r3e) (setBits e c (emitAll (us ++ [.drvScl]) x))) := fun us e x => by
    rw [emitAll_append]; rfl
  have hc : ∀ e us, (setBits e c (emitAll us s)).rst = [] := fun _ us => hr s us h
  constructor
  · rw [show 5 + n = n + 1 + 1 + 1 + 1 + 1 by omega]
    rw [run_goTo (hne _) _ (hb _ _ h), hm, h1, run_goTo (hne _) _ (hc _ _), hm, h2, run_goTo (hne _) _ (hc _ _), hm, h3,
      run_goTo (hne _) _ (hc _ _), hm, h4, run_goTo (hne _) _ (hc _ _), hm, h5]
    simp only [List.cons_append, List.nil_append, hsm, readBitTrace]
  · unfold SdaReleased
    rw [portRegs_emitAll]
    simp only [readBitTrace, emitAll_port, emitAll_sda, emitAll_scl, if_true, List.foldl_cons, List.foldl_nil, regsAfter,
      dirClr, dirSet]
    apply BitVec.eq_of_getLsbD_eq
    intro i hi
    have := hbit i hi
    simp only [BitVec.getLsbD_and, BitVec.getLsbD_or, BitVec.getLsbD_not, hi, decide_true, Bool.true_and]
    revert this
    cases (portRegs s s.port).dir.getLsbD i <;> cases s.sda.getLsbD i <;> cases s.scl.getLsbD i <;> simp

theorem nextReadBit_more {d : Byte} {c : BitVec 3} (hc : c ≠ 0) (q : Seq) (s : State) :
    nextReadBit pos (goTo q (setBits d c s)) = goTo (pos .r3a) (setBits d (c - 1) s) := if_neg hc

theorem nextReadBit_last {d : Byte} (q : Seq) (s : State) :
    nextReadBit pos (goTo q (setBits d 0 s)) = goTo (pos (if s.nackf then .r5 else .r4)) (setBits d 0 s) := rfl

/-- The micro-operations of the first `j` data bits of a read. -/
def readBitsTrace (f : Nat → Bool) (j : Nat) : List Micro := (List.range j).flatMap fun k => readBitTrace (f k)

theorem readBitsTrace_succ (f : Nat → Bool) (j : Nat) :
    readBitsTrace f (j + 1) = readBitsTrace f j ++ readBitTrace (f j) := by
  simp [readBitsTrace, List.range_succ]

theorem samples_readBitsTrace (f : Nat → Bool) (j : Nat) : ((readBitsTrace f j).map samplesOf).sum = j := by
  induction j with
  | zero => rfl
  | succ j ih => rw [readBitsTrace_succ, List.map_append, List.sum_append, ih]; rfl

/-- The first `j` data bits of READBYTE, `j` at most 7 (R135 step 3). -/
theorem run_readBits (hne : ∀ k, pos k ≠ .idle)
    (hm : ∀ k s, microStep (goTo (pos k) s) = readByteStep pos done k (goTo (pos k) s))
    (n : Nat) {s : State} (h : s.rst = []) (hs : SdaReleased s) (j : Nat) (hj : j ≤ 7) :
    run (5 * j + n) (goTo (pos .r3a) (setBits 0 7 s)) =
        run n (goTo (pos .r3a) (setBits (accumulated (sdaAnswer s) j) (BitVec.ofNat 3 (7 - j))
          (emitAll (readBitsTrace (sdaAnswer s) j) s))) ∧
      SdaReleased (emitAll (readBitsTrace (sdaAnswer s) j) s) := by
  induction j generalizing n with
  | zero => exact ⟨by simp only [Nat.mul_zero, Nat.zero_add]; rfl, hs⟩
  | succ j ih =>
    obtain ⟨hrun, hrel⟩ := ih (5 + n) (by omega)
    have ha : sdaAnswer (emitAll (readBitsTrace (sdaAnswer s) j) s) 0 = sdaAnswer s j := by
      rw [sdaAnswer_emitAll, samples_readBitsTrace]; rfl
    obtain ⟨hbit, hrel'⟩ := run_readBit hne hm n (accumulated (sdaAnswer s) j) (BitVec.ofNat 3 (7 - j))
      (s := emitAll (readBitsTrace (sdaAnswer s) j) s) (by simpa using h) hrel
    rw [ha, ← emitAll_append, ← readBitsTrace_succ] at hbit hrel'
    refine ⟨?_, hrel'⟩
    have hc : BitVec.ofNat 3 (7 - j) ≠ 0 ∧ BitVec.ofNat 3 (7 - j) - 1 = BitVec.ofNat 3 (7 - (j + 1)) := by
      have : j = 0 ∨ j = 1 ∨ j = 2 ∨ j = 3 ∨ j = 4 ∨ j = 5 ∨ j = 6 := by omega
      rcases this with rfl | rfl | rfl | rfl | rfl | rfl | rfl <;> decide
    rw [show 5 * (j + 1) + n = 5 * j + (5 + n) by omega, hrun, hbit, nextReadBit_more hc.1, hc.2, accumulated]

/-- The eight data bits of READBYTE (R135 step 3, R136). -/
theorem run_readAllBits (hne : ∀ k, pos k ≠ .idle)
    (hm : ∀ k s, microStep (goTo (pos k) s) = readByteStep pos done k (goTo (pos k) s))
    (n : Nat) {s : State} (h : s.rst = []) (hs : SdaReleased s) :
    run (40 + n) (goTo (pos .r3a) (setBits 0 7 s)) =
      run n (goTo (pos (if s.nackf then .r5 else .r4)) (setBits (assembled (sdaAnswer s)) 0
        (emitAll (readBitsTrace (sdaAnswer s) 8) s))) := by
  obtain ⟨hrun, hrel⟩ := run_readBits hne hm (5 + n) h hs 7 (by omega)
  have ha : sdaAnswer (emitAll (readBitsTrace (sdaAnswer s) 7) s) 0 = sdaAnswer s 7 := by
    rw [sdaAnswer_emitAll, samples_readBitsTrace]
  obtain ⟨hbit, -⟩ := run_readBit hne hm n (accumulated (sdaAnswer s) 7) (BitVec.ofNat 3 (7 - 7))
    (s := emitAll (readBitsTrace (sdaAnswer s) 7) s) (by simpa using h) hrel
  rw [ha, ← emitAll_append, ← readBitsTrace_succ] at hbit
  rw [show 40 + n = 5 * 7 + (5 + n) by omega, hrun, hbit, ← accumulated_eight]
  have hz : BitVec.ofNat 3 (7 - 7) = 0 := by decide
  rw [hz, nextReadBit_last, emitAll_nackf]
  simp only [accumulated]

theorem msbFirst_assembled (f : Nat → Bool) :
    msbFirst (assembled f) = [f 0, f 1, f 2, f 3, f 4, f 5, f 6, f 7] := by
  simp only [msbFirst, assembled]
  generalize f 0 = b0; generalize f 1 = b1; generalize f 2 = b2; generalize f 3 = b3
  generalize f 4 = b4; generalize f 5 = b5; generalize f 6 = b6; generalize f 7 = b7
  revert b0 b1 b2 b3 b4 b5 b6 b7
  decide

/-- The ninth clock of READBYTE: SDA driven for ACK, left alone for NACK, then released (R135 steps 4 to 9, R138). -/
theorem run_readAnswer (hne : ∀ k, pos k ≠ .idle)
    (hm : ∀ k s, microStep (goTo (pos k) s) = readByteStep pos done k (goTo (pos k) s))
    (n : Nat) (d : Byte) {s : State} (h : s.rst = []) :
    run ((if s.nackf then 5 else 6) + n) (goTo (pos (if s.nackf then .r5 else .r4)) (setBits d 0 s)) =
      run n (done (goTo (pos .r9) (setBits d 0 (emitAll
        ((if s.nackf then [] else [.drvSda]) ++ [.waitH, .relScl, .waitH, .drvScl, .relSda]) s)))) := by
  have hc : ∀ x : State, x.rst = [] → (setBits d 0 x).rst = [] := fun _ hx => hx
  have h0 : ∀ x, readByteStep pos done .r4 (goTo (pos .r4) (setBits d 0 x)) =
      goTo (pos .r5) (setBits d 0 (emit .drvSda x)) := fun _ => rfl
  have h1 : ∀ x, readByteStep pos done .r5 (goTo (pos .r5) (setBits d 0 x)) =
      goTo (pos .r6) (setBits d 0 (emit .waitH x)) := fun _ => rfl
  have h2 : ∀ x, readByteStep pos done .r6 (goTo (pos .r6) (setBits d 0 x)) =
      goTo (pos .r7) (setBits d 0 (emit .relScl x)) := fun _ => rfl
  have h3 : ∀ x, readByteStep pos done .r7 (goTo (pos .r7) (setBits d 0 x)) =
      goTo (pos .r8) (setBits d 0 (emit .waitH x)) := fun _ => rfl
  have h4 : ∀ x, readByteStep pos done .r8 (goTo (pos .r8) (setBits d 0 x)) =
      goTo (pos .r9) (setBits d 0 (emit .drvScl x)) := fun _ => rfl
  have h5 : ∀ x, readByteStep pos done .r9 (goTo (pos .r9) (setBits d 0 x)) =
      done (goTo (pos .r9) (setBits d 0 (emit .relSda x))) := fun _ => rfl
  have tail : ∀ x : State, x.rst = [] → run (5 + n) (goTo (pos .r5) (setBits d 0 x)) =
      run n (done (goTo (pos .r9) (setBits d 0 (emitAll [.waitH, .relScl, .waitH, .drvScl, .relSda] x)))) := by
    intro x hx
    rw [show 5 + n = n + 1 + 1 + 1 + 1 + 1 by omega]
    rw [run_goTo (hne _) _ (hc _ hx), hm, h1, run_goTo (hne _) _ (hc _ (by simpa using hx)), hm, h2,
      run_goTo (hne _) _ (hc _ (by simpa using hx)), hm, h3, run_goTo (hne _) _ (hc _ (by simpa using hx)), hm, h4,
      run_goTo (hne _) _ (hc _ (by simpa using hx)), hm, h5]
    rfl
  cases hk : s.nackf
  · simp only [Bool.false_eq_true, if_false]
    rw [show 6 + n = (5 + n) + 1 by omega, run_goTo (hne _) _ (hc _ h), hm, h0, tail _ (by simpa using h)]
    rfl
  · simp only [if_true, List.nil_append]
    exact tail s h

/-- A whole READBYTE body: its 47 or 46 micro-operations, DATA the byte the environment sends, then what the command does next
(R135). -/
theorem run_readBody (hne : ∀ k, pos k ≠ .idle)
    (hm : ∀ k s, microStep (goTo (pos k) s) = readByteStep pos done k (goTo (pos k) s))
    (n : Nat) (nack : Bool) {s : State} (h : s.rst = []) :
    run ((if nack then 46 else 47) + n) (beginReadByte pos nack s) =
      run n (done (goTo (pos .r9) (setBits (sentByte s 0) 0 (setNackf nack
        (emitAll (readByteTrace nack (sentByte s 0)) s))))) := by
  have hx : (setNackf nack s).rst = [] := h
  have hrel : SdaReleased (emit .relSda (setNackf nack s)) := by
    unfold SdaReleased
    rw [portRegs_emit]
    simp only [emit_port, emit_sda, emit_scl, if_true, regsAfter, dirClr]
    apply BitVec.eq_of_getLsbD_eq
    intro i hi
    simp only [BitVec.getLsbD_and, BitVec.getLsbD_not, hi]
    cases (BitVec.getLsbD (setNackf nack s).sda i) <;> simp
  have ha : sdaAnswer (emit .relSda (setNackf nack s)) = sdaAnswer s := by
    funext k
    exact (sdaAnswer_emitAll [.relSda] (setNackf nack s) k).trans
      (by simp only [List.map_cons, List.map_nil, samplesOf, List.sum_cons, List.sum_nil, Nat.zero_add]; rfl)
  have hsent : assembled (sdaAnswer s) = sentByte s 0 := by simp [sentByte]
  have htr : readByteTrace nack (sentByte s 0) = .relSda :: (readBitsTrace (sdaAnswer s) 8 ++
      ((if nack then [] else [.drvSda]) ++ [.waitH, .relScl, .waitH, .drvScl, .relSda])) := by
    rw [readByteTrace, ← hsent, msbFirst_assembled]; rfl
  have hstep : run ((if nack then 46 else 47) + n) (beginReadByte pos nack s) =
      run (40 + ((if nack then 5 else 6) + n)) (goTo (pos .r3a) (setBits 0 7 (emit .relSda (setNackf nack s)))) := by
    have e : (if nack then 46 else 47) + n = (40 + ((if nack then 5 else 6) + n)) + 1 := by split <;> omega
    rw [e]
    change run _ (goTo (pos .r2) (setBits 0 s.bitcnt (setNackf nack s))) = _
    rw [run_goTo (hne _) _ (by exact h), hm]
    rfl
  have hans := run_readAnswer hne hm n (sentByte s 0)
    (s := emitAll (readBitsTrace (sdaAnswer s) 8) (emit .relSda (setNackf nack s))) (by simpa using hx)
  rw [hstep, run_readAllBits hne hm _ (by simpa using hx) hrel, ha, hsent]
  simp only [emitAll_nackf, emit_nackf, show (setNackf nack s).nackf = nack from rfl] at hans ⊢
  rw [hans, ← emitAll_append, htr]
  simp only [emitAll_cons, emit_setNackf, emitAll_setNackf]

end

/-! ### The end of each command with bytes: the working registers it wrote are forgotten -/

theorem finishWriteByte_eq (q : Seq) (a : Bool) (d : Byte) (c : BitVec 3) (s : State) :
    finishWriteByte (goTo q (setAckl a (setBits d c s))) = returnValue (retAck a) (forgetWrite s) := rfl

theorem finishReadByte_eq (q : Seq) (d : Byte) (c : BitVec 3) (n : Bool) (s : State) :
    finishReadByte (goTo q (setBits d c (setNackf n s))) = returnValue (retByte d) (forgetRead s) := rfl

theorem finishWriteBytes_eq (v : Ret) (q : Seq) (a : Bool) (d : Byte) (c : BitVec 3) (s : State) :
    finishWriteBytes v (goTo q (setAckl a (setBits d c s))) = finishWriteBytes v s := rfl

theorem finishReadBytes_eq (q : Seq) (d : Byte) (c : BitVec 3) (n : Bool) (s : State) :
    finishReadBytes (goTo q (setBits d c (setNackf n s))) = finishReadBytes s := rfl

theorem finishWriteBytes_idx (v : Ret) (n : Len) (s : State) :
    finishWriteBytes v { s with idx := n } = finishWriteBytes v s := rfl

theorem finishReadBytes_idx (n : Len) (s : State) : finishReadBytes { s with idx := n } = finishReadBytes s := rfl

/-! ### The positions of each command -/

theorem microStep_writeByte (k : WriteStep) (s : State) : microStep (goTo (.writeByte k) s) =
    writeByteStep .writeByte finishWriteByte k (goTo (.writeByte k) s) := rfl

theorem microStep_writeBytes (k : WriteStep) (s : State) : microStep (goTo (.writeBytes k) s) =
    writeByteStep .writeBytes nextWriteBytes k (goTo (.writeBytes k) s) := rfl

theorem microStep_readByte (k : ReadStep) (s : State) : microStep (goTo (.readByte k) s) =
    readByteStep .readByte finishReadByte k (goTo (.readByte k) s) := rfl

theorem microStep_readBytes (last : Bool) (k : ReadStep) (s : State) : microStep (goTo (.readBytes last k) s) =
    readByteStep (.readBytes last) (nextReadBytes last) k (goTo (.readBytes last k) s) := rfl

end Sys2Proof.Machine
end

