-- ==== Sys2Proof/Laws/Exec.lean ====
section
/-! SUPPORT. What the five commands without a loop do, said once: with the block ready, a command is its trace performed on the accepted
state, then its return (42_condition_generator.md, 43_byte_transfer.md); and what each trace does to the two registers of the port
(10_state.md rule R29). -/

namespace Sys2Proof.Machine

open Sys2Proof.Safety

/-! ### The commands -/

/-- One engine step that performs `u` and goes on to `r`. -/
theorem run_emit {q r : Seq} {u : Micro} (hq : q ≠ .idle) (hm : ∀ x, microStep (goTo q x) = goTo r (emit u x)) (n : Nat)
    {s : State} (h : s.rst = []) : run (n + 1) (goTo q s) = run n (goTo r (emit u s)) := by
  rw [run_goTo hq n h, hm]

/-- One engine step that performs `u` and returns with no value. -/
theorem run_emit_return {q : Seq} {u : Micro} (hq : q ≠ .idle) (hm : ∀ x, microStep (goTo q x) = returnNone (emit u x))
    {s : State} (h : s.rst = []) : run 1 (goTo q s) = returnNone (emit u s) := by
  rw [run_goTo hq 0 h, hm, run_zero]

theorem run_start {s : State} (h : s.rst = []) : run 6 (goTo (.start .s2) s) = returnNone (emitAll startTrace s) := by
  rw [run_emit (u := .relBoth) (r := .start .s3) (by decide) (fun _ => rfl) 5 h,
    run_emit (u := .clrBoth) (r := .start .s4) (by decide) (fun _ => rfl) 4 (by simpa using h),
    run_emit (u := .waitH) (r := .start .s5) (by decide) (fun _ => rfl) 3 (by simpa using h),
    run_emit (u := .drvSda) (r := .start .s6) (by decide) (fun _ => rfl) 2 (by simpa using h),
    run_emit (u := .waitH) (r := .start .s7) (by decide) (fun _ => rfl) 1 (by simpa using h),
    run_emit_return (u := .drvScl) (by decide) (fun _ => rfl) (by simpa using h)]
  simp only [startTrace, emitAll_cons, emitAll_nil]

theorem run_restart {s : State} (h : s.rst = []) :
    run 8 (goTo (.restart .s1) s) = returnNone (emitAll restartTrace s) := by
  rw [run_emit (u := .relSda) (r := .restart .s2) (by decide) (fun _ => rfl) 7 h,
    run_emit (u := .waitH) (r := .restart .s3) (by decide) (fun _ => rfl) 6 (by simpa using h),
    run_emit (u := .relScl) (r := .restart .s4) (by decide) (fun _ => rfl) 5 (by simpa using h),
    run_emit (u := .waitQ) (r := .restart .s5) (by decide) (fun _ => rfl) 4 (by simpa using h),
    run_emit (u := .drvSda) (r := .restart .s6) (by decide) (fun _ => rfl) 3 (by simpa using h),
    run_emit (u := .waitQ) (r := .restart .s7) (by decide) (fun _ => rfl) 2 (by simpa using h),
    run_emit (u := .drvScl) (r := .restart .s8) (by decide) (fun _ => rfl) 1 (by simpa using h),
    run_emit_return (u := .waitH) (by decide) (fun _ => rfl) (by simpa using h)]
  simp only [restartTrace, emitAll_cons, emitAll_nil]

theorem run_stop {s : State} (h : s.rst = []) : run 6 (goTo (.stop .s1) s) = returnNone (emitAll stopTrace s) := by
  rw [run_emit (u := .drvSda) (r := .stop .s2) (by decide) (fun _ => rfl) 5 h,
    run_emit (u := .waitH) (r := .stop .s3) (by decide) (fun _ => rfl) 4 (by simpa using h),
    run_emit (u := .relScl) (r := .stop .s4) (by decide) (fun _ => rfl) 3 (by simpa using h),
    run_emit (u := .waitQ) (r := .stop .s5) (by decide) (fun _ => rfl) 2 (by simpa using h),
    run_emit (u := .relSda) (r := .stop .s6) (by decide) (fun _ => rfl) 1 (by simpa using h),
    run_emit_return (u := .waitH) (by decide) (fun _ => rfl) (by simpa using h)]
  simp only [stopTrace, emitAll_cons, emitAll_nil]

/-- START on operands that meet the invariant (R111). -/
theorem exec_start {s : State} (hr : Ready s) {p : PortRef} {a b : Mask} (hm : pinMasks a b = true) :
    exec (.start p a b) s = .next (returnNone (emitAll startTrace (bindSession p a b (accept s)))) := by
  have h : (bindSession p a b (accept s)).rst = [] := hr.2
  simp [exec, execStart, hr.1, masksOk, hm, run_start h]

/-- RESTART in a session (R113). -/
theorem exec_restart {s : State} (hr : Ready s) (hb : s.bound = true) :
    exec .restart s = .next (returnNone (emitAll restartTrace (accept s))) := by
  have h : (accept s).rst = [] := hr.2
  simp [exec, execRestart, hr.1, hb, run_restart h]

/-- STOP in a session (R115). -/
theorem exec_stop {s : State} (hr : Ready s) (hb : s.bound = true) :
    exec .stop s = .next (returnNone (emitAll stopTrace (accept s))) := by
  have h : (accept s).rst = [] := hr.2
  simp [exec, execStop, hr.1, hb, run_stop h]

/-- WRITEBYTE in a session (R131). -/
theorem exec_writeByte {s : State} (hr : Ready s) (hb : s.bound = true) (v : Byte) :
    exec (.writeByte v) s =
      .next (returnValue (retAck (sdaAnswer s 0)) (forgetWrite (emitAll (writeByteTrace v (sdaAnswer s 0)) (accept s)))) := by
  simp only [exec, execWriteByte, hr.1, hb, if_true, Bool.false_eq_true, if_false]
  rw [show 48 = 48 + 0 from rfl,
    run_writeBody (done := finishWriteByte) (by simp) microStep_writeByte 0 v (s := accept s) hr.2, run_zero,
    finishWriteByte_eq]
  congr 1

/-- READBYTE in a session (R135). -/
theorem exec_readByte {s : State} (hr : Ready s) (hb : s.bound = true) (n : Bool) :
    exec (.readByte n) s =
      .next (returnValue (retByte (sentByte s 0)) (forgetRead (emitAll (readByteTrace n (sentByte s 0)) (accept s)))) := by
  simp only [exec, execReadByte, hr.1, hb, if_true, Bool.false_eq_true, if_false]
  have e : 47 = (if n then 46 else 47) + (if n then 1 else 0) := by cases n <;> rfl
  rw [e, run_readBody (done := finishReadByte) (by simp) microStep_readByte _ n (s := accept s) hr.2, finishReadByte_eq,
    run_idle _ (by rfl)]
  congr 1

/-! ### The registers after a trace -/

theorem PortRegs.eq_of {w : Nat} {x y : PortRegs w} (h : x.dir = y.dir) (g : x.out = y.out) : x = y := by
  cases x; cases y; simp_all

/-- A micro-operation on one DIR bit, for a pin in the SDA mask or not and in the SCL mask or not (R73). -/
def dirBitAfter (a c : Bool) : Micro → Bool → Bool
  | .drvSda, x   => x || a
  | .relSda, x   => x && !a
  | .drvScl, x   => x || c
  | .relScl, x   => x && !c
  | .relBoth, x  => x && !(a || c)
  | .clrBoth, x  => x
  | .smpSda _, x => x
  | .waitQ, x    => x
  | .waitH, x    => x

section

variable {w : Nat} (sda scl : BitVec w)

theorem dir_foldl (us : List Micro) (r : PortRegs w) (i : Nat) (hi : i < w) :
    (us.foldl (fun r u => regsAfter sda scl u r) r).dir.getLsbD i =
      us.foldl (fun x u => dirBitAfter (sda.getLsbD i) (scl.getLsbD i) u x) (r.dir.getLsbD i) := by
  induction us generalizing r with
  | nil => rfl
  | cons u us ih =>
    rw [List.foldl_cons, List.foldl_cons, ih]
    congr 1
    cases u <;> simp [regsAfter, dirBitAfter, dirSet, dirClr, outClr, hi]

/-- Only CLR_BOTH touches OUT (R96). -/
theorem out_foldl (us : List Micro) (r : PortRegs w) (h : ∀ u ∈ us, u ≠ .clrBoth) :
    (us.foldl (fun r u => regsAfter sda scl u r) r).out = r.out := by
  induction us generalizing r with
  | nil => rfl
  | cons u us ih =>
    rw [List.foldl_cons, ih _ (fun v hv => h v (by simp [hv]))]
    have := h u (by simp)
    cases u <;> simp_all [regsAfter, dirSet, dirClr]

theorem regs_start (r : PortRegs w) :
    startTrace.foldl (fun r u => regsAfter sda scl u r) r =
      { dir := r.dir ||| (sda ||| scl), out := r.out &&& ~~~(sda ||| scl) } := by
  refine PortRegs.eq_of (BitVec.eq_of_getLsbD_eq fun i hi => ?_) rfl
  rw [dir_foldl _ _ _ _ _ hi]
  simp only [startTrace, List.foldl, dirBitAfter, BitVec.getLsbD_or]
  cases r.dir.getLsbD i <;> cases sda.getLsbD i <;> cases scl.getLsbD i <;> rfl

theorem regs_restart (r : PortRegs w) :
    restartTrace.foldl (fun r u => regsAfter sda scl u r) r = { dir := r.dir ||| (sda ||| scl), out := r.out } := by
  refine PortRegs.eq_of (BitVec.eq_of_getLsbD_eq fun i hi => ?_) rfl
  rw [dir_foldl _ _ _ _ _ hi]
  simp only [restartTrace, List.foldl, dirBitAfter, BitVec.getLsbD_or]
  cases r.dir.getLsbD i <;> cases sda.getLsbD i <;> cases scl.getLsbD i <;> rfl

theorem regs_stop (r : PortRegs w) :
    stopTrace.foldl (fun r u => regsAfter sda scl u r) r = { dir := r.dir &&& ~~~(sda ||| scl), out := r.out } := by
  refine PortRegs.eq_of (BitVec.eq_of_getLsbD_eq fun i hi => ?_) rfl
  rw [dir_foldl _ _ _ _ _ hi]
  simp only [stopTrace, List.foldl, dirBitAfter, BitVec.getLsbD_or, BitVec.getLsbD_and, BitVec.getLsbD_not, hi]
  cases r.dir.getLsbD i <;> cases sda.getLsbD i <;> cases scl.getLsbD i <;> rfl

/-- A pin in neither mask is left alone (R20). -/
theorem dirBit_other (us : List Micro) (x : Bool) : us.foldl (fun x u => dirBitAfter false false u x) x = x := by
  induction us generalizing x with
  | nil => rfl
  | cons u us ih => rw [List.foldl_cons, ih]; cases u <;> simp [dirBitAfter]

theorem dirBit_writeByte (v : Byte) (a p q x : Bool) :
    (writeByteTrace v a).foldl (fun x u => dirBitAfter p q u x) x = (x || (p || q)) := by
  by_cases h : p = false ∧ q = false
  · obtain ⟨rfl, rfl⟩ := h
    simp [dirBit_other]
  · rw [writeByteTrace, List.foldl_append]
    generalize List.foldl _ x _ = y
    simp only [List.foldl, dirBitAfter]
    revert h
    cases p <;> cases q <;> simp

theorem dirBit_readByte (n : Bool) (v : Byte) (p q x : Bool) :
    (readByteTrace n v).foldl (fun x u => dirBitAfter p q u x) x = ((x || q) && !p) := by
  by_cases h : p = false ∧ q = false
  · obtain ⟨rfl, rfl⟩ := h
    simp [dirBit_other]
  · rw [readByteTrace, List.foldl_cons, List.foldl_append, List.foldl_append]
    generalize List.foldl _ (List.foldl _ (dirBitAfter p q .relSda x) _) _ = y
    simp only [List.foldl, dirBitAfter]
    revert h
    cases p <;> cases q <;> simp

theorem writeByteTrace_keeps (v : Byte) (a : Bool) : ∀ u ∈ writeByteTrace v a, u ≠ .clrBoth := by
  intro u h e
  subst e
  simp only [writeByteTrace, List.mem_append, List.mem_flatMap, writeBitTrace] at h
  obtain ⟨b, -, h⟩ | h := h
  · cases b <;> simp at h
  · simp at h

theorem readByteTrace_keeps (n : Bool) (v : Byte) : ∀ u ∈ readByteTrace n v, u ≠ .clrBoth := by
  intro u h e
  subst e
  simp only [readByteTrace, List.mem_cons, List.mem_append, List.mem_flatMap, readBitTrace] at h
  obtain h | ⟨b, -, h⟩ | h := h
  · simp at h
  · simp at h
  · cases n <;> simp at h

theorem regs_writeByte (v : Byte) (a : Bool) (r : PortRegs w) :
    (writeByteTrace v a).foldl (fun r u => regsAfter sda scl u r) r =
      { dir := r.dir ||| (sda ||| scl), out := r.out } := by
  refine PortRegs.eq_of (BitVec.eq_of_getLsbD_eq fun i hi => ?_) (out_foldl _ _ _ _ (writeByteTrace_keeps v a))
  rw [dir_foldl _ _ _ _ _ hi, dirBit_writeByte]
  simp

theorem regs_readByte (n : Bool) (v : Byte) (r : PortRegs w) :
    (readByteTrace n v).foldl (fun r u => regsAfter sda scl u r) r =
      { dir := (r.dir ||| scl) &&& ~~~sda, out := r.out } := by
  refine PortRegs.eq_of (BitVec.eq_of_getLsbD_eq fun i hi => ?_) (out_foldl _ _ _ _ (readByteTrace_keeps n v))
  rw [dir_foldl _ _ _ _ _ hi, dirBit_readByte]
  simp [hi]

end

/-! ### The counts of a byte's trace -/

theorem writeBitTrace_counts (b : Bool) : (writeBitTrace b).length = 5 ∧ duration (writeBitTrace b) = 3 ∧
    ((writeBitTrace b).map samplesOf).sum = 0 := by cases b <;> decide

theorem writeByteTrace_counts (v : Byte) (a : Bool) : (writeByteTrace v a).length = 48 ∧
    duration (writeByteTrace v a) = 30 ∧ ((writeByteTrace v a).map samplesOf).sum = 1 := by
  have h := fun b => (writeBitTrace_counts b).2.1
  simp only [duration] at h
  simp [writeByteTrace, msbFirst, duration, (writeBitTrace_counts _).1, h, (writeBitTrace_counts _).2.2, quarterBits,
    samplesOf]

theorem readByteTrace_counts (n : Bool) (v : Byte) : (readByteTrace n v).length = (if n then 46 else 47) ∧
    duration (readByteTrace n v) = 36 ∧ ((readByteTrace n v).map samplesOf).sum = 8 := by
  cases n <;> simp [readByteTrace, msbFirst, readBitTrace, duration, quarterBits, samplesOf]

/-- The cycles of a trace are its quarter-bits times QDEL_CYCLES (R230). -/
theorem cycles_eq_duration (us : List Micro) : (us.map cyclesOf).sum = duration us * Config.QDEL_CYCLES := by
  induction us with
  | nil => simp [duration]
  | cons u us ih =>
    rw [List.map_cons, List.sum_cons, ih]
    simp only [duration, List.map_cons, List.sum_cons, Nat.add_mul]
    cases u <;> simp [cyclesOf, quarterBits]

end Sys2Proof.Machine
end

