-- ==== Sys2Proof/Laws/Micro.lean ====
section
/-! SUPPORT. What one micro-step of the engine can do, said once: exactly one micro-operation with its effect, and nothing else but
the block's control registers and, after the body of a byte of READBYTES, one byte of buffer memory. Then the same for a run. -/

namespace Sys2Proof.Machine

open Sys2Proof.Safety

/-- Two states with the same session, pins, trace, inputs and delay: they differ in control registers and buffer memory at
most. -/
structure SameBus (s t : State) : Prop where
  port    : t.port = s.port
  sda     : t.sda = s.sda
  scl     : t.scl = s.scl
  bound   : t.bound = s.bound
  trace   : t.trace = s.trace
  gpio    : t.gpio = s.gpio
  host    : t.host = s.host
  rst     : t.rst = s.rst
  extLow  : t.extLow = s.extLow
  samples : t.samples = s.samples
  delay   : t.delay = s.delay
  cycles  : t.cycles = s.cycles

theorem SameBus.refl (s : State) : SameBus s s := ⟨rfl, rfl, rfl, rfl, rfl, rfl, rfl, rfl, rfl, rfl, rfl, rfl⟩

theorem SameBus.trans {s t u : State} (a : SameBus s t) (b : SameBus t u) : SameBus s u :=
  ⟨b.port.trans a.port, b.sda.trans a.sda, b.scl.trans a.scl, b.bound.trans a.bound, b.trace.trans a.trace,
    b.gpio.trans a.gpio, b.host.trans a.host, b.rst.trans a.rst, b.extLow.trans a.extLow,
    b.samples.trans a.samples, b.delay.trans a.delay, b.cycles.trans a.cycles⟩

/-- The fields `SameBus` compares. -/
def busOf (s : State) :=
  (s.port, s.sda, s.scl, s.bound, s.trace, s.gpio, s.host, s.rst, s.extLow, s.samples, s.delay, s.cycles)

theorem sameBus_of {s t : State} (h : busOf t = busOf s) : SameBus s t := by
  simp only [busOf, Prod.mk.injEq] at h
  obtain ⟨a, b, c, d, e, f, g, i, j, k, l, m⟩ := h
  exact ⟨a, b, c, d, e, f, g, i, j, k, l, m⟩

theorem sameBus_nextWriteBit (pos : WriteStep → Seq) (s : State) : SameBus s (nextWriteBit pos s) := by
  unfold nextWriteBit; split <;> exact sameBus_of rfl

theorem sameBus_nextReadBit (pos : ReadStep → Seq) (s : State) : SameBus s (nextReadBit pos s) := by
  unfold nextReadBit; split <;> exact sameBus_of rfl

theorem sameBus_nextWriteBytes (s : State) : SameBus s (nextWriteBytes s) := by
  unfold nextWriteBytes; split
  · exact sameBus_of rfl
  · split <;> exact sameBus_of rfl

theorem sameBus_beginIndexedRead (s : State) : SameBus s (beginIndexedRead s) := by
  unfold beginIndexedRead; split <;> exact sameBus_of rfl

theorem sameBus_storeIndexed (s : State) : SameBus s (storeIndexed s) := sameBus_of rfl

theorem sameBus_finishReadBytes (s : State) : SameBus s (finishReadBytes s) := sameBus_of rfl

theorem sameBus_nextIndex (s : State) : SameBus s { s with idx := s.idx + 1 } := sameBus_of rfl

theorem sameBus_nextReadBytes (last : Bool) (s : State) : SameBus s (nextReadBytes last s) := by
  cases last
  · exact ((sameBus_storeIndexed s).trans (sameBus_nextIndex (storeIndexed s))).trans (sameBus_beginIndexedRead _)
  · exact (sameBus_storeIndexed s).trans (sameBus_finishReadBytes _)

theorem writeByteStep_emits (pos : WriteStep → Seq) (done : State → State) (hd : ∀ x, SameBus x (done x))
    (k : WriteStep) (s : State) :
    ∃ u, SameBus (emit u s) (writeByteStep pos done k s) ∧ (∀ b, u = .smpSda b → b = sampledBit s) ∧
      u ≠ .relBoth ∧ u ≠ .clrBoth := by
  cases k with
  | w2a => exact ⟨if dataBit s.data s.bitcnt then .relSda else .drvSda, sameBus_of rfl, by split <;> simp,
      by split <;> simp, by split <;> simp⟩
  | w2b => exact ⟨.waitQ, sameBus_of rfl, by simp, by simp, by simp⟩
  | w2c => exact ⟨.relScl, sameBus_of rfl, by simp, by simp, by simp⟩
  | w2d => exact ⟨.waitH, sameBus_of rfl, by simp, by simp, by simp⟩
  | w2e => exact ⟨.drvScl, sameBus_nextWriteBit _ _, by simp, by simp, by simp⟩
  | w3 => exact ⟨.relSda, sameBus_of rfl, by simp, by simp, by simp⟩
  | w4 => exact ⟨.waitH, sameBus_of rfl, by simp, by simp, by simp⟩
  | w5 => exact ⟨.relScl, sameBus_of rfl, by simp, by simp, by simp⟩
  | w6 => exact ⟨.smpSda (sampledBit s), sameBus_of rfl, by simp, by simp, by simp⟩
  | w7 => exact ⟨.waitH, sameBus_of rfl, by simp, by simp, by simp⟩
  | w8 => exact ⟨.drvScl, sameBus_of rfl, by simp, by simp, by simp⟩
  | w9 => exact ⟨.drvSda, sameBus_of rfl, by simp, by simp, by simp⟩
  | w10 => exact ⟨.waitH, hd _, by simp, by simp, by simp⟩

theorem readByteStep_emits (pos : ReadStep → Seq) (done : State → State) (hd : ∀ x, SameBus x (done x))
    (k : ReadStep) (s : State) :
    ∃ u, SameBus (emit u s) (readByteStep pos done k s) ∧ (∀ b, u = .smpSda b → b = sampledBit s) ∧
      u ≠ .relBoth ∧ u ≠ .clrBoth := by
  cases k with
  | r2 => exact ⟨.relSda, sameBus_of rfl, by simp, by simp, by simp⟩
  | r3a => exact ⟨.waitH, sameBus_of rfl, by simp, by simp, by simp⟩
  | r3b => exact ⟨.relScl, sameBus_of rfl, by simp, by simp, by simp⟩
  | r3c => exact ⟨.smpSda (sampledBit s), sameBus_of rfl, by simp, by simp, by simp⟩
  | r3d => exact ⟨.waitH, sameBus_of rfl, by simp, by simp, by simp⟩
  | r3e => exact ⟨.drvScl, sameBus_nextReadBit _ _, by simp, by simp, by simp⟩
  | r4 => exact ⟨.drvSda, sameBus_of rfl, by simp, by simp, by simp⟩
  | r5 => exact ⟨.waitH, sameBus_of rfl, by simp, by simp, by simp⟩
  | r6 => exact ⟨.relScl, sameBus_of rfl, by simp, by simp, by simp⟩
  | r7 => exact ⟨.waitH, sameBus_of rfl, by simp, by simp, by simp⟩
  | r8 => exact ⟨.drvScl, sameBus_of rfl, by simp, by simp, by simp⟩
  | r9 => exact ⟨.relSda, hd _, by simp, by simp, by simp⟩

/-- A micro-step performs exactly one micro-operation; a sample carries the bit sampled; REL_BOTH and CLR_BOTH are START's
(R19, R32, R95, R96). -/
theorem microStep_emits {s : State} (h : s.seq ≠ .idle) :
    ∃ u, SameBus (emit u s) (microStep s) ∧ (∀ b, u = .smpSda b → b = sampledBit s) ∧
      ((u = .relBoth ∨ u = .clrBoth) → ∃ k, s.seq = .start k) := by
  unfold microStep
  split
  · next e => exact absurd e h
  · next k e =>
    cases k
    · exact ⟨.relBoth, sameBus_of rfl, by simp, fun _ => ⟨_, e⟩⟩
    · exact ⟨.clrBoth, sameBus_of rfl, by simp, fun _ => ⟨_, e⟩⟩
    · exact ⟨.waitH, sameBus_of rfl, by simp, fun _ => ⟨_, e⟩⟩
    · exact ⟨.drvSda, sameBus_of rfl, by simp, fun _ => ⟨_, e⟩⟩
    · exact ⟨.waitH, sameBus_of rfl, by simp, fun _ => ⟨_, e⟩⟩
    · exact ⟨.drvScl, sameBus_of rfl, by simp, fun _ => ⟨_, e⟩⟩
  · next k e =>
    cases k
    · exact ⟨.relSda, sameBus_of rfl, by simp, by simp⟩
    · exact ⟨.waitH, sameBus_of rfl, by simp, by simp⟩
    · exact ⟨.relScl, sameBus_of rfl, by simp, by simp⟩
    · exact ⟨.waitQ, sameBus_of rfl, by simp, by simp⟩
    · exact ⟨.drvSda, sameBus_of rfl, by simp, by simp⟩
    · exact ⟨.waitQ, sameBus_of rfl, by simp, by simp⟩
    · exact ⟨.drvScl, sameBus_of rfl, by simp, by simp⟩
    · exact ⟨.waitH, sameBus_of rfl, by simp, by simp⟩
  · next k e =>
    cases k
    · exact ⟨.drvSda, sameBus_of rfl, by simp, by simp⟩
    · exact ⟨.waitH, sameBus_of rfl, by simp, by simp⟩
    · exact ⟨.relScl, sameBus_of rfl, by simp, by simp⟩
    · exact ⟨.waitQ, sameBus_of rfl, by simp, by simp⟩
    · exact ⟨.relSda, sameBus_of rfl, by simp, by simp⟩
    · exact ⟨.waitH, sameBus_of rfl, by simp, by simp⟩
  · obtain ⟨u, a, b, c, d⟩ := writeByteStep_emits .writeByte finishWriteByte (fun _ => sameBus_of rfl) _ s
    exact ⟨u, a, b, fun e => absurd e (by simp [c, d])⟩
  · obtain ⟨u, a, b, c, d⟩ := readByteStep_emits .readByte finishReadByte (fun _ => sameBus_of rfl) _ s
    exact ⟨u, a, b, fun e => absurd e (by simp [c, d])⟩
  · obtain ⟨u, a, b, c, d⟩ := writeByteStep_emits .writeBytes nextWriteBytes sameBus_nextWriteBytes _ s
    exact ⟨u, a, b, fun e => absurd e (by simp [c, d])⟩
  · obtain ⟨u, a, b, c, d⟩ := readByteStep_emits (.readBytes _) (nextReadBytes _) (sameBus_nextReadBytes _) _ s
    exact ⟨u, a, b, fun e => absurd e (by simp [c, d])⟩

end Sys2Proof.Machine
end

