-- ==== Sys2Proof/Laws/PerInstr.lean ====
section
/-! SUPPORT. One lemma per command of the family `EncodingSelects`: the word a command is encoded as selects, in the opcode map of
30_encoding.md rule R68, the row of that command and no other. -/

namespace Sys2Proof.Laws.EncodingSelects

/-- The rows the command's word selects carry the command's mnemonic, and there is one (R68). -/
def Statement (i : Instr) : Prop :=
  (opcodeMap.filter (rowSelects (encodeWord i))).map OpcodeRow.mnemonic = [mnemonicOf i]

theorem start (port : PortRef) (sda scl : Mask) : Statement (.start port sda scl) := by
  change (opcodeMap.filter (rowSelects (commandWord 0b000#3 0))).map OpcodeRow.mnemonic = ["START"]
  decide

theorem restart : Statement .restart := by unfold Statement; decide

theorem stop : Statement .stop := by unfold Statement; decide

theorem writeByte (value : Byte) : Statement (.writeByte value) := by
  unfold Statement
  revert value
  decide +kernel

theorem readByte (nack : Bool) : Statement (.readByte nack) := by
  unfold Statement
  revert nack
  decide

theorem writeBytes (buf : Addr) (len : Len) : Statement (.writeBytes buf len) := by
  change (opcodeMap.filter (rowSelects (commandWord 0b101#3 0))).map OpcodeRow.mnemonic = ["WRITEBYTES"]
  decide

theorem readBytes (buf : Addr) (len : Len) : Statement (.readBytes buf len) := by
  change (opcodeMap.filter (rowSelects (commandWord 0b110#3 0))).map OpcodeRow.mnemonic = ["READBYTES"]
  decide

end Sys2Proof.Laws.EncodingSelects
end

