-- ==== Sys2Proof/Laws/Transfer.lean ====
section
/-! SUPPORT. The loops of WRITEBYTES and READBYTES, said once (44_transaction_sequencer.md rules R151, R154): the state after a number
of acknowledged bytes, and after a number of bytes received. -/

namespace Sys2Proof.Machine

open Sys2Proof.Safety

/-! ### Indexes -/

/-- IDX set. -/
def setIdx (n : Len) (s : State) : State := { s with idx := n }

theorem emit_setIdx (u : Micro) (n : Len) (s : State) : emit u (setIdx n s) = setIdx n (emit u s) := by cases u <;> rfl

theorem emitAll_setIdx (us : List Micro) (n : Len) (s : State) :
    emitAll us (setIdx n s) = setIdx n (emitAll us s) := by
  induction us generalizing s with
  | nil => rfl
  | cons u us ih => simp only [emitAll_cons, emit_setIdx, ih]

/-- An index below a length is the number it is made from (R157). -/
theorem toNat_index {m : Nat} {n : Len} (h : m ≤ n.toNat) : (BitVec.ofNat Config.LEN_BITS m).toNat = m :=
  BitVec.toNat_ofNat m _ ▸ Nat.mod_eq_of_lt (Nat.lt_of_le_of_lt h n.isLt)

/-- The loop test of WRITEBYTES on the next index (R157). -/
theorem next_index_lt {m : Nat} {n : Len} (h : m < n.toNat) :
    (BitVec.ofNat Config.LEN_BITS m + 1 < n) ↔ m + 1 < n.toNat := by
  rw [show BitVec.ofNat Config.LEN_BITS m + 1 = BitVec.ofNat Config.LEN_BITS (m + 1) from (BitVec.ofNat_add _ _).symm,
    BitVec.lt_def, toNat_index (n := n) h]

/-- The loop test of READBYTES: `LENR - 1` does not wrap (R157). -/
theorem index_lt_last {m : Nat} {n : Len} (h : m < n.toNat) :
    (BitVec.ofNat Config.LEN_BITS m < n - 1) ↔ m + 1 < n.toNat := by
  have h1 : (1 : Len).toNat = 1 := by
    rw [BitVec.ofNat_eq_ofNat, BitVec.toNat_ofNat]
    exact Nat.mod_eq_of_lt (Nat.one_lt_two_pow (by have := Config.one_le_LEN_BITS; omega))
  have h2 : (n - 1).toNat = n.toNat - 1 := by
    rw [BitVec.toNat_sub_of_le (by rw [BitVec.le_def, h1]; omega), h1]
  rw [BitVec.lt_def, toNat_index (n := n) (by omega), h2]
  omega

/-! ### Where a buffer lies -/

theorem bufferInMemory_iff {buf : Addr} {len : Len} :
    bufferInMemory buf len = true ↔ ∀ j, j < len.toNat → addrKind (buf.plus j) = .memory := by
  simp [bufferInMemory, isMemory]

theorem bufferOnPort_iff {p : PortRef} {buf : Addr} {len : Len} :
    bufferOnPort p buf len = true ↔ ∃ j, j < len.toNat ∧ addrKind (buf.plus j) = .port p := by
  simp [bufferOnPort]

/-- A buffer in memory is on no port (R55). -/
theorem bufferOnPort_of_inMemory (p : PortRef) {buf : Addr} {len : Len} (h : bufferInMemory buf len = true) :
    bufferOnPort p buf len = false := by
  rw [Bool.eq_false_iff, ne_eq, bufferOnPort_iff]
  rintro ⟨j, hj, e⟩
  simp [bufferInMemory_iff.1 h j hj] at e

/-- READBYTES in a session, into a buffer in memory (R154). -/
theorem exec_readBytes {s : State} (hr : s.busy = false) (hb : s.bound = true) {buf : Addr} {len : Len} (hn : buf ≠ nullAddr)
    (hl : len ≠ 0) (hm : bufferInMemory buf len = true) : exec (.readBytes buf len) s =
      .next (run (47 * len.toNat) (beginIndexedRead { captureBuffer buf len (accept s) with idx := 0 })) := by
  simp [exec, execReadBytes, hr, hb, isNull, hn, show ¬len = 0#Config.LEN_BITS from hl, hm, bufferOnPort_of_inMemory s.port hm]

/-! ### WRITEBYTES -/

theorem ackedTrace_succ (f : Nat → Byte) (n : Nat) :
    ackedTrace f (n + 1) = ackedTrace f n ++ writeByteTrace (f n) false := by
  simp [ackedTrace, List.range_succ]

theorem cycles_ackedTrace (f : Nat → Byte) (n : Nat) :
    ((ackedTrace f n).map cyclesOf).sum = 30 * n * Config.QDEL_CYCLES := by
  induction n with
  | zero => simp [ackedTrace]
  | succ n ih =>
    rw [ackedTrace_succ, List.map_append, List.sum_append, ih, cycles_eq_duration, (writeByteTrace_counts _ _).2.1, ← Nat.add_mul]
    rfl

theorem samples_ackedTrace (f : Nat → Byte) (n : Nat) : ((ackedTrace f n).map samplesOf).sum = n := by
  induction n with
  | zero => rfl
  | succ n ih => rw [ackedTrace_succ, List.map_append, List.sum_append, ih, (writeByteTrace_counts _ _).2.2]

section

variable (q : Seq) (d : Byte) (c : BitVec 3) (s : State)

theorem nextWriteBytes_more (h : s.idx + 1 < s.lenr) :
    nextWriteBytes (goTo q (setAckl false (setBits d c s))) =
      beginIndexedWrite (setAckl false (setIdx (s.idx + 1) s)) := by
  have h' : (goTo q (setAckl false (setBits d c s))).idx + 1 < (goTo q (setAckl false (setBits d c s))).lenr := h
  unfold nextWriteBytes
  rw [if_neg (by simp [setAckl]), if_pos h']
  rfl

theorem nextWriteBytes_last (h : ¬ s.idx + 1 < s.lenr) :
    nextWriteBytes (goTo q (setAckl false (setBits d c s))) = finishWriteBytes (retCount s.lenr) s := by
  have h' : ¬ (goTo q (setAckl false (setBits d c s))).idx + 1 < (goTo q (setAckl false (setBits d c s))).lenr := h
  unfold nextWriteBytes
  rw [if_neg (by simp [setAckl]), if_neg h', finishWriteBytes_eq]
  rfl

theorem nextWriteBytes_nack :
    nextWriteBytes (goTo q (setAckl true (setBits d c s))) = finishWriteBytes (retCount s.idx) s := by
  unfold nextWriteBytes
  rw [if_pos (by simp [setAckl]), finishWriteBytes_eq]
  rfl

end

/-- One byte of WRITEBYTES (R151 steps 4b and 4c). -/
theorem run_indexedWrite {s : State} (h : s.rst = []) (n : Nat) :
    run (48 + n) (beginIndexedWrite s) =
      run n (nextWriteBytes (goTo (.writeBytes .w10) (setAckl (sdaAnswer s 0) (setBits (loadIndexed s) 0
        (emitAll (writeByteTrace (loadIndexed s) (sdaAnswer s 0)) s))))) :=
  run_writeBody (done := nextWriteBytes) (by simp) microStep_writeBytes n (loadIndexed s) h

/-- After `m` acknowledged bytes WRITEBYTES stands at the head of byte `m` (R151). -/
theorem run_acked (m n : Nat) {s : State} (h : s.rst = []) (h0 : s.idx = 0) (hl : m < s.lenr.toNat)
    (ha : ∀ j < m, sdaAnswer s j = false) :
    ∃ a, run (48 * m + n) (beginIndexedWrite s) = run n (beginIndexedWrite (setAckl a (setIdx (BitVec.ofNat _ m)
      (emitAll (ackedTrace (sourceByte s s.bufr) m) s)))) := by
  induction m generalizing n with
  | zero => exact ⟨s.ackl, by rw [Nat.mul_zero, Nat.zero_add, show BitVec.ofNat _ 0 = s.idx from h0.symm]; rfl⟩
  | succ m ih =>
    obtain ⟨a, ih⟩ := ih (48 + n) (by omega) (fun j hj => ha j (by omega))
    rw [show 48 * (m + 1) + n = 48 * m + (48 + n) by omega, ih, run_indexedWrite (by simpa [setAckl, setIdx] using h)]
    generalize hS : emitAll (ackedTrace (sourceByte s s.bufr) m) s = S
    have hans : sdaAnswer (setAckl a (setIdx (BitVec.ofNat _ m) S)) 0 = false := by
      have : sdaAnswer S 0 = false := by rw [← hS, sdaAnswer_emitAll, samples_ackedTrace]; exact ha m (by omega)
      exact this
    have hb : S.bufr = s.bufr := by rw [← hS]; simp
    have hmem : S.mem = s.mem := by rw [← hS]; simp
    have hlenr : S.lenr = s.lenr := by rw [← hS]; simp
    have hcyc : S.cycles = s.cycles + 30 * m * Config.QDEL_CYCLES := by rw [← hS, emitAll_cycles, cycles_ackedTrace]
    have hld : loadIndexed (setAckl a (setIdx (BitVec.ofNat _ m) S)) = sourceByte s s.bufr m := by
      change loadByte (setAckl a (setIdx _ S)) (S.bufr.plus (BitVec.ofNat Config.LEN_BITS m).toNat) = _
      rw [hb, toNat_index (n := s.lenr) (by omega)]
      exact loadByte_congr (s := { s with cycles := s.cycles + 30 * m * Config.QDEL_CYCLES }) hmem hcyc _
    rw [hans, hld, emitAll_setAckl, emitAll_setIdx, nextWriteBytes_more]
    · refine ⟨false, congrArg (fun x => run n (beginIndexedWrite x)) ?_⟩
      simp only [setAckl, setIdx]
      rw [ackedTrace_succ, emitAll_append, hS]
      simp only [BitVec.ofNat_add]
      rfl
    · simp only [setAckl, setIdx, emitAll_lenr, hlenr]
      exact (next_index_lt (by omega)).2 hl

/-! ### READBYTES -/

/-- The state of READBYTES with the first `m` bytes received and stored. -/
def stored (f : Nat → Byte) (m : Nat) (s : State) : State :=
  (List.range m).foldl (fun s j => memWrite (s.bufr.plus j) (f j) s) s

theorem stored_succ (f : Nat → Byte) (m : Nat) (s : State) :
    stored f (m + 1) s = memWrite ((stored f m s).bufr.plus m) (f m) (stored f m s) := by
  simp [stored, List.range_succ]

@[simp] theorem stored_bufr (f : Nat → Byte) (m : Nat) (s : State) : (stored f m s).bufr = s.bufr := by
  induction m with
  | zero => rfl
  | succ m ih => rw [stored_succ]; exact ih

/-- A byte at none of the addresses stored to is left alone (R159). -/
theorem memRead_stored_other (f : Nat → Byte) (m : Nat) (s : State) {a : Addr} (h : ∀ j < m, a ≠ s.bufr.plus j) :
    memRead (stored f m s) a = memRead s a := by
  induction m with
  | zero => rfl
  | succ m ih =>
    rw [stored_succ, memRead_memWrite, stored_bufr, if_neg (h m (Nat.lt_succ_self m)), ih fun j hj => h j (by omega)]

/-- A byte stored to holds what the last index at its address stored (R154, R159). -/
theorem memRead_stored (f : Nat → Byte) (m : Nat) (s : State) {j : Nat} (hj : j < m)
    (h : ∀ i, j < i → i < m → s.bufr.plus i ≠ s.bufr.plus j) : memRead (stored f m s) (s.bufr.plus j) = f j := by
  induction m with
  | zero => omega
  | succ m ih =>
    rw [stored_succ, memRead_memWrite, stored_bufr]
    by_cases hm : j = m
    · rw [hm, if_pos rfl]
    · rw [if_neg fun e => h m (by omega) (by omega) e.symm]
      exact ih (by omega) fun i h1 h2 => h i h1 (by omega)

theorem emit_memWrite (u : Micro) (a : Addr) (v : Byte) (s : State) :
    emit u (memWrite a v s) = memWrite a v (emit u s) := by cases u <;> rfl

theorem emitAll_memWrite (us : List Micro) (a : Addr) (v : Byte) (s : State) :
    emitAll us (memWrite a v s) = memWrite a v (emitAll us s) := by
  induction us generalizing s with
  | nil => rfl
  | cons u us ih => simp only [emitAll_cons, emit_memWrite, ih]

theorem emitAll_stored (us : List Micro) (f : Nat → Byte) (m : Nat) (s : State) :
    emitAll us (stored f m s) = stored f m (emitAll us s) := by
  induction m with
  | zero => rfl
  | succ m ih => rw [stored_succ, stored_succ, emitAll_memWrite, ih, stored_bufr, stored_bufr, emitAll_bufr]

theorem stored_spec (f : Nat → Byte) (m : Nat) (s : State) : stored f m s = { s with mem := (stored f m s).mem } := by
  induction m with
  | zero => rfl
  | succ m ih => rw [stored_succ, ih]; rfl

@[simp] theorem stored_lenr (f : Nat → Byte) (m : Nat) (s : State) : (stored f m s).lenr = s.lenr := by rw [stored_spec]

@[simp] theorem stored_rst (f : Nat → Byte) (m : Nat) (s : State) : (stored f m s).rst = s.rst := by rw [stored_spec]

/-- Stores leave the environment's coming answers alone. -/
theorem sentByte_stored (f : Nat → Byte) (m j : Nat) (s : State) : sentByte (stored f m s) j = sentByte s j := by
  rw [stored_spec]; rfl

/-- The trace of `m` bytes received and acknowledged (R154, R155). -/
def receivedTrace (f : Nat → Byte) (m : Nat) : List Micro := (List.range m).flatMap fun j => readByteTrace false (f j)

theorem receivedTrace_succ (f : Nat → Byte) (m : Nat) :
    receivedTrace f (m + 1) = receivedTrace f m ++ readByteTrace false (f m) := by
  simp [receivedTrace, List.range_succ]

theorem samples_receivedTrace (f : Nat → Byte) (m : Nat) : ((receivedTrace f m).map samplesOf).sum = 8 * m := by
  induction m with
  | zero => rfl
  | succ m ih => rw [receivedTrace_succ, List.map_append, List.sum_append, ih, (readByteTrace_counts _ _).2.2]; omega

/-- ACK after every byte but the last (R155). -/
theorem readTrace_succ (f : Nat → Byte) (m : Nat) :
    readTrace f (m + 1) = receivedTrace f m ++ readByteTrace true (f m) := by
  unfold readTrace receivedTrace
  rw [List.range_succ, List.flatMap_append]
  congr 1
  · apply List.flatMap_congr
    intro j hj
    rw [decide_eq_false (by have := List.mem_range.1 hj; omega)]
  · simp

theorem sentByte_emitAll (us : List Micro) (s : State) (m j : Nat) (h : (us.map samplesOf).sum = 8 * m) :
    sentByte (emitAll us s) j = sentByte s (m + j) := by
  unfold sentByte
  congr 1
  funext k
  rw [sdaAnswer_emitAll, h]
  congr 1
  omega

theorem beginIndexedRead_ack {s : State} (h : s.idx < s.lenr - 1) :
    beginIndexedRead s = beginReadByte (.readBytes false) false s := if_pos h

theorem beginIndexedRead_nack {s : State} (h : ¬ s.idx < s.lenr - 1) :
    beginIndexedRead s = beginReadByte (.readBytes true) true s := if_neg h

/-- The body of the next byte sets SEQ itself. -/
theorem beginIndexedRead_goTo (q : Seq) (s : State) : beginIndexedRead (goTo q s) = beginIndexedRead s := by
  by_cases h : s.idx < s.lenr - 1
  · rw [beginIndexedRead_ack h, beginIndexedRead_ack (s := goTo q s) h]; rfl
  · rw [beginIndexedRead_nack h, beginIndexedRead_nack (s := goTo q s) h]; rfl

/-- A byte of READBYTES that is acknowledged (R154 step 6a). -/
theorem run_readAck {s : State} (h : s.rst = []) (n : Nat) :
    run (47 + n) (beginReadByte (.readBytes false) false s) =
      run n (nextReadBytes false (goTo (.readBytes false .r9) (setBits (sentByte s 0) 0 (setNackf false
        (emitAll (readByteTrace false (sentByte s 0)) s))))) :=
  run_readBody (done := nextReadBytes false) (by simp) (microStep_readBytes false) n false h

/-- The last byte of READBYTES (R154 step 7). -/
theorem run_readLast {s : State} (h : s.rst = []) (n : Nat) :
    run (46 + n) (beginReadByte (.readBytes true) true s) =
      run n (nextReadBytes true (goTo (.readBytes true .r9) (setBits (sentByte s 0) 0 (setNackf true
        (emitAll (readByteTrace true (sentByte s 0)) s))))) :=
  run_readBody (done := nextReadBytes true) (by simp) (microStep_readBytes true) n true h

/-- READBYTES after a byte that is not the last: it is stored and the next one begins (R154 steps 6b and 6c). -/
theorem nextReadBytes_more (q : Seq) (d e : Byte) (b c : BitVec 3) (x y : Bool) (i : Len) (s : State) :
    nextReadBytes false (goTo q (setBits d b (setNackf x (setBits e c (setNackf y (setIdx i s)))))) =
      beginIndexedRead (setBits d b (setNackf x (setIdx (i + 1) (memWrite (s.bufr.plus i.toNat) d s)))) := by
  rw [← beginIndexedRead_goTo q]
  simp only [nextReadBytes, Bool.false_eq_true, if_false, storeIndexed, effectiveAddr, goTo, setBits, setNackf, setIdx,
    memWrite]

/-- READBYTES after its last byte: it is stored and the command returns (R154 steps 8 and 9). -/
theorem nextReadBytes_last (q : Seq) (d : Byte) (b : BitVec 3) (x : Bool) (s : State) :
    nextReadBytes true (goTo q (setBits d b (setNackf x s))) =
      finishReadBytes (memWrite (s.bufr.plus s.idx.toNat) d s) := by
  simp only [nextReadBytes, if_true, finishReadBytes, storeIndexed, effectiveAddr, goTo, setBits, setNackf, memWrite,
    returnValue, forgetIndex, forgetOperands, forgetRead]

/-- The state of READBYTES at the head of byte `m`, but for DATA, BITCNT and NACKF (R154). -/
def received (m : Nat) (s : State) : State :=
  setIdx (BitVec.ofNat _ m) (stored (sentByte s) m (emitAll (receivedTrace (sentByte s) m) s))

/-- After `m` bytes, none of them the last, READBYTES stands at the head of byte `m` (R154, R155). -/
theorem run_received (m n : Nat) {s : State} (h : s.rst = []) (h0 : s.idx = 0) (hl : m < s.lenr.toNat) :
    ∃ d c b, run (47 * m + n) (beginIndexedRead s) =
      run n (beginIndexedRead (setBits d c (setNackf b (received m s)))) := by
  induction m generalizing n with
  | zero =>
    refine ⟨s.data, s.bitcnt, s.nackf, ?_⟩
    rw [Nat.mul_zero, Nat.zero_add]
    unfold received
    rw [show BitVec.ofNat _ 0 = s.idx from h0.symm]
    rfl
  | succ m ih =>
    obtain ⟨d, c, b, ih⟩ := ih (47 + n) (by omega)
    rw [show 47 * (m + 1) + n = 47 * m + (47 + n) by omega, ih]
    unfold received
    generalize hS : emitAll (receivedTrace (sentByte s) m) s = S
    have hb : S.bufr = s.bufr := by rw [← hS]; simp
    have hlenr : S.lenr = s.lenr := by rw [← hS]; simp
    have hrst : S.rst = [] := by rw [← hS]; simpa using h
    have hsent : sentByte S 0 = sentByte s m := by
      rw [← hS, sentByte_emitAll _ _ m 0 (samples_receivedTrace _ _)]
      rfl
    generalize hX : setBits d c (setNackf b (setIdx (BitVec.ofNat _ m) (stored (sentByte s) m S))) = X
    have hXi : X.idx = BitVec.ofNat _ m := by rw [← hX]; rfl
    have hXl : X.lenr = s.lenr := by rw [← hX, ← hlenr, ← stored_lenr (sentByte s) m S]; rfl
    have hXr : X.rst = [] := by rw [← hX, ← hrst, ← stored_rst (sentByte s) m S]; rfl
    have hXs : sentByte X 0 = sentByte s m := by rw [← hX, ← hsent, ← sentByte_stored (sentByte s) m 0 S]; rfl
    rw [beginIndexedRead_ack (by rw [hXi, hXl]; exact (index_lt_last (by omega)).2 hl), run_readAck hXr, hXs]
    refine ⟨sentByte s m, 0, false, congrArg (run n) ?_⟩
    rw [← hX, emitAll_setBits, emitAll_setNackf, emitAll_setIdx, emitAll_stored, receivedTrace_succ, emitAll_append, hS,
      stored_succ]
    generalize hT : emitAll (readByteTrace false (sentByte s m)) S = T
    have hTb : (stored (sentByte s) m T).bufr = s.bufr := by rw [stored_bufr, ← hT, emitAll_bufr, hb]
    generalize stored (sentByte s) m T = U at hTb
    rw [nextReadBytes_more, toNat_index (n := s.lenr) (by omega),
      show BitVec.ofNat Config.LEN_BITS m + 1 = BitVec.ofNat Config.LEN_BITS (m + 1) from (BitVec.ofNat_add _ _).symm]

end Sys2Proof.Machine
end

