-- ==== Sys2Proof/Tests/Slice0.lean ====
section
/-! SUPPORT. The model's own tests. Expected results come from the vectors of 95_test_vectors.md named in each test; the theorems
named `witness_…` show states and operands that meet the hypotheses of the statement of that name. The parameters have no value, so a
test of the whole machine uses the ports 0 and 1, the addresses `NULL` and `buf1`, the pins 0 and 1 and a length of 1, which every
platform has; the operations on registers and masks are tested at eight pins, as the vectors are. -/

namespace Sys2Proof.Tests

open Sys2Proof Sys2Proof.Machine Sys2Proof.Safety

/-! ### Helpers -/

/-- The mask of pin 0. -/
def pin0 : Mask := lowMask 1 (by decide)

/-- The mask of pin 1. -/
def pin1 : Mask := lowMask 2 (by decide)

/-- The length 1. -/
def oneByte : Len := BitVec.ofNatLT 1 (Nat.one_lt_two_pow (by have := Config.one_le_LEN_BITS; omega))

/-- A port. -/
def port0 : PortRef := { key := 0 }

/-- Another port. -/
def port1 : PortRef := { key := 1 }

/-- An address other than `NULL`, of memory. -/
def buf1 : Addr := { key := 1 }

/-- A session on port 0 with SDA on pin 0 and SCL on pin 1, both driven (the masks of P1 and P4). -/
def base (extLow : List Mask) : State :=
  { State.reset with
    sda := pin0, scl := pin1, bound := true, gpio := [(0, { dir := lowMask 3 (by decide), out := 0 })],
    extLow := extLow }

/-- The next state of an outcome. -/
def nx (o : Host.Outcome State Fault Refusal) : State :=
  match o with
  | .next s    => s
  | .fault _   => State.reset
  | .refused _ => State.reset

/-- The refusal of an outcome. -/
def refusal (o : Host.Outcome State Fault Refusal) : Option Refusal :=
  match o with
  | .next _    => none
  | .fault _   => none
  | .refused r => some r

/-- `RS Q RC H DC`. -/
def one : List Micro := [.relSda, .waitQ, .relScl, .waitH, .drvScl]

/-- `DS Q RC H DC`. -/
def zero : List Micro := [.drvSda, .waitQ, .relScl, .waitH, .drvScl]

/-- `RS H RC S=a H DC DS H`. -/
def ackClock (a : Bool) : List Micro :=
  [.relSda, .waitH, .relScl, .smpSda a, .waitH, .drvScl, .drvSda, .waitH]

/-- `H RC S=b H DC`. -/
def got (b : Bool) : List Micro := [.waitH, .relScl, .smpSda b, .waitH, .drvScl]

/-- What a trace makes of the registers of a port of eight pins, with the masks of 95_test_vectors.md part 2. -/
def regs8 (us : List Micro) (dir out : BitVec 8) : PortRegs 8 :=
  us.foldl (fun r u => regsAfter 0x04#8 0x08#8 u r) { dir := dir, out := out }

/-! ### Well-formedness: an ill-formed term for each check (V19, V24) -/

theorem test_wf_start : (Instr.start port0 pin1 pin0).wellFormed = true := by decide
theorem test_wf_start_zero_mask : (Instr.start port0 0 pin1).wellFormed = false := by decide
theorem test_wf_start_two_bits : (Instr.start port0 (lowMask 3 (by decide)) pin1).wellFormed = false := by decide
theorem test_wf_start_same_pin : (Instr.start port0 pin0 pin0).wellFormed = false := by decide
theorem test_wf_read_length_zero : (Instr.readBytes buf1 0).wellFormed = false := by decide

/-- V24 at eight pins. -/
theorem test_masks :
    pinMasks 0x80#8 0x01#8 = true ∧ pinMasks 0x00#8 0x08#8 = false ∧ pinMasks 0x06#8 0x08#8 = false ∧
      pinMasks 0x04#8 0x04#8 = false ∧ pinMasks 0x04#8 0x0C#8 = false := by decide

/-! ### Decoding (V21, V22) -/

theorem test_decode_start (ops : SideOperands) :
    decode 0b00000000000#11 ops = .ok (.start ops.port ops.sda ops.scl) := by rfl
theorem test_decode_restart (ops : SideOperands) : decode 0b00100000000#11 ops = .ok .restart := by rfl
theorem test_decode_stop (ops : SideOperands) : decode 0b01000000000#11 ops = .ok .stop := by rfl
theorem test_decode_write_byte (ops : SideOperands) : decode 0b01110100101#11 ops = .ok (.writeByte 0xA5) := by rfl
theorem test_decode_write_byte_ff (ops : SideOperands) : decode 0b01111111111#11 ops = .ok (.writeByte 0xFF) := by rfl
theorem test_decode_read_byte (ops : SideOperands) : decode 0b10000000000#11 ops = .ok (.readByte false) := by rfl
theorem test_decode_read_byte_nack (ops : SideOperands) : decode 0b10000000001#11 ops = .ok (.readByte true) := by rfl
theorem test_decode_write_bytes (ops : SideOperands) :
    decode 0b10100000000#11 ops = .ok (.writeBytes ops.buf ops.len) := by rfl
theorem test_decode_read_bytes (ops : SideOperands) :
    decode 0b11000000000#11 ops = .ok (.readBytes ops.buf ops.len) := by rfl
theorem test_reserved_opcode (ops : SideOperands) : decode 0x7A5#11 ops = .error .reservedOpcode := by rfl
theorem test_reserved_start (ops : SideOperands) : decode 0x080#11 ops = .error .immediateNotZero := by rfl
theorem test_reserved_restart (ops : SideOperands) : decode 0x101#11 ops = .error .immediateNotZero := by rfl
theorem test_reserved_stop (ops : SideOperands) : decode 0x2FF#11 ops = .error .immediateNotZero := by rfl
theorem test_reserved_read_byte (ops : SideOperands) : decode 0x402#11 ops = .error .readBitsNotZero := by rfl
theorem test_reserved_read_byte_top (ops : SideOperands) : decode 0x480#11 ops = .error .readBitsNotZero := by rfl
theorem test_reserved_write_bytes (ops : SideOperands) : decode 0x501#11 ops = .error .immediateNotZero := by rfl
theorem test_reserved_read_bytes (ops : SideOperands) : decode 0x610#11 ops = .error .immediateNotZero := by rfl
theorem test_table_words :
    decodeTableWord 16 0x3A5 = some (.writeByte 0xA5) ∧ decodeTableWord 11 0x200 = some .stop ∧
      decodeTableWord 16 0x700 = none := by decide

/-! ### START (V1, V24) -/

/-- V1: the pins were driving high. -/
theorem test_start_registers : regs8 startTrace 0xFF 0xFF = { dir := 0xFF, out := 0xF3 } := by decide

theorem test_start :
    let t := nx (exec (.start port0 pin1 pin0) State.reset)
    t.trace = [.relBoth, .clrBoth, .waitH, .drvSda, .waitH, .drvScl] ∧ t.bound = true ∧ t.sda = pin1 ∧ t.scl = pin0 ∧
      t.busy = false ∧ refusal (exec (.start port0 pin0 pin0) State.reset) = some .badMasks := by decide

/-! ### RESTART and STOP (V2, V3, V24) -/

theorem test_restart :
    (nx (exec .restart (base []))).trace =
        [.relSda, .waitH, .relScl, .waitQ, .drvSda, .waitQ, .drvScl, .waitH] ∧
      regs8 restartTrace 0x0C 0 = { dir := 0x0C, out := 0 } := by decide

theorem test_restart_no_session : refusal (exec .restart State.reset) = some .noSession := by decide

theorem test_stop :
    (nx (exec .stop (base []))).trace = [.drvSda, .waitH, .relScl, .waitQ, .relSda, .waitH] ∧
      (nx (exec .stop (base []))).bound = true ∧ regs8 stopTrace 0x0C 0 = { dir := 0, out := 0 } := by decide

theorem test_stop_no_session : refusal (exec .stop State.reset) = some .noSession := by decide

/-! ### WRITEBYTE (V4, V5) -/

theorem test_write_byte_a5 :
    let t := nx (exec (.writeByte 0xA5) (base [pin0]))
    t.ret = retAck false ∧
      t.trace = one ++ zero ++ one ++ zero ++ zero ++ one ++ zero ++ one ++ ackClock false := by
  rw [exec_writeByte ⟨rfl, rfl⟩ rfl, show sdaAnswer (base [pin0]) 0 = false by decide]
  exact ⟨rfl, by decide +kernel⟩

theorem test_write_byte_00_no_peer :
    let t := nx (exec (.writeByte 0x00) (base [0]))
    t.ret = retAck true ∧ t.trace = zero ++ zero ++ zero ++ zero ++ zero ++ zero ++ zero ++ zero ++ ackClock true := by
  rw [exec_writeByte ⟨rfl, rfl⟩ rfl, show sdaAnswer (base [0]) 0 = true by decide]
  exact ⟨rfl, by decide +kernel⟩

/-! ### READBYTE (V9, V10) -/

theorem test_read_byte_ack :
    let t := nx (exec (.readByte false) (base [0, pin0, 0, pin0, pin0, 0, pin0, 0]))
    t.ret = retByte 0xA5 ∧
      t.trace = [.relSda] ++ got true ++ got false ++ got true ++ got false ++ got false ++ got true ++ got false ++ got true ++
        [.drvSda, .waitH, .relScl, .waitH, .drvScl, .relSda] := by
  rw [exec_readByte ⟨rfl, rfl⟩ rfl,
    show sentByte (base [0, pin0, 0, pin0, pin0, 0, pin0, 0]) 0 = 0xA5 by decide +kernel]
  exact ⟨rfl, by decide +kernel⟩

theorem test_read_byte_nack_no_peer :
    let t := nx (exec (.readByte true) (base [0, 0, 0, 0, 0, 0, 0, 0]))
    t.ret = retByte 0xFF ∧ t.trace.length = 46 ∧ t.trace.drop 41 = [.waitH, .relScl, .waitH, .drvScl, .relSda] := by
  rw [exec_readByte ⟨rfl, rfl⟩ rfl, show sentByte (base [0, 0, 0, 0, 0, 0, 0, 0]) 0 = 0xFF by decide +kernel]
  exact ⟨rfl, by decide +kernel, by decide +kernel⟩

/-! ### WRITEBYTES (V15b, V13) -/

/-- V15b: the byte 7E, which nobody acknowledges. -/
theorem test_write_bytes_nack :
    let t := nx (exec (.writeBytes buf1 oneByte) (memWrite buf1 0x7E (base [0])))
    t.ret = retCount 0 ∧
      t.trace = zero ++ one ++ one ++ one ++ one ++ one ++ one ++ zero ++ ackClock true := by
  have e : exec (.writeBytes buf1 oneByte) (memWrite buf1 0x7E (base [0])) =
      .next (run (48 + 0) (beginIndexedWrite (memWrite buf1 0x7E
        { captureBuffer buf1 oneByte (accept (base [0])) with idx := 0 }))) := rfl
  rw [e, run_indexedWrite rfl]
  generalize hY : ({ captureBuffer buf1 oneByte (accept (base [0])) with idx := 0 } : State) = Y
  have hl : loadIndexed (memWrite buf1 0x7E Y) = 0x7E := by
    rw [show loadIndexed (memWrite buf1 0x7E Y) = memRead (memWrite buf1 0x7E Y) buf1 by
      rw [← hY]; rfl, memRead_memWrite, if_pos rfl]
  rw [hl]
  generalize hX : memWrite buf1 0x7E Y = X
  rw [show sdaAnswer X 0 = true by rw [← hX, ← hY]; decide, nextWriteBytes_nack]
  have ht : X.trace = [] := by rw [← hX, ← hY]; rfl
  have hi : X.idx = 0 := by rw [← hX, ← hY]; rfl
  rw [emitAll_idx, hi]
  refine ⟨rfl, ?_⟩
  change (emitAll (writeByteTrace 0x7E true) X).trace = _
  rw [emitAll_trace, ht]
  decide +kernel

theorem test_write_bytes_null_no_session :
    let t := nx (exec (.writeBytes nullAddr oneByte) State.reset)
    t.ret = retCount 0 ∧ t.trace = [] ∧ t.busy = false := ⟨rfl, rfl, rfl⟩

/-! ### READBYTES (V17, V18) -/

/-- V17: the byte 80. -/
theorem test_read_bytes_one :
    let t := nx (exec (.readBytes buf1 oneByte) (base [0, pin0, pin0, pin0, pin0, pin0, pin0, pin0]))
    memRead t buf1 = 0x80 ∧ t.ret = retReadOk := by
  have e : exec (.readBytes buf1 oneByte) (base [0, pin0, pin0, pin0, pin0, pin0, pin0, pin0]) =
      .next (run (46 + 1) (beginIndexedRead
        { captureBuffer buf1 oneByte (accept (base [0, pin0, pin0, pin0, pin0, pin0, pin0, pin0])) with idx := 0 })) :=
    rfl
  rw [e]
  generalize hX : ({ captureBuffer buf1 oneByte (accept (base [0, pin0, pin0, pin0, pin0, pin0, pin0, pin0])) with
    idx := 0 } : State) = X
  have hl : ¬ X.idx < X.lenr - 1 := by
    rw [← hX]
    have := index_lt_last (m := 0) (n := oneByte) (by decide)
    exact fun h => absurd (this.1 h) (by decide)
  have hb : X.bufr = buf1 := by rw [← hX]; rfl
  have hi : X.idx = 0 := by rw [← hX]
  rw [beginIndexedRead_nack hl, run_readLast (by rw [← hX]; rfl), show sentByte X 0 = 0x80 by rw [← hX]; decide +kernel,
    nextReadBytes_last, emitAll_bufr, emitAll_idx, hb, hi]
  generalize emitAll (readByteTrace true 0x80) X = U
  rw [run_idle _ rfl]
  refine ⟨?_, rfl⟩
  change memRead (memWrite buf1 0x80 U) buf1 = 0x80
  rw [memRead_memWrite, if_pos rfl]

theorem test_read_bytes_null_no_session :
    let t := nx (exec (.readBytes nullAddr 0) State.reset)
    t.ret = retReadFail ∧ t.trace = [] ∧ refusal (exec (.readBytes buf1 0) State.reset) = some .readLengthZero :=
  ⟨rfl, rfl, by decide⟩

/-! ### The line controller (V20, V23) and the reset input -/

theorem test_sample_bit :
    sampleBit 0b10100110#8 0x04#8 = true ∧ sampleBit 0b10100010#8 0x04#8 = false ∧
      sampleBit 0b10000000#8 0x80#8 = true ∧ sampleBit 0b11111110#8 0x01#8 = false := by decide

theorem test_line_registers :
    regs8 [.relBoth] 0xA5 0xFF = { dir := 0xA1, out := 0xFF } ∧
      regs8 [.relBoth, .clrBoth] 0xA5 0xFF = { dir := 0xA1, out := 0xF3 } ∧
      regs8 [.relBoth, .clrBoth, .drvSda, .drvScl] 0xA5 0xFF = { dir := 0xAD, out := 0xF3 } ∧
      regs8 [.relBoth, .clrBoth, .drvSda, .drvScl, .relSda] 0xA5 0xFF = { dir := 0xA9, out := 0xF3 } ∧
      regs8 [.relBoth, .clrBoth, .drvSda, .drvScl, .relSda, .relScl] 0xA5 0xFF = { dir := 0xA1, out := 0xF3 } := by
  decide

/-- R26 at four pins: driven low, released and pulled low, released, driven high. -/
theorem test_line_level :
    inWord { dir := 0b1001#4, out := 0b1000#4 } 0b0010#4 0#4 = 0b1100#4 := by decide

/-- R202: a reset after three micro-operations of STOP ends the session and the command. -/
theorem test_reset_in_stop :
    let t := nx (exec .stop { base [] with rst := [3] })
    t.bound = false ∧ t.trace = [] ∧ t.busy = false ∧ t.rst = [] := by decide

/-- From reset the host's START runs in the first step. -/
theorem test_first_step :
    (nx (step (State.reset.withFetchWord 16 0x000))).trace = startTrace ∧
      refusal (step (State.reset.withFetchWord 16 0x7FF)) = some (.reservedWord .reservedOpcode) := by decide

/-! ### Witnesses: states and operands that meet the hypotheses of each statement -/

/-- The base state with a command presented. -/
def presenting (cw : CommandWord) : State := pushCommand cw tableOperands (base [])

/-- The base state in the middle of STOP, before its first micro-operation. -/
def inStop : State := { base [] with busy := true, seq := .stop .s1 }

theorem inv_presenting : MachineInv (presenting 0x200#11) where
  memory := ⟨rfl, rfl⟩
  gpio := ⟨by decide, by decide⟩
  busy := by decide
  session := by decide
  masks := by decide
  outLow := by decide
  loops := trivial
  stores := trivial

theorem inv_inStop : MachineInv inStop where
  memory := ⟨rfl, rfl⟩
  gpio := ⟨by decide, by decide⟩
  busy := by decide
  session := by decide
  masks := by decide
  outLow := by decide
  loops := trivial
  stores := trivial

theorem ready_base (xs : List Mask) : Ready (base xs) := ⟨rfl, rfl⟩

theorem oneByte_ne_zero : oneByte ≠ 0 := by decide

/-- A buffer of one byte has one index. -/
theorem lastAt_first : LastAt buf1 oneByte 0 := fun i h k => by
  have : i < 1 := k
  omega

theorem buf1_inMemory : bufferInMemory buf1 oneByte = true := rfl

theorem witness_DecodeEncodeAgree :
    decode 0x3FF#11 noOperands = .ok (.writeByte 0xFF) ∧
    decode 0x000#11 tableOperands = .ok (.start port0 pin0 pin1) ∧
    decode 0x500#11 noOperands = .ok (.writeBytes nullAddr 0) ∧
    decode 0x600#11 noOperands = .ok (.readBytes nullAddr 0) := ⟨rfl, rfl, rfl, rfl⟩

theorem witness_WordSelectsOneRow :
    decode 0x401#11 noOperands = .ok (.readByte true) ∧
    decode 0x402#11 noOperands = .error .readBitsNotZero ∧ (∀ r ∈ opcodeMap, rowSelects 0x402#11 r = false) ∧
    (∃ r ∈ opcodeMap, rowSelects 0x300#11 r = true) := ⟨rfl, rfl, by decide, by decide⟩

theorem witness_ReservedWordRefused :
    Ready (presenting 0x501#11) ∧ presented (presenting 0x501#11) = some (0x501#11, tableOperands) ∧
    (∀ r ∈ opcodeMap, rowSelects 0x501#11 r = false) := ⟨⟨rfl, rfl⟩, rfl, by decide⟩

theorem witness_StepRunsPresentedCommand :
    (presenting 0x200#11).busy = false ∧ resetDue (presenting 0x200#11) = false ∧
    (∃ pins rest, (presenting 0x200#11).host = pins :: rest ∧ pins.cmdValid = true ∧
      decode pins.cmdWord pins.ops = .ok .stop) := ⟨rfl, rfl, _, _, rfl, rfl, rfl⟩

theorem witness_IdleStepChangesNothing :
    State.reset.busy = false ∧ resetDue State.reset = false ∧ presented State.reset = none := ⟨rfl, rfl, rfl⟩

theorem witness_BusyIgnoresCommands : inStop.busy = true ∧ ∃ t, step inStop = .next t := ⟨rfl, _, rfl⟩

theorem witness_StepKeepsInvariant :
    (MachineInv (presenting 0x200#11) ∧ ∃ t, step (presenting 0x200#11) = .next t) ∧
    (MachineInv inStop ∧ ∃ t, step inStop = .next t) := ⟨⟨inv_presenting, _, rfl⟩, inv_inStop, _, rfl⟩

theorem witness_ResetInputEffect : resetDue { inStop with rst := [0] } = true := rfl

/-- The reset before the last of STOP's six micro-operations, and just after it. -/
theorem witness_ResetInMidCommand :
    (base []).busy = false ∧
    (∃ t u, exec .stop { base [] with rst := [5] } = .next t ∧
      exec .stop { { base [] with rst := [5] } with rst := [] } = .next u ∧
      u.trace = (base []).trace ++ stopTrace ∧ 5 < stopTrace.length) ∧
    (∃ t u, exec .stop { base [] with rst := [6, 2] } = .next t ∧
      exec .stop { { base [] with rst := [6, 2] } with rst := [] } = .next u ∧
      u.trace = (base []).trace ++ stopTrace ∧ stopTrace.length ≤ 6) :=
  ⟨rfl, ⟨_, _, rfl, rfl, by decide, by decide⟩, _, _, rfl, rfl, by decide, by decide⟩

theorem witness_GpioOperations : port1 ≠ port0 := by decide

/-- The four lines of R26, each at the top pin of a port of eight. -/
theorem witness_InFollowsLineLevel :
    7 < 8 ∧ (0x80#8).getLsbD 7 = true ∧ (0x00#8).getLsbD 7 = false := by decide

theorem witness_LineMicroOperations :
    drvSda ∈ [drvSda, relSda, drvScl, relScl, relBoth, clrBoth] ∧ port1 ≠ (base []).port := by
  constructor
  · simp
  · decide

theorem witness_SampleIsOneBit : 0 < Config.W ∧ (base []).sda.getLsbD 0 = true :=
  ⟨Nat.lt_of_lt_of_le (by decide) Config.two_le_W, by decide⟩

theorem witness_StartBindsAndTakesTheBus : Ready State.reset ∧ pinMasks pin1 pin0 = true := ⟨⟨rfl, rfl⟩, by decide⟩

/-- For RESTART, STOP, WRITEBYTE and READBYTE: both sides of the session test. -/
theorem witness_SessionResults :
    (Ready State.reset ∧ State.reset.bound = false) ∧ (Ready (base []) ∧ (base []).bound = true) :=
  ⟨⟨⟨rfl, rfl⟩, rfl⟩, ready_base _, rfl⟩

theorem witness_WriteBytesAllAcknowledged :
    Ready (base [pin0]) ∧ (base [pin0]).bound = true ∧ buf1 ≠ nullAddr ∧ oneByte ≠ 0 ∧
    (∀ j, j < oneByte.toNat → sdaAnswer (base [pin0]) j = false) :=
  ⟨ready_base _, rfl, by decide, oneByte_ne_zero, by decide⟩

/-- One byte acknowledged, one byte refused, and no byte. -/
theorem witness_WriteBytesCountsAcknowledged :
    (Ready (base [pin0]) ∧ (base [pin0]).bound = true ∧ buf1 ≠ nullAddr) ∧
    sdaAnswer (base [pin0]) 0 = false ∧ sdaAnswer (base [0]) 0 = true ∧ 0 < oneByte.toNat ∧ (0 : Len).toNat = 0 ∧
    oneByte ≠ 0 :=
  ⟨⟨ready_base _, rfl, by decide⟩, by decide, by decide, by decide, by decide, oneByte_ne_zero⟩

theorem witness_WriteBytesWithoutBus :
    State.reset.busy = false ∧ (nullAddr = nullAddr ∨ oneByte = 0) ∧ (buf1 = nullAddr ∨ (0 : Len) = 0) :=
  ⟨rfl, .inl rfl, .inr rfl⟩

theorem witness_ReadBytesResult :
    Ready (base []) ∧ (base []).bound = true ∧ buf1 ≠ nullAddr ∧ oneByte ≠ 0 ∧ bufferInMemory buf1 oneByte = true ∧
    0 < oneByte.toNat ∧ LastAt buf1 oneByte 0 :=
  ⟨ready_base _, rfl, by decide, oneByte_ne_zero, buf1_inMemory, by decide, lastAt_first⟩

/-- Every state with a session is in one of the three cases; memory is at `buf1`. -/
theorem witness_ReadBytesBufferPlace :
    (base []).busy = false ∧ (base []).bound = true ∧ buf1 ≠ nullAddr ∧ oneByte ≠ 0 ∧
    (∀ j, j < oneByte.toNat → addrKind (buf1.plus j) = .memory) :=
  ⟨rfl, rfl, by decide, oneByte_ne_zero, bufferInMemory_iff.1 buf1_inMemory⟩

theorem witness_ReadBytesNullFails : State.reset.busy = false := rfl

theorem witness_RefusedUses :
    State.reset.busy = false ∧ State.reset.bound = false ∧ pinMasks (0 : Mask) pin1 = false ∧
    pinMasks (lowMask 3 (by decide)) pin1 = false ∧ pinMasks pin0 pin0 = false ∧ buf1 ≠ nullAddr ∧ oneByte ≠ 0 := by
  decide

theorem witness_StartFrame : (base []).rst = [] ∧ ∃ t, exec (.start port1 pin1 pin0) (base []) = .next t := ⟨rfl, _, rfl⟩

theorem witness_RestartStopFrame :
    (base []).rst = [] ∧ (∃ t, exec .restart (base []) = .next t) ∧ (∃ t, exec .stop (base []) = .next t) :=
  ⟨rfl, ⟨_, rfl⟩, _, rfl⟩

theorem witness_WriteFrame :
    (base []).rst = [] ∧ (∃ t, exec (.writeByte 0xA5) (base []) = .next t) ∧
    (∃ t, exec (.writeBytes buf1 oneByte) (base []) = .next t) := ⟨rfl, ⟨_, rfl⟩, _, rfl⟩

/-- An address that is not stored to, and a null buffer. -/
theorem witness_ReadFrame :
    (base []).rst = [] ∧ (∃ t, exec (.readByte true) (base []) = .next t) ∧
    (∃ t, exec (.readBytes buf1 oneByte) (base []) = .next t) ∧
    (∃ t, exec (.readBytes nullAddr oneByte) (base []) = .next t) ∧
    (∀ j : Len, j < oneByte → nullAddr ≠ effectiveAddr { base [] with bufr := buf1, idx := j }) := by
  refine ⟨rfl, ⟨_, rfl⟩, ⟨_, rfl⟩, ⟨_, rfl⟩, fun j hj => ?_⟩
  have hj : j.toNat < 1 := hj
  change nullAddr ≠ buf1.plus j.toNat
  rw [Nat.lt_one_iff.1 hj]
  decide

theorem witness_OnlySessionPinsChange : ∃ t, exec .stop { base [] with rst := [3] } = .next t := ⟨_, rfl⟩

theorem witness_OutNeverSet : ∃ t, exec .stop (base []) = .next t ∧ isStart .stop = false := ⟨_, rfl, rfl⟩

theorem witness_SessionLastsUntilReset :
    (MachineInv inStop ∧ inStop.rst = [] ∧ (∃ t, step inStop = .next t) ∧ inStop.bound = true ∧ inStop.busy = true) ∧
    (MachineInv (presenting 0x200#11) ∧ (presenting 0x200#11).rst = [] ∧ (∃ t, step (presenting 0x200#11) = .next t) ∧
      (presenting 0x200#11).bound = true ∧
      (∀ cw ops i, presented (presenting 0x200#11) = some (cw, ops) → decode cw ops = .ok i → isStart i = false)) := by
  refine ⟨⟨inv_inStop, rfl, ⟨_, rfl⟩, rfl, rfl⟩, inv_presenting, rfl, ⟨_, rfl⟩, rfl, ?_⟩
  intro cw ops i h d
  cases h
  cases d
  rfl

theorem witness_TraceDecidesThePins : (base []).rst = [] ∧ ∃ t, exec (.start port1 pin1 pin0) (base []) = .next t :=
  ⟨rfl, _, rfl⟩

/-- Two environments that differ on SCL only. -/
theorem witness_OnlySdaIsSampled :
    (∀ buf len, Instr.writeByte 0xA5 = .writeBytes buf len → buf = nullAddr ∨ bufferInMemory buf len = true) ∧
    (∀ buf len, Instr.writeBytes buf1 oneByte = .writeBytes buf len → buf = nullAddr ∨ bufferInMemory buf len = true) ∧
    ([lowMask 3 (by decide), pin1] : List Mask).map (fun x => x &&& (base []).sda) =
      ([pin0, 0] : List Mask).map (fun y => y &&& (base []).sda) ∧
    (∃ t, exec (.writeByte 0xA5) { base [] with extLow := [lowMask 3 (by decide), pin1] } = .next t) ∧
    (∃ t, exec (.writeBytes buf1 oneByte) { base [] with extLow := [lowMask 3 (by decide), pin1] } = .next t) :=
  ⟨fun _ _ h => (by cases h), fun _ _ h => (by cases h; exact .inr buf1_inMemory), by decide, ⟨_, rfl⟩, _, rfl⟩

theorem witness_StepsComposeTheCommand : MachineInv inStop ∧ ∀ m, m < 6 → (run m inStop).busy = true :=
  ⟨inv_inStop, by decide⟩

/-- For WRITEBYTE and READBYTE on the wire. -/
theorem witness_OnTheWire :
    Ready (base []) ∧ (base []).bound = true ∧ pinMasks (base []).sda (base []).scl = true ∧ (linesOf (base [])).scl = false :=
  ⟨ready_base _, rfl, by decide, by decide⟩

theorem witness_StartStopShape :
    Ready State.reset ∧ pinMasks pin0 pin1 = true ∧ (portRegs State.reset port0).dir &&& (pin0 ||| pin1) = 0 :=
  ⟨⟨rfl, rfl⟩, by decide, by decide⟩

theorem witness_AbsentPeerAndStuckLine :
    pinMasks (base []).sda (base []).scl = true ∧
    (∀ k, k < 8 → extWord (base (List.replicate 8 0)) k &&& (base []).sda = 0) ∧
    (∀ k, k < 8 → extWord (base (List.replicate 8 pin0)) k &&& (base []).sda = (base []).sda) := by decide

/-- P4 with the one byte A5 at `buf1`. -/
theorem witness_RoundTrip :
    let s := memWrite buf1 0xA5 { base (loopBackScript pin0 [0xA5]) with bound := false }
    s.busy = false ∧ s.rst = [] ∧ pinMasks pin0 pin1 = true ∧ buf1 ≠ nullAddr ∧ oneByte ≠ 0 ∧
    bufferInMemory buf1 oneByte = true ∧ s.extLow = loopBackScript pin0 ((List.range oneByte.toNat).map fun j => memRead s (buf1.plus j)) ∧
    0 < oneByte.toNat ∧ LastAt buf1 oneByte 0 := by
  refine ⟨rfl, rfl, by decide, by decide, oneByte_ne_zero, buf1_inMemory, ?_, by decide, lastAt_first⟩
  rw [show (List.range oneByte.toNat) = [0] from rfl, List.map_singleton, memRead_memWrite, if_pos (show buf1.plus 0 = buf1 from rfl)]
  rfl

theorem witness_CountsAndDurations :
    Ready (base []) ∧ (∃ t, exec (.start port1 pin1 pin0) (base []) = .next t) ∧ (∃ t, exec .restart (base []) = .next t) ∧
    (∃ t, exec .stop (base []) = .next t) ∧ (∃ t, exec (.writeByte 0) (base []) = .next t) ∧
    (∃ t, exec (.readByte true) (base []) = .next t) ∧
    (∃ t, exec (.writeBytes buf1 oneByte) (base []) = .next t) ∧
    (∃ t, exec (.writeBytes nullAddr oneByte) (base []) = .next t) ∧
    (∃ t, exec (.readBytes buf1 oneByte) (base []) = .next t) ∧
    (∃ t, exec (.readBytes nullAddr 0) (base []) = .next t) :=
  ⟨ready_base _, ⟨_, rfl⟩, ⟨_, rfl⟩, ⟨_, rfl⟩, ⟨_, rfl⟩, ⟨_, rfl⟩, ⟨_, rfl⟩, ⟨_, rfl⟩, ⟨_, rfl⟩, _, rfl⟩

theorem witness_NackReturnsTheIndex :
    let s := { base [] with busy := true, seq := .writeBytes .w10, ackl := true }
    s.seq = .writeBytes .w10 ∧ s.ackl = true := by decide

end Sys2Proof.Tests
end

/-! SUPPORT. How the engine runs, packaged for invariants: what holds at the start of a run and is kept by every step of the engine holds
at its end, also when a reset lands in the middle (R46, R202); and what a command can answer, said once for all seven (R175, R177). -/

namespace Sys2Proof.Machine

open Sys2Proof.Safety

/-! ### One step of the engine, and a run of it -/

/-- What one engine step from a busy position keeps, a run keeps. -/
theorem run_induction {P : State → Prop} (hstep : ∀ s, P s → s.seq ≠ .idle → P (engineStep s)) (n : Nat) {s : State} (h : P s) :
    P (run n s) := by
  induction n generalizing s with
  | zero => exact h
  | succ n ih =>
    by_cases hq : s.seq = .idle
    · rwa [run_idle _ hq]
    · rw [run, if_neg hq]
      exact ih (hstep s h hq)

theorem resetDue_noReset {s : State} (h : s.rst = []) : resetDue s = false := by rw [resetDue, h]

/-- An engine step is the reset that is due, or a micro-step from a state that differs in the reset input only; with no reset to come
it differs in nothing (R202). -/
theorem engineStep_cases (s : State) : (s.rst ≠ [] ∧ engineStep s = takeReset s) ∨
    ∃ r, (s.rst = [] → r = []) ∧ engineStep s = microStep { s with rst := r } := by
  unfold engineStep
  by_cases h : resetDue s = true
  · exact .inl ⟨fun hr => absurd h (by simp [resetDue_noReset hr]), if_pos h⟩
  · refine .inr ?_
    rw [if_neg h]
    unfold resetNearer
    split
    · next hr => exact ⟨_, fun h0 => absurd (hr.symm.trans h0) (by simp), rfl⟩
    · exact ⟨s.rst, id, rfl⟩

/-! ### What a command can answer -/

/-- The state in which the engine begins a command: accepted, its operands captured, SEQ at its first micro-operation. -/
def entryOf : Instr → State → State
  | .start p a b, s        => goTo (.start .s2) (bindSession p a b (accept s))
  | .restart, s            => goTo (.restart .s1) (accept s)
  | .stop, s               => goTo (.stop .s1) (accept s)
  | .writeByte v, s        => beginWriteByte .writeByte v (accept s)
  | .readByte n, s         => beginReadByte .readByte n (accept s)
  | .writeBytes buf len, s => beginIndexedWrite { captureBuffer buf len (accept s) with idx := 0 }
  | .readBytes buf len, s  => beginIndexedRead { captureBuffer buf len (accept s) with idx := 0 }

/-- The most micro-operations a command takes (R186). -/
def mostMicros : Instr → Nat
  | .start _ _ _      => 6
  | .restart          => 8
  | .stop             => 6
  | .writeByte _      => 48
  | .readByte _       => 47
  | .writeBytes _ len => 48 * len.toNat
  | .readBytes _ len  => 47 * len.toNat

/-- The checks a command passes before the engine begins it (R175, R177). -/
def Admitted : Instr → State → Prop
  | .start _ a b, _        => pinMasks a b = true
  | .restart, s            => s.bound = true
  | .stop, s               => s.bound = true
  | .writeByte _, s        => s.bound = true
  | .readByte _, s         => s.bound = true
  | .writeBytes buf len, s => s.bound = true ∧ buf ≠ nullAddr ∧ len ≠ 0
  | .readBytes buf len, s  => s.bound = true ∧ buf ≠ nullAddr ∧ len ≠ 0 ∧ bufferInMemory buf len = true

/-- The return of WRITEBYTES or READBYTES with no bus activity: RET, BUSY, SEQ, BUFR, LENR and IDX apart, nothing changes (R54). -/
structure ReturnsAtOnce (i : Instr) (s t : State) : Prop where
  loops : ∃ buf len, i = .writeBytes buf len ∨ i = .readBytes buf len
  bus   : SameBus s t
  mem   : t.mem = s.mem
  bytes : SameByteRegs s t
  busy  : t.busy = false
  seq   : t.seq = .idle

/-- A command presented while BUSY = 1 is ignored (R74). -/
theorem exec_busy (i : Instr) {s : State} (h : s.busy = true) : exec i s = .next s := by
  cases i <;>
    simp only [exec, execStart, execRestart, execStop, execWriteByte, execReadByte, execWriteBytes, execReadBytes, if_pos h]

/-- A command refused unless its check holds. -/
theorem next_of_ite {c : Prop} [Decidable c] {a t : State} {r : Refusal}
    (h : (if c then .next a else .refused r : Host.Outcome State Fault Refusal) = .next t) : c ∧ t = a := by
  split at h <;> cases h
  exact ⟨‹c›, rfl⟩

/-- A command that answers a next state was ignored, returned at once, or was begun by the engine and run (R74, R177). -/
theorem exec_next_cases {i : Instr} {s t : State} (h : exec i s = .next t) :
    (s.busy = true ∧ t = s) ∨
      (s.busy = false ∧ (ReturnsAtOnce i s t ∨ (Admitted i s ∧ t = run (mostMicros i) (entryOf i s)))) := by
  by_cases hb : s.busy = true
  · rw [exec_busy i hb] at h
    cases h
    exact .inl ⟨hb, rfl⟩
  · right
    refine ⟨by simpa using hb, ?_⟩
    cases i with
    | start p a b =>
      simp only [exec, execStart, if_neg hb] at h
      obtain ⟨ha, rfl⟩ := next_of_ite h
      exact .inr ⟨ha, rfl⟩
    | restart =>
      simp only [exec, execRestart, if_neg hb] at h
      obtain ⟨ha, rfl⟩ := next_of_ite h
      exact .inr ⟨ha, rfl⟩
    | stop =>
      simp only [exec, execStop, if_neg hb] at h
      obtain ⟨ha, rfl⟩ := next_of_ite h
      exact .inr ⟨ha, rfl⟩
    | writeByte v =>
      simp only [exec, execWriteByte, if_neg hb] at h
      obtain ⟨ha, rfl⟩ := next_of_ite h
      exact .inr ⟨ha, rfl⟩
    | readByte n =>
      simp only [exec, execReadByte, if_neg hb] at h
      obtain ⟨ha, rfl⟩ := next_of_ite h
      exact .inr ⟨ha, rfl⟩
    | writeBytes buf len =>
      simp only [exec, execWriteBytes, if_neg hb, isNull, beq_iff_eq] at h
      split at h
      · cases h
        exact .inl ⟨⟨buf, len, by simp⟩, sameBus_of rfl, rfl, ⟨rfl, rfl, rfl, rfl⟩, rfl, rfl⟩
      · split at h
        · cases h
          exact .inl ⟨⟨buf, len, by simp⟩, sameBus_of rfl, rfl, ⟨rfl, rfl, rfl, rfl⟩, rfl, rfl⟩
        · obtain ⟨hs, rfl⟩ := next_of_ite h
          exact .inr ⟨⟨hs, ‹_›, ‹_›⟩, rfl⟩
    | readBytes buf len =>
      simp only [exec, execReadBytes, if_neg hb, isNull, beq_iff_eq, Bool.not_eq_true'] at h
      split at h
      · cases h
        exact .inl ⟨⟨buf, len, by simp⟩, sameBus_of rfl, rfl, ⟨rfl, rfl, rfl, rfl⟩, rfl, rfl⟩
      · split at h
        · cases h
        · split at h
          · cases h
          · split at h
            · cases h
            · obtain ⟨hm, rfl⟩ := next_of_ite h
              exact .inr ⟨⟨by simpa using ‹¬s.bound = false›, ‹_›, ‹_›, hm⟩, rfl⟩

end Sys2Proof.Machine

/-! SUPPORT. The machine's invariant: what a command in progress holds at every position of SEQ, and that each part of the machine keeps
it (R15, R16, R19, R28, R55, R99, R157). -/

namespace Sys2Proof.Machine

open Sys2Proof.Safety

/-! ### Lengths and indexes (R157) -/

theorem toNat_succ_of_lt {i n : Len} (h : i < n) : (i + 1).toNat = i.toNat + 1 := by
  have hi := toNat_index (m := i.toNat + 1) (n := n) h
  rwa [BitVec.ofNat_add, BitVec.ofNat_toNat, BitVec.setWidth_eq] at hi

theorem toNat_pred_of_lt {i n : Len} (h : i < n) : (n - 1).toNat = n.toNat - 1 := by
  have hn : 0 < n.toNat := Nat.lt_of_le_of_lt (Nat.zero_le _) h
  have h1 : n - 1 = BitVec.ofNat _ (n.toNat - 1) := by
    rw [BitVec.sub_eq_iff_eq_add]
    change n = BitVec.ofNat _ (n.toNat - 1) + BitVec.ofNat _ 1
    rw [← BitVec.ofNat_add, Nat.sub_add_cancel hn, BitVec.ofNat_toNat, BitVec.setWidth_eq]
  rw [h1, toNat_index (n := n) (by omega)]

/-- The loop test of READBYTES on an index in bounds: it fails at the last index only (R154, R157). -/
theorem lt_pred_iff {i n : Len} (h : i < n) : i < n - 1 ↔ i ≠ n - 1 := by
  have hp := toNat_pred_of_lt h
  rw [BitVec.lt_def] at h ⊢
  rw [ne_eq, ← BitVec.toNat_inj, hp]
  omega

/-- The index after one that is not the last is in bounds (R154 step 6c). -/
theorem succ_lt_of_lt_pred {i n : Len} (h : i < n) (hl : i < n - 1) : i + 1 < n := by
  have hp := toNat_pred_of_lt h
  rw [BitVec.lt_def] at hl ⊢
  rw [toNat_succ_of_lt h]
  omega

/-! ### What a command in progress holds -/

/-- A command is in progress in a session with legal masks, on stores in canonical form (R15, R99). -/
structure InSession (s : State) : Prop where
  memory : memoryWf s
  gpio   : gpioWf s
  busy   : s.busy = true
  bound  : s.bound = true
  masks  : pinMasks s.sda s.scl = true

/-- And OUT = 0 on both pins: from CLR_BOTH of START on (R28). -/
structure Running (s : State) : Prop extends InSession s where
  outLow : (portRegs s s.port).out &&& (s.sda ||| s.scl) = 0

/-- The fields `Running` speaks of. -/
def runningFields (s : State) := (s.port, s.sda, s.scl, s.bound, s.busy, s.gpio, s.mem)

theorem Running.congr {s t : State} (h : Running s) (e : runningFields t = runningFields s) : Running t := by
  obtain ⟨⟨hm, hg, hb, hs, hk⟩, ho⟩ := h
  simp only [runningFields, Prod.mk.injEq] at e
  obtain ⟨e1, e2, e3, e4, e5, e6, e7⟩ := e
  refine ⟨⟨?_, ?_, e5 ▸ hb, e4 ▸ hs, by rw [e2, e3]; exact hk⟩, ?_⟩
  · rwa [memoryWf, e7]
  · rwa [gpioWf, e6]
  · rwa [portRegs, e1, e2, e3, e6]

theorem inSession_emit {s : State} (h : InSession s) (u : Micro) : InSession (emit u s) where
  memory := by rw [memoryWf, emit_mem]; exact h.memory
  gpio := gpioWf_emit h.gpio u
  busy := by rw [emit_busy]; exact h.busy
  bound := by rw [emit_bound]; exact h.bound
  masks := by rw [emit_sda, emit_scl]; exact h.masks

/-- OUT after a micro-operation: CLR_BOTH clears the session's two bits, every other one leaves it (R96). -/
theorem regsAfter_out {w : Nat} (sda scl : BitVec w) (u : Micro) (r : PortRegs w) :
    (regsAfter sda scl u r).out = if u = .clrBoth then r.out &&& ~~~(sda ||| scl) else r.out := by
  cases u <;> rfl

theorem and_not_and_self {w : Nat} (x m : BitVec w) : x &&& ~~~m &&& m = 0 := by
  rw [BitVec.and_assoc, BitVec.and_comm (~~~m), BitVec.and_not_self]
  exact BitVec.and_zero

/-- CLR_BOTH makes OUT = 0 on both pins (R28, R96). -/
theorem running_clrBoth {s : State} (h : InSession s) : Running (emit .clrBoth s) where
  toInSession := inSession_emit h .clrBoth
  outLow := by
    rw [portRegs_emit, emit_port, if_pos rfl, regsAfter_out, if_pos rfl, emit_sda, emit_scl]
    exact and_not_and_self _ _

/-- No micro-operation sets an OUT bit (R90). -/
theorem running_emit {s : State} (h : Running s) (u : Micro) : Running (emit u s) := by
  by_cases hu : u = .clrBoth
  · exact hu ▸ running_clrBoth h.toInSession
  · refine ⟨inSession_emit h.toInSession u, ?_⟩
    rw [portRegs_emit, emit_port, if_pos rfl, regsAfter_out, if_neg hu, emit_sda, emit_scl]
    exact h.outLow

theorem running_storeIndexed {s : State} (h : Running s) : Running (storeIndexed s) where
  memory := memoryWf_memWrite h.memory _ _
  gpio := h.gpio
  busy := h.busy
  bound := h.bound
  masks := h.masks
  outLow := h.outLow

/-! ### The invariant at a position of SEQ -/

/-- A command in progress at a position whose loop is in bounds meets the invariant. -/
theorem inv_goTo {q : Seq} {s : State} (hq : q ≠ .idle) (h : Running s) (hl : loopBound (goTo q s)) (hs : storesInMemory (goTo q s)) :
    MachineInv (goTo q s) where
  memory := h.memory
  gpio := h.gpio
  busy := ⟨fun _ => hq, fun _ => h.busy⟩
  session := fun _ => h.bound
  masks := fun _ => h.masks
  outLow := fun _ _ => h.outLow
  loops := hl
  stores := hs

/-- Before CLR_BOTH of START the OUT bits may still be set (R111 steps 2 and 3). -/
theorem inv_goTo_beforeClear {k : StartStep} {s : State} (hk : beforeClear (.start k) = true) (h : InSession s) :
    MachineInv (goTo (.start k) s) where
  memory := h.memory
  gpio := h.gpio
  busy := ⟨fun _ => nofun, fun _ => h.busy⟩
  session := fun _ => h.bound
  masks := fun _ => h.masks
  outLow := fun _ hf => absurd (hk.symm.trans hf) (by decide)
  loops := trivial
  stores := trivial

theorem inv_returnNone {s : State} (h : Running s) : MachineInv (returnNone s) where
  memory := h.memory
  gpio := h.gpio
  busy := ⟨nofun, fun hq => absurd rfl hq⟩
  session := nofun
  masks := fun _ => h.masks
  outLow := fun _ _ => h.outLow
  loops := trivial
  stores := trivial

theorem inv_returnValue {s : State} (h : Running s) (v : Ret) : MachineInv (returnValue v s) :=
  inv_returnNone (h.congr (t := { s with ret := v }) rfl)

/-- The invariant gives back what a command in progress holds. -/
theorem inSession_of_inv {s : State} (h : MachineInv s) (hq : s.seq ≠ .idle) : InSession s where
  memory := h.memory
  gpio := h.gpio
  busy := h.busy.2 hq
  bound := h.session (h.busy.2 hq)
  masks := h.masks (h.session (h.busy.2 hq))

theorem running_of_inv {s : State} (h : MachineInv s) (hq : s.seq ≠ .idle) (hc : beforeClear s.seq = false) : Running s where
  toInSession := inSession_of_inv h hq
  outLow := h.outLow (h.session (h.busy.2 hq)) hc

theorem seq_idle_of_inv {s : State} (h : MachineInv s) (hb : s.busy = false) : s.seq = .idle :=
  not_not.1 fun hq => Bool.eq_false_iff.1 hb (h.busy.2 hq)

/-- Acceptance by an idle block with a session begins a command in progress. -/
theorem running_accept {s : State} (h : MachineInv s) (hb : s.busy = false) (hs : s.bound = true) : Running (accept s) where
  memory := h.memory
  gpio := h.gpio
  busy := rfl
  bound := hs
  masks := h.masks hs
  outLow := h.outLow hs (by rw [seq_idle_of_inv h hb]; rfl)

/-! ### The bodies of a byte: what each micro-operation keeps, the body hands on to the next position or to the command -/

/-- A property kept by micro-operations and by writes of DATA, BITCNT and ACKL, through one step of a WRITEBYTE body. -/
theorem writeByteStep_keeps {P Q : State → Prop} {pos : WriteStep → Seq} {done : State → State}
    (hemit : ∀ u x, P x → P (emit u x)) (hbits : ∀ d c x, P x → P (setBits d c x)) (hackl : ∀ a x, P x → P (setAckl a x))
    (hgo : ∀ k x, P x → Q (goTo (pos k) x)) (hdone : ∀ x, P x → Q (done x)) (k : WriteStep) {s : State} (h : P s) :
    Q (writeByteStep pos done k s) := by
  cases k with
  | w2a => exact hgo _ _ (hemit _ _ h)
  | w2b => exact hgo _ _ (hemit .waitQ _ h)
  | w2c => exact hgo _ _ (hemit .relScl _ h)
  | w2d => exact hgo _ _ (hemit .waitH _ h)
  | w2e =>
    have hx : P (drvScl s) := hemit .drvScl _ h
    simp only [writeByteStep, nextWriteBit]
    split
    · exact hgo _ _ hx
    · exact hgo _ _ (hbits (drvScl s).data _ _ hx)
  | w3 => exact hgo _ _ (hemit .relSda _ h)
  | w4 => exact hgo _ _ (hemit .waitH _ h)
  | w5 => exact hgo _ _ (hemit .relScl _ h)
  | w6 => exact hgo _ _ (hackl _ _ (hemit _ _ h))
  | w7 => exact hgo _ _ (hemit .waitH _ h)
  | w8 => exact hgo _ _ (hemit .drvScl _ h)
  | w9 => exact hgo _ _ (hemit .drvSda _ h)
  | w10 => exact hdone _ (hemit .waitH _ h)

/-- The same through one step of a READBYTE body. -/
theorem readByteStep_keeps {P Q : State → Prop} {pos : ReadStep → Seq} {done : State → State}
    (hemit : ∀ u x, P x → P (emit u x)) (hbits : ∀ d c x, P x → P (setBits d c x))
    (hgo : ∀ k x, P x → Q (goTo (pos k) x)) (hdone : ∀ x, P x → Q (done x)) (k : ReadStep) {s : State} (h : P s) :
    Q (readByteStep pos done k s) := by
  cases k with
  | r2 => exact hgo _ _ (hbits (relSda s).data _ _ (hemit .relSda _ h))
  | r3a => exact hgo _ _ (hemit .waitH _ h)
  | r3b => exact hgo _ _ (hemit .relScl _ h)
  | r3c => exact hgo _ _ (hbits _ (smpSda s).bitcnt _ (hemit _ _ h))
  | r3d => exact hgo _ _ (hemit .waitH _ h)
  | r3e =>
    have hx : P (drvScl s) := hemit .drvScl _ h
    simp only [readByteStep, nextReadBit]
    split
    · exact hgo _ _ hx
    · exact hgo _ _ (hbits (drvScl s).data _ _ hx)
  | r4 => exact hgo _ _ (hemit .drvSda _ h)
  | r5 => exact hgo _ _ (hemit .waitH _ h)
  | r6 => exact hgo _ _ (hemit .relScl _ h)
  | r7 => exact hgo _ _ (hemit .waitH _ h)
  | r8 => exact hgo _ _ (hemit .drvScl _ h)
  | r9 => exact hdone _ (hemit .relSda _ h)

/-! ### The loops -/

/-- A command in progress whose index is in bounds: inside WRITEBYTES (R157). -/
def RunningIndexed (s : State) : Prop := Running s ∧ s.idx < s.lenr

/-- Inside READBYTES: `last` tells the last index, and the buffer is memory (R55, R154). -/
def RunningRead (last : Bool) (s : State) : Prop :=
  RunningIndexed s ∧ (last = true ↔ s.idx = s.lenr - 1) ∧ bufferInMemory s.bufr s.lenr = true

theorem runningIndexed_emit (u : Micro) (s : State) (h : RunningIndexed s) : RunningIndexed (emit u s) :=
  ⟨running_emit h.1 u, by rw [emit_idx, emit_lenr]; exact h.2⟩

theorem runningRead_emit {last : Bool} (u : Micro) (s : State) (h : RunningRead last s) : RunningRead last (emit u s) := by
  obtain ⟨hi, hl, hm⟩ := h
  exact ⟨runningIndexed_emit u s hi, by rw [emit_idx, emit_lenr]; exact hl, by rw [emit_bufr, emit_lenr]; exact hm⟩

theorem inv_beginIndexedWrite {s : State} (h : RunningIndexed s) : MachineInv (beginIndexedWrite s) :=
  inv_goTo nofun (h.1.congr (t := { s with data := loadIndexed s, bitcnt := 7 }) rfl) h.2 trivial

/-- The body at an index in bounds is the last exactly at `LENR - 1` (R154 steps 6 and 7). -/
theorem inv_beginIndexedRead {s : State} (h : RunningIndexed s) (hm : bufferInMemory s.bufr s.lenr = true) :
    MachineInv (beginIndexedRead s) := by
  obtain ⟨hr, hi⟩ := h
  have hgo (last nack : Bool) (hl : last = true ↔ s.idx = s.lenr - 1) : MachineInv (beginReadByte (.readBytes last) nack s) :=
    inv_goTo nofun (hr.congr (t := { s with nackf := nack, data := 0 }) rfl) ⟨hi, hl⟩ hm
  by_cases hl : s.idx < s.lenr - 1
  · rw [beginIndexedRead_ack hl]
    exact hgo false false ⟨nofun, fun e => absurd e ((lt_pred_iff hi).1 hl)⟩
  · rw [beginIndexedRead_nack hl]
    exact hgo true true ⟨fun _ => not_not.1 (mt (lt_pred_iff hi).2 hl), fun _ => rfl⟩

theorem inv_nextWriteBytes (s : State) (h : RunningIndexed s) : MachineInv (nextWriteBytes s) := by
  have hret : ∀ v, MachineInv (finishWriteBytes v s) := fun v =>
    inv_returnValue (s := forgetIndex (forgetOperands (forgetWrite s))) (h.1.congr rfl) v
  unfold nextWriteBytes
  split
  · exact hret _
  · split
    · next hn => exact inv_beginIndexedWrite ⟨h.1.congr rfl, hn⟩
    · exact hret _

theorem inv_nextReadBytes (last : Bool) (s : State) (h : RunningRead last s) : MachineInv (nextReadBytes last s) := by
  obtain ⟨⟨hr, hi⟩, hl, hm⟩ := h
  have hstore := running_storeIndexed hr
  cases last with
  | false =>
    have hn : s.idx < s.lenr - 1 := (lt_pred_iff hi).2 fun e => absurd (hl.2 e) (by decide)
    exact inv_beginIndexedRead ⟨hstore.congr rfl, succ_lt_of_lt_pred hi hn⟩ hm
  | true => exact inv_returnValue (s := forgetIndex (forgetOperands (forgetRead (storeIndexed s)))) (hstore.congr rfl) _

/-! ### The engine keeps the invariant -/

theorem inv_startStep (k : StartStep) {s : State} (h : MachineInv s) (hs : s.seq = .start k) : MachineInv (startStep k s) := by
  have hq : s.seq ≠ .idle := by rw [hs]; nofun
  have hin := inSession_of_inv h hq
  have hrun : beforeClear (.start k) = false → Running s := fun hc => running_of_inv h hq (by rw [hs]; exact hc)
  cases k with
  | s2 => exact inv_goTo_beforeClear rfl (inSession_emit hin .relBoth)
  | s3 => exact inv_goTo nofun (running_clrBoth hin) trivial trivial
  | s4 => exact inv_goTo nofun (running_emit (hrun rfl) .waitH) trivial trivial
  | s5 => exact inv_goTo nofun (running_emit (hrun rfl) .drvSda) trivial trivial
  | s6 => exact inv_goTo nofun (running_emit (hrun rfl) .waitH) trivial trivial
  | s7 => exact inv_returnNone (running_emit (hrun rfl) .drvScl)

theorem inv_restartStep (k : RestartStep) {s : State} (h : Running s) : MachineInv (restartStep k s) := by
  have hgo (u : Micro) (j : RestartStep) : MachineInv (goTo (.restart j) (emit u s)) :=
    inv_goTo nofun (running_emit h u) trivial trivial
  cases k with
  | s1 => exact hgo .relSda .s2
  | s2 => exact hgo .waitH .s3
  | s3 => exact hgo .relScl .s4
  | s4 => exact hgo .waitQ .s5
  | s5 => exact hgo .drvSda .s6
  | s6 => exact hgo .waitQ .s7
  | s7 => exact hgo .drvScl .s8
  | s8 => exact inv_returnNone (running_emit h .waitH)

theorem inv_stopStep (k : StopStep) {s : State} (h : Running s) : MachineInv (stopStep k s) := by
  have hgo (u : Micro) (j : StopStep) : MachineInv (goTo (.stop j) (emit u s)) :=
    inv_goTo nofun (running_emit h u) trivial trivial
  cases k with
  | s1 => exact hgo .drvSda .s2
  | s2 => exact hgo .waitH .s3
  | s3 => exact hgo .relScl .s4
  | s4 => exact hgo .waitQ .s5
  | s5 => exact hgo .relSda .s6
  | s6 => exact inv_returnNone (running_emit h .waitH)

theorem inv_writeByteBody (k : WriteStep) {s : State} (h : Running s) : MachineInv (writeByteStep .writeByte finishWriteByte k s) :=
  writeByteStep_keeps (P := Running) (pos := .writeByte) (done := finishWriteByte)
    (hemit := fun u _ hx => running_emit hx u)
    (hbits := fun _ _ _ hx => hx.congr rfl)
    (hackl := fun _ _ hx => hx.congr rfl)
    (hgo := fun _ _ hx => inv_goTo nofun hx trivial trivial)
    (hdone := fun x hx => inv_returnValue (s := forgetWrite x) (hx.congr rfl) _) k h

theorem inv_readByteBody (k : ReadStep) {s : State} (h : Running s) : MachineInv (readByteStep .readByte finishReadByte k s) :=
  readByteStep_keeps (P := Running) (pos := .readByte) (done := finishReadByte)
    (hemit := fun u _ hx => running_emit hx u)
    (hbits := fun _ _ _ hx => hx.congr rfl)
    (hgo := fun _ _ hx => inv_goTo nofun hx trivial trivial)
    (hdone := fun x hx => inv_returnValue (s := forgetRead x) (hx.congr rfl) _) k h

theorem inv_writeBytesBody (k : WriteStep) {s : State} (h : RunningIndexed s) :
    MachineInv (writeByteStep .writeBytes nextWriteBytes k s) :=
  writeByteStep_keeps (P := RunningIndexed) (pos := .writeBytes)
    (hemit := runningIndexed_emit)
    (hbits := fun _ _ _ hx => ⟨hx.1.congr rfl, hx.2⟩)
    (hackl := fun _ _ hx => ⟨hx.1.congr rfl, hx.2⟩)
    (hgo := fun _ _ hx => inv_goTo nofun hx.1 hx.2 trivial)
    (hdone := inv_nextWriteBytes) k h

theorem inv_readBytesBody (last : Bool) (k : ReadStep) {s : State} (h : RunningRead last s) :
    MachineInv (readByteStep (.readBytes last) (nextReadBytes last) k s) :=
  readByteStep_keeps (P := RunningRead last) (pos := .readBytes last)
    (hemit := runningRead_emit)
    (hbits := fun _ _ _ ⟨⟨hx, hi⟩, hl⟩ => ⟨⟨hx.congr rfl, hi⟩, hl⟩)
    (hgo := fun _ _ ⟨⟨hx, hi⟩, hl, hm⟩ => inv_goTo nofun hx ⟨hi, hl⟩ hm)
    (hdone := inv_nextReadBytes last) k h

/-- A micro-step keeps the invariant: each command by what its body keeps. -/
theorem inv_microStep {s : State} (h : MachineInv s) (hq : s.seq ≠ .idle) : MachineInv (microStep s) := by
  have hrun : beforeClear s.seq = false → Running s := running_of_inv h hq
  have hloop := h.loops
  have hstores := h.stores
  unfold loopBound at hloop
  unfold storesInMemory at hstores
  unfold microStep
  split
  · next e => exact absurd e hq
  · next k e => exact inv_startStep k h e
  · next k e => exact inv_restartStep k (hrun (by rw [e]; rfl))
  · next k e => exact inv_stopStep k (hrun (by rw [e]; rfl))
  · next k e => exact inv_writeByteBody k (hrun (by rw [e]; rfl))
  · next k e => exact inv_readByteBody k (hrun (by rw [e]; rfl))
  · next k e =>
    rw [e] at hloop
    exact inv_writeBytesBody k ⟨hrun (by rw [e]; rfl), hloop⟩
  · next last k e =>
    rw [e] at hloop hstores
    exact inv_readBytesBody last k ⟨⟨hrun (by rw [e]; rfl), hloop.1⟩, hloop.2, hstores⟩

/-- The invariant does not look at what the host and the reset input will do. -/
theorem inv_inputs {s : State} (h : MachineInv s) (hs : List HostPins) (rs : List Nat) :
    MachineInv { s with host := hs, rst := rs } where
  memory := h.memory
  gpio := h.gpio
  busy := h.busy
  session := h.session
  masks := h.masks
  outLow := h.outLow
  loops := h.loops
  stores := h.stores

/-- A reset leaves the stores as they are and ends the session (R201). -/
theorem inv_takeReset {s : State} (h : MachineInv s) : MachineInv (takeReset s) where
  memory := h.memory
  gpio := h.gpio
  busy := ⟨nofun, fun hq => absurd rfl hq⟩
  session := nofun
  masks := nofun
  outLow := nofun
  loops := trivial
  stores := trivial

theorem inv_engineStep {s : State} (h : MachineInv s) (hq : s.seq ≠ .idle) : MachineInv (engineStep s) := by
  obtain ⟨-, e⟩ | ⟨r, -, e⟩ := engineStep_cases s
  · exact e ▸ inv_takeReset h
  · exact e ▸ inv_microStep (inv_inputs h s.host r) hq

/-! ### Every command keeps the invariant -/

theorem inv_returnsAtOnce {i : Instr} {s t : State} (h : MachineInv s) (hb : s.busy = false) (hr : ReturnsAtOnce i s t) :
    MachineInv t := by
  obtain ⟨-, hbus, hmem, -, hbusy, hseq⟩ := hr
  refine ⟨?_, ?_, ?_, ?_, ?_, ?_, ?_, ?_⟩
  · rw [memoryWf, hmem]; exact h.memory
  · rw [gpioWf, hbus.gpio]; exact h.gpio
  · simp [hbusy, hseq]
  · simp [hbusy]
  · rw [hbus.bound, hbus.sda, hbus.scl]; exact h.masks
  · intro hs _
    rw [portRegs, hbus.gpio, hbus.port, hbus.sda, hbus.scl]
    exact h.outLow (hbus.bound ▸ hs) (by rw [seq_idle_of_inv h hb]; rfl)
  · simp only [loopBound, hseq]
  · simp only [storesInMemory, hseq]

theorem zero_lt_of_ne_zero {n : Len} (h : n ≠ 0) : (0 : Len) < n := (BitVec.pos_iff_ne_zero n).2 h

/-- An admitted command begins in a state of the invariant (R15, R99, R157). -/
theorem inv_entryOf {i : Instr} {s : State} (h : MachineInv s) (hb : s.busy = false) (ha : Admitted i s) :
    MachineInv (entryOf i s) := by
  cases i with
  | start p a b => exact inv_goTo_beforeClear rfl ⟨h.memory, h.gpio, rfl, rfl, ha⟩
  | restart => exact inv_goTo nofun (running_accept h hb ha) trivial trivial
  | stop => exact inv_goTo nofun (running_accept h hb ha) trivial trivial
  | writeByte v =>
    exact inv_goTo nofun ((running_accept h hb ha).congr (t := { accept s with data := v, bitcnt := 7 }) rfl) trivial trivial
  | readByte n =>
    exact inv_goTo nofun ((running_accept h hb ha).congr (t := { accept s with nackf := n, data := 0 }) rfl) trivial trivial
  | writeBytes buf len =>
    obtain ⟨hs, -, hl⟩ := ha
    exact inv_beginIndexedWrite ⟨(running_accept h hb hs).congr rfl, zero_lt_of_ne_zero hl⟩
  | readBytes buf len =>
    obtain ⟨hs, -, hl, hm⟩ := ha
    exact inv_beginIndexedRead ⟨(running_accept h hb hs).congr rfl, zero_lt_of_ne_zero hl⟩ hm

theorem inv_exec {i : Instr} {s t : State} (h : MachineInv s) (he : exec i s = .next t) : MachineInv t := by
  obtain ⟨-, rfl⟩ | ⟨hb, hr | ⟨ha, rfl⟩⟩ := exec_next_cases he
  · exact h
  · exact inv_returnsAtOnce h hb hr
  · exact run_induction (fun _ hx hq => inv_engineStep hx hq) _ (inv_entryOf h hb ha)

/-! ### One step of the machine -/

/-- A step that answers a next state: the reset, a micro-step of a command in progress, an idle step, or a presented command (R74,
R201). -/
theorem step_next_cases {s t : State} (h : step s = .next t) :
    (resetDue s = true ∧ t = takeReset s) ∨
      (resetDue s = false ∧ s.busy = true ∧ s.bound = true ∧ t = engineStep s) ∨
      (s.busy = false ∧ presented s = none ∧ t = popHost s) ∨
      (s.busy = false ∧ ∃ cw ops i, presented s = some (cw, ops) ∧ decode cw ops = .ok i ∧ exec i (popHost s) = .next t) := by
  unfold step at h
  split at h
  · cases h
    exact .inl ⟨‹_›, rfl⟩
  · next hr =>
    have hr : resetDue s = false := by simpa using hr
    split at h
    · next hb =>
      unfold continueCommand at h
      split at h <;> cases h
      exact .inr (.inl ⟨hr, hb, ‹_›, rfl⟩)
    · next hb =>
      have hb : s.busy = false := by simpa using hb
      split at h
      · cases h
        exact .inr (.inr (.inl ⟨hb, ‹_›, rfl⟩))
      · next cw ops hp =>
        split at h
        · next i hd => exact .inr (.inr (.inr ⟨hb, cw, ops, i, hp, hd, h⟩))
        · cases h

/-- Settles O10: a reset, a micro-step, an idle step and a presented command each keep the invariant. -/
theorem stepKeepsInvariant : Obligations.StepKeepsInvariant := by
  unfold Obligations.StepKeepsInvariant
  intro s t h hstep
  obtain ⟨-, rfl⟩ | ⟨-, hb, -, rfl⟩ | ⟨-, -, rfl⟩ | ⟨-, cw, ops, i, -, -, he⟩ := step_next_cases hstep
  · exact inv_takeReset h
  · exact inv_engineStep h (h.busy.1 hb)
  · exact inv_inputs h _ s.rst
  · exact inv_exec (inv_inputs h (s.host.drop 1) s.rst) he

/-- Settles O9: the stores list nothing and there is no session (R35, R201). -/
theorem invariantAtReset : Obligations.InvariantAtReset where
  memory := memoryWf_reset
  gpio := gpioWf_reset
  busy := by decide
  session := nofun
  masks := nofun
  outLow := nofun
  loops := trivial
  stores := trivial

/-- Settles O8: the values R35 and R201 give are fields of the state after reset. -/
theorem resetValues : Obligations.ResetValues := ⟨rfl, rfl, rfl, rfl⟩

end Sys2Proof.Machine

/-! SUPPORT. What a run and a command do to the pins and to T: a list of micro-operations on the session, also when a reset lands in the
middle; and the rules of the whole machine that follow from it (R14, R15, R20, R32, R46, R90). -/

namespace Sys2Proof.Machine

open Sys2Proof.Safety

/-! ### The pin registers after micro-operations -/

theorem portRegs_congr {s t : State} (h : t.gpio = s.gpio) (p : PortRef) : portRegs t p = portRegs s p := by rw [portRegs, portRegs, h]

/-- A micro-operation's effect on the GPIO block is decided by the session and the block. -/
theorem emit_gpio_congr (u : Micro) {s t : State} (hp : t.port = s.port) (ha : t.sda = s.sda) (hc : t.scl = s.scl)
    (hg : t.gpio = s.gpio) : (emit u t).gpio = (emit u s).gpio := by
  cases u <;>
    simp [emit, drvSda, relSda, drvScl, relScl, relBoth, clrBoth, waitQ, waitH, delayFor, drawSample, logMicro, gpioDirSet, gpioDirClr,
      gpioOutClr, setPortRegs, portRegs, hp, ha, hc, hg]

theorem emitAll_gpio_congr (us : List Micro) {s t : State} (hp : t.port = s.port) (ha : t.sda = s.sda) (hc : t.scl = s.scl)
    (hg : t.gpio = s.gpio) : (emitAll us t).gpio = (emitAll us s).gpio := by
  induction us generalizing s t with
  | nil => exact hg
  | cons u us ih => exact ih (by simp [hp]) (by simp [ha]) (by simp [hc]) (emit_gpio_congr u hp ha hc hg)

theorem sameBus_emit (u : Micro) {s t : State} (h : SameBus s t) : SameBus (emit u s) (emit u t) where
  port := by rw [emit_port, emit_port, h.port]
  sda := by rw [emit_sda, emit_sda, h.sda]
  scl := by rw [emit_scl, emit_scl, h.scl]
  bound := by rw [emit_bound, emit_bound, h.bound]
  trace := by rw [emit_trace, emit_trace, h.trace]
  gpio := emit_gpio_congr u h.port h.sda h.scl h.gpio
  host := by rw [emit_host, emit_host, h.host]
  rst := by rw [emit_rst, emit_rst, h.rst]
  extLow := by rw [emit_extLow, emit_extLow, h.extLow]
  samples := by rw [emit_samples, emit_samples, h.samples]
  delay := by
    cases u with
    | waitQ => rw [emit_waitQ_eq, emit_waitQ_eq]
    | waitH => rw [emit_waitH_eq, emit_waitH_eq]
    | _ => exact h.delay
  cycles := by rw [emit_cycles, emit_cycles, h.cycles]

theorem sameBus_emitAll (us : List Micro) {s t : State} (h : SameBus s t) : SameBus (emitAll us s) (emitAll us t) := by
  induction us generalizing s t with
  | nil => exact h
  | cons u us ih => exact ih (sameBus_emit u h)

section

variable {w : Nat} (sda scl : BitVec w)

/-- DIR bits outside the session's two masks are left alone (R20). -/
theorem dir_foldl_outside (us : List Micro) (r : PortRegs w) :
    (us.foldl (fun r u => regsAfter sda scl u r) r).dir &&& ~~~(sda ||| scl) = r.dir &&& ~~~(sda ||| scl) := by
  apply BitVec.eq_of_getLsbD_eq
  intro i hi
  rw [BitVec.getLsbD_and, BitVec.getLsbD_and, dir_foldl _ _ _ _ _ hi]
  by_cases hm : sda.getLsbD i = false ∧ scl.getLsbD i = false
  · rw [hm.1, hm.2, dirBit_other]
  · have hout : (~~~(sda ||| scl)).getLsbD i = false := by
      simpa [hi, or_iff_not_imp_left] using hm
    rw [hout, Bool.and_false, Bool.and_false]

/-- OUT bits outside the session's two masks are left alone (R20). -/
theorem out_foldl_outside (us : List Micro) (r : PortRegs w) :
    (us.foldl (fun r u => regsAfter sda scl u r) r).out &&& ~~~(sda ||| scl) = r.out &&& ~~~(sda ||| scl) := by
  induction us generalizing r with
  | nil => rfl
  | cons u us ih =>
    rw [List.foldl_cons, ih, regsAfter_out]
    split
    · rw [BitVec.and_assoc, BitVec.and_self]
    · rfl

/-- No OUT bit that was clear is set (R90). -/
theorem out_foldl_clear (us : List Micro) (m : BitVec w) {r : PortRegs w} (h : r.out &&& m = 0) :
    (us.foldl (fun r u => regsAfter sda scl u r) r).out &&& m = 0 := by
  induction us generalizing r with
  | nil => exact h
  | cons u us ih =>
    refine ih ?_
    rw [regsAfter_out]
    split
    · rw [BitVec.and_assoc, BitVec.and_comm _ m, ← BitVec.and_assoc, h]
      exact BitVec.zero_and
    · exact h

end

theorem onlyPins_emitAll (us : List Micro) (s : State) : OnlyPins s.port (s.sda ||| s.scl) s (emitAll us s) := by
  refine ⟨fun q hq => ?_, ?_⟩
  · rw [portRegs_emitAll, if_neg hq]
  · rw [portRegs_emitAll, if_pos rfl]
    exact ⟨dir_foldl_outside _ _ us _, out_foldl_outside _ _ us _⟩

theorem out_emitAll_subset (us : List Micro) (s : State) (p : PortRef) :
    (portRegs (emitAll us s) p).out &&& ~~~(portRegs s p).out = 0 := by
  rw [portRegs_emitAll]
  split
  · next hp => exact hp ▸ out_foldl_clear _ _ us _ (BitVec.and_not_self _)
  · exact BitVec.and_not_self _

theorem sameOut_emitAll {us : List Micro} (h : .clrBoth ∉ us) (s : State) : SameOut s (emitAll us s) := by
  intro p
  rw [portRegs_emitAll]
  split
  · next hp => rw [hp, out_foldl _ _ us _ fun u hu e => h (e ▸ hu)]
  · rfl

/-! ### A run is a list of micro-operations on the session -/

/-- SEQ is at no position of START. -/
def NotStart (s : State) : Prop := ∀ k, s.seq ≠ .start k

theorem notStart_nextWriteBytes (s : State) : NotStart (nextWriteBytes s) := by
  unfold nextWriteBytes
  split
  · nofun
  · split <;> nofun

theorem notStart_nextReadBytes (last : Bool) (s : State) : NotStart (nextReadBytes last s) := by
  cases last with
  | false =>
    simp only [nextReadBytes, beginIndexedRead, Bool.false_eq_true, if_false]
    split <;> nofun
  | true => nofun

/-- No other command goes over to START. -/
theorem notStart_microStep {s : State} (h : NotStart s) : NotStart (microStep s) := by
  unfold microStep
  split
  · exact h
  · next k e => exact absurd e (h k)
  · next k e => cases k <;> nofun
  · next k e => cases k <;> nofun
  · next k e =>
    exact writeByteStep_keeps (P := fun _ => True) (fun _ _ => id) (fun _ _ _ => id) (fun _ _ => id) (fun _ _ _ => nofun)
      (fun _ _ => nofun) k trivial
  · next k e =>
    exact readByteStep_keeps (P := fun _ => True) (fun _ _ => id) (fun _ _ _ => id) (fun _ _ _ => nofun)
      (fun _ _ => nofun) k trivial
  · next k e =>
    exact writeByteStep_keeps (P := fun _ => True) (fun _ _ => id) (fun _ _ _ => id) (fun _ _ => id) (fun _ _ _ => nofun)
      (fun x _ => notStart_nextWriteBytes x) k trivial
  · next last k e =>
    exact readByteStep_keeps (P := fun _ => True) (fun _ _ => id) (fun _ _ _ => id) (fun _ _ _ => nofun)
      (fun x _ => notStart_nextReadBytes last x) k trivial

/-- A run leaves the pins as some list of micro-operations does, with no CLR_BOTH outside START; with no reset to come it differs from
performing that list in control registers and buffer memory at most (R20, R46, R96, R202). -/
theorem run_emits (n : Nat) (s : State) : ∃ us, (run n s).gpio = (emitAll us s).gpio ∧ (NotStart s → .clrBoth ∉ us) ∧
    (s.rst = [] → SameBus (emitAll us s) (run n s)) := by
  have hstay (s t : State) (hg : t.gpio = s.gpio) (hs : s.rst = [] → SameBus s t) : ∃ us, t.gpio = (emitAll us s).gpio ∧
      (NotStart s → .clrBoth ∉ us) ∧ (s.rst = [] → SameBus (emitAll us s) t) := ⟨[], hg, fun _ => by simp, hs⟩
  induction n generalizing s with
  | zero => exact hstay s s rfl fun _ => .refl s
  | succ n ih =>
    by_cases hq : s.seq = .idle
    · rw [run_idle _ hq]
      exact hstay s s rfl fun _ => .refl s
    · rw [run, if_neg hq]
      obtain ⟨hr, e⟩ | ⟨r, hr, e⟩ := engineStep_cases s
      · rw [e, run_idle _ rfl]
        exact hstay s _ rfl fun h => absurd h hr
      · rw [e]
        obtain ⟨u, hu, -, hstart⟩ := microStep_emits (s := { s with rst := r }) hq
        obtain ⟨us, hg, hclr, hbus⟩ := ih (microStep { s with rst := r })
        refine ⟨u :: us, ?_, fun hn => ?_, fun h => ?_⟩
        · rw [hg, emitAll_gpio_congr us hu.port hu.sda hu.scl hu.gpio]
          exact emitAll_gpio_congr (u :: us) (s := s) rfl rfl rfl rfl
        · rw [List.mem_cons, not_or]
          refine ⟨fun hc => ?_, hclr (notStart_microStep hn)⟩
          obtain ⟨k, hk⟩ := hstart (.inr hc.symm)
          exact hn k hk
        · obtain rfl := hr h
          have hsame : SameBus s { s with rst := [] } := ⟨rfl, rfl, rfl, rfl, rfl, rfl, rfl, h.symm, rfl, rfl, rfl, rfl⟩
          exact (sameBus_emitAll us ((sameBus_emit u hsame).trans hu)).trans (hbus (hu.rst.trans (emit_rst _ _)))

/-! ### A command is a list of micro-operations on its session -/

/-- The session a command works in: START's operands, else the session that is bound (R99, R111 step 1). -/
def sessionOf : Instr → State → State
  | .start p a b, s   => bindSession p a b s
  | .restart, s       => s
  | .stop, s          => s
  | .writeByte _, s   => s
  | .readByte _, s    => s
  | .writeBytes _ _, s => s
  | .readBytes _ _, s  => s

theorem sessionOf_notStart {i : Instr} (h : isStart i = false) (s : State) : sessionOf i s = s := by
  cases i with
  | start p a b => cases h
  | _ => rfl

theorem sessionOf_port (i : Instr) (s : State) : (sessionOf i s).port = (pinsOf s i).1 := by cases i <;> rfl

theorem sessionOf_pins (i : Instr) (s : State) : (sessionOf i s).sda ||| (sessionOf i s).scl = (pinsOf s i).2 := by cases i <;> rfl

theorem sessionOf_gpio (i : Instr) (s : State) : (sessionOf i s).gpio = s.gpio := by cases i <;> rfl

theorem sessionOf_rst (i : Instr) (s : State) : (sessionOf i s).rst = s.rst := by cases i <;> rfl

theorem sessionOf_trace (i : Instr) (s : State) : (sessionOf i s).trace = s.trace := by cases i <;> rfl

theorem sessionOf_bound (i : Instr) {s : State} (h : s.bound = true) : (sessionOf i s).bound = true := by
  cases i with
  | start p a b => rfl
  | _ => exact h

theorem sameBus_entryOf (i : Instr) (s : State) : SameBus (sessionOf i s) (entryOf i s) := by
  cases i with
  | readBytes buf len =>
    exact (sameBus_of (s := s) (t := { captureBuffer buf len (accept s) with idx := 0 }) rfl).trans (sameBus_beginIndexedRead _)
  | _ => exact sameBus_of rfl

theorem notStart_entryOf {i : Instr} (h : isStart i = false) (s : State) : NotStart (entryOf i s) := by
  cases i with
  | start p a b => cases h
  | readBytes buf len =>
    simp only [entryOf, beginIndexedRead]
    split <;> nofun
  | _ => nofun

theorem ReturnsAtOnce.notStart {i : Instr} {s t : State} (h : ReturnsAtOnce i s t) : isStart i = false := by
  obtain ⟨_, _, rfl | rfl⟩ := h.loops <;> rfl

/-- A command that answers a next state leaves the pins as some list of micro-operations on its session does, with no CLR_BOTH but in
START; with no reset to come it was ignored, or differs from performing that list in control registers and buffer memory at most. -/
theorem exec_emits {i : Instr} {s t : State} (h : exec i s = .next t) :
    ∃ us, t.gpio = (emitAll us (sessionOf i s)).gpio ∧ (isStart i = false → .clrBoth ∉ us) ∧
      (s.rst = [] → t = s ∨ SameBus (emitAll us (sessionOf i s)) t) := by
  obtain ⟨-, rfl⟩ | ⟨-, hr | ⟨-, rfl⟩⟩ := exec_next_cases h
  · exact ⟨[], (sessionOf_gpio i t).symm, fun _ => by simp, fun _ => .inl rfl⟩
  · refine ⟨[], ?_, fun _ => by simp, fun _ => .inr ?_⟩
    · exact hr.bus.gpio.trans (sessionOf_gpio i s).symm
    · rw [sessionOf_notStart hr.notStart]; exact hr.bus
  · obtain ⟨us, hg, hclr, hbus⟩ := run_emits (mostMicros i) (entryOf i s)
    have he := sameBus_entryOf i s
    refine ⟨us, hg.trans (emitAll_gpio_congr us he.port he.sda he.scl he.gpio),
      fun hi => hclr (notStart_entryOf hi s), fun h0 => .inr ?_⟩
    exact (sameBus_emitAll us he).trans (hbus (by rw [he.rst, sessionOf_rst, h0]))

/-! ### The rules of the whole machine -/

/-- Settles O33: every micro-operation works on the two masks of the command's session. -/
theorem onlySessionPinsChange : Obligations.OnlySessionPinsChange := by
  unfold Obligations.OnlySessionPinsChange
  intro i s t h
  obtain ⟨us, hg, -, -⟩ := exec_emits h
  have ho := onlyPins_emitAll us (sessionOf i s)
  rw [sessionOf_port, sessionOf_pins] at ho
  simpa only [OnlyPins, portRegs_congr hg, portRegs_congr (sessionOf_gpio i s)] using ho

/-- Settles O34: no micro-operation sets an OUT bit, and only START has a CLR_BOTH. -/
theorem outNeverSet : Obligations.OutNeverSet := by
  unfold Obligations.OutNeverSet
  intro i s t h
  obtain ⟨us, hg, hclr, -⟩ := exec_emits h
  refine ⟨fun p => ?_, fun hi p => ?_⟩
  · rw [portRegs_congr hg, ← portRegs_congr (sessionOf_gpio i s)]
    exact out_emitAll_subset us _ p
  · rw [portRegs_congr hg, sameOut_emitAll (hclr hi), portRegs_congr (sessionOf_gpio i s)]

/-- Settles O36: the list of micro-operations performed is what T has grown by. -/
theorem traceDecidesThePins : Obligations.TraceDecidesThePins := by
  unfold Obligations.TraceDecidesThePins
  intro i s t h0 h
  obtain ⟨us, hg, -, hbus⟩ := exec_emits h
  obtain rfl | hb := hbus h0
  · exact ⟨[], by simp, rfl⟩
  · refine ⟨us, by rw [hb.trace, emitAll_trace, sessionOf_trace], hg.trans (emitAll_gpio_congr us ?_ ?_ ?_ (sessionOf_gpio i s))⟩
    · rw [hb.port, emitAll_port]
    · rw [hb.sda, emitAll_sda]
    · rw [hb.scl, emitAll_scl]

/-- With no reset to come a command other than START keeps the session, every OUT register and the inputs, and works on its two pins. -/
theorem exec_frame {i : Instr} {s t : State} (hi : isStart i = false) (h0 : s.rst = []) (h : exec i s = .next t) :
    SameSession s t ∧ SameOut s t ∧ OnlyPins (pinsOf s i).1 (pinsOf s i).2 s t ∧ SameInputs s t := by
  obtain ⟨us, -, -, hbus⟩ := exec_emits h
  have hkept : SameSession s t ∧ SameInputs s t := by
    obtain rfl | hb := hbus h0
    · exact ⟨⟨rfl, rfl, rfl, rfl⟩, rfl, rfl⟩
    · rw [sessionOf_notStart hi] at hb
      exact ⟨⟨by rw [hb.port, emitAll_port], by rw [hb.sda, emitAll_sda], by rw [hb.scl, emitAll_scl],
        by rw [hb.bound, emitAll_bound]⟩, by rw [hb.host, emitAll_host], by rw [hb.rst, emitAll_rst]⟩
  exact ⟨hkept.1, (outNeverSet i s t h).2 hi, onlySessionPinsChange i s t h, hkept.2⟩

/-- A command keeps BOUND = 1 (R14). -/
theorem exec_keeps_bound {i : Instr} {s t : State} (h0 : s.rst = []) (hb : s.bound = true) (h : exec i s = .next t) :
    t.bound = true := by
  obtain ⟨us, -, -, hbus⟩ := exec_emits h
  obtain rfl | hs := hbus h0
  · exact hb
  · rw [hs.bound, emitAll_bound, sessionOf_bound i hb]

/-- Settles O35: a micro-step and an idle step leave the session, a command other than START leaves it, and START binds one. -/
theorem sessionLastsUntilReset : Obligations.SessionLastsUntilReset := by
  unfold Obligations.SessionLastsUntilReset
  intro s t hinv h0 hstep hb
  obtain ⟨hr, -⟩ | ⟨-, hbusy, -, rfl⟩ | ⟨-, -, rfl⟩ | ⟨hbusy, cw, ops, i, hp, hd, he⟩ := step_next_cases hstep
  · exact absurd hr (by simp [resetDue_noReset h0])
  · obtain ⟨u, hu, -, -⟩ := microStep_emits (hinv.busy.1 hbusy)
    have hsame : (microStep s).port = s.port ∧ (microStep s).sda = s.sda ∧ (microStep s).scl = s.scl :=
      ⟨by rw [hu.port, emit_port], by rw [hu.sda, emit_sda], by rw [hu.scl, emit_scl]⟩
    rw [engineStep_noReset h0]
    exact ⟨by rw [hu.bound, emit_bound, hb], fun _ => hsame, fun _ => hsame⟩
  · exact ⟨hb, fun _ => ⟨rfl, rfl, rfl⟩, fun _ => ⟨rfl, rfl, rfl⟩⟩
  · refine ⟨exec_keeps_bound (s := popHost s) h0 hb he, fun hbt => absurd hbt (by simp [hbusy]), fun hns => ?_⟩
    obtain ⟨⟨hport, hsda, hscl, -⟩, -⟩ := exec_frame (s := popHost s) (hns cw ops i hp hd) h0 he
    exact ⟨hport, hsda, hscl⟩

/-! ### The machine's own steps -/

/-- A step in mid-command is the engine's step: the reset that is due, or the next micro-operation (R19, R202). -/
theorem step_busy {s : State} (hb : s.busy = true) (hs : s.bound = true) : step s = .next (engineStep s) := by
  by_cases hr : resetDue s = true
  · rw [step, engineStep, if_pos hr, if_pos hr]
  · rw [step, if_neg hr, if_pos hb, continueCommand, if_pos hs]

theorem core_run_succ {n : Nat} {s t : Sys2Proof.core.State} (h : Sys2Proof.core.step s = .next t) :
    Host.Core.run Sys2Proof.core (n + 1) s = Host.Core.run Sys2Proof.core n t := by rw [Host.Core.run, h]

/-- Settles O38, by induction on the number of steps: each is one step of the engine, which keeps the invariant. -/
theorem stepsComposeTheCommand : Obligations.StepsComposeTheCommand := by
  unfold Obligations.StepsComposeTheCommand
  intro n
  induction n with
  | zero => intro s _ _; rfl
  | succ n ih =>
    intro s hinv hbusy
    have hb : s.busy = true := hbusy 0 (Nat.succ_pos n)
    have hq : s.seq ≠ .idle := hinv.busy.1 hb
    have hrun (m : Nat) : run (m + 1) s = run m (engineStep s) := by rw [run, if_neg hq]
    rw [hrun]
    exact (core_run_succ (step_busy hb (hinv.session hb))).trans
      (ih _ (inv_engineStep hinv hq) fun m hm => hrun m ▸ hbusy (m + 1) (Nat.succ_lt_succ hm))

end Sys2Proof.Machine

/-! SUPPORT. How each command ends, and what it leaves unchanged (R20, R36): the conditions and the single bytes from Laws/Exec.lean, the
loops of WRITEBYTES and READBYTES run to their return here (R151, R154). -/

namespace Sys2Proof.Machine

open Sys2Proof.Safety

/-! ### The loops to their return -/

/-- Control registers that WRITEBYTES forgets at its return do not matter before it. -/
theorem finishWriteBytes_emitAll (v : Ret) (us : List Micro) (a : Bool) (n : Len) (s : State) :
    finishWriteBytes v (emitAll us (setAckl a (setIdx n s))) = finishWriteBytes v (emitAll us s) := by
  rw [emitAll_setAckl, emitAll_setIdx]
  rfl

/-- WRITEBYTES from the head of a byte, with `m` bytes still to send at most: it returns a count after some list of micro-operations
(R151). -/
theorem run_writeBytes (m : Nat) {s : State} (h : s.rst = []) (hm : s.idx.toNat + m = s.lenr.toNat) (h0 : 0 < m) :
    ∃ v us, run (48 * m) (beginIndexedWrite s) = finishWriteBytes v (emitAll us s) := by
  induction m generalizing s with
  | zero => exact absurd h0 (Nat.lt_irrefl 0)
  | succ m ih =>
    rw [show 48 * (m + 1) = 48 + 48 * m by omega, run_indexedWrite h]
    generalize writeByteTrace (loadIndexed s) (sdaAnswer s 0) = us
    have hlt : s.idx < s.lenr := by rw [BitVec.lt_def]; omega
    cases sdaAnswer s 0 with
    | true =>
      rw [nextWriteBytes_nack, run_idle _ rfl]
      exact ⟨_, us, rfl⟩
    | false =>
      by_cases hn : s.idx + 1 < s.lenr
      · rw [nextWriteBytes_more _ _ _ _ (by simpa using hn), emitAll_idx]
        have hidx := toNat_succ_of_lt hlt
        have hn' := BitVec.lt_def.1 hn
        obtain ⟨v, vs, e⟩ := ih (s := setAckl false (setIdx (s.idx + 1) (emitAll us s))) (by simpa [setAckl, setIdx] using h)
          (by simp only [setAckl, setIdx, emitAll_lenr]; omega) (by omega)
        exact ⟨v, us ++ vs, by rw [e, finishWriteBytes_emitAll, emitAll_append]⟩
      · rw [nextWriteBytes_last _ _ _ _ (by simpa using hn), run_idle _ rfl]
        exact ⟨_, us, rfl⟩

/-- Control registers that READBYTES forgets at its return do not matter before it. -/
theorem finishReadBytes_control (a : Addr) (v d : Byte) (c : BitVec 3) (b : Bool) (n : Len) (s : State) :
    finishReadBytes (memWrite a v (setBits d c (setNackf b (setIdx n s)))) = finishReadBytes (memWrite a v s) := by
  simp only [finishReadBytes, returnValue, forgetIndex, forgetOperands, forgetRead, memWrite, setBits, setNackf, setIdx]

/-- READBYTES from the head of its first byte to its return: the bytes received, stored in ascending order (R154). -/
theorem run_readBytes {s : State} (h : s.rst = []) (hi : s.idx = 0) (hl : s.lenr ≠ 0) :
    run (47 * s.lenr.toNat) (beginIndexedRead s) =
      finishReadBytes (stored (sentByte s) s.lenr.toNat (emitAll (readTrace (sentByte s) s.lenr.toNat) s)) := by
  obtain ⟨m, hm⟩ : ∃ m, s.lenr.toNat = m + 1 :=
    Nat.exists_eq_succ_of_ne_zero fun e => hl (BitVec.eq_of_toNat_eq (by simpa using e))
  rw [hm, show 47 * (m + 1) = 47 * m + 47 by omega]
  obtain ⟨d, c, b, e⟩ := run_received m 47 h hi (by omega)
  rw [e]
  generalize hX : setBits d c (setNackf b (received m s)) = X
  have hXi : X.idx = BitVec.ofNat _ m := by rw [← hX]; rfl
  have hXl : X.lenr = s.lenr := by
    rw [← hX]; exact (stored_lenr (sentByte s) m _).trans (emitAll_lenr _ _)
  have hXb : X.bufr = s.bufr := by
    rw [← hX]; exact (stored_bufr (sentByte s) m _).trans (emitAll_bufr _ _)
  have hXr : X.rst = [] := by
    rw [← hX]; exact (stored_rst (sentByte s) m _).trans ((emitAll_rst _ _).trans h)
  have hXs : sentByte X 0 = sentByte s m := by
    rw [← hX]
    exact (sentByte_stored (sentByte s) m 0 _).trans (sentByte_emitAll _ s m 0 (samples_receivedTrace _ _))
  have hlast : ¬ X.idx < X.lenr - 1 := by
    rw [hXi, hXl, index_lt_last (by omega)]; omega
  rw [beginIndexedRead_nack hlast, run_readLast hXr 1, nextReadBytes_last, run_idle _ rfl, hXs, emitAll_bufr, emitAll_idx, hXb, hXi,
    toNat_index (n := s.lenr) (by omega), readTrace_succ, emitAll_append, stored_succ, stored_bufr, emitAll_bufr, emitAll_bufr,
    ← emitAll_stored, ← hX, received, emitAll_setBits, emitAll_setNackf, emitAll_setIdx, finishReadBytes_control]

/-! ### How each command ends -/

/-- START, RESTART and STOP: ignored, or micro-operations without a sample on the accepted session, then the return (R111, R113, R115). -/
theorem exec_condition_ends {i : Instr} {s t : State} (hi : (∃ p a b, i = .start p a b) ∨ i = .restart ∨ i = .stop) (h0 : s.rst = [])
    (h : exec i s = .next t) :
    t = s ∨ ∃ us, (us.map samplesOf).sum = 0 ∧ t = returnNone (emitAll us (sessionOf i (accept s))) := by
  obtain ⟨-, rfl⟩ | ⟨-, hr | ⟨-, rfl⟩⟩ := exec_next_cases h
  · exact .inl rfl
  · obtain ⟨buf, len, e⟩ := hr.loops
    obtain ⟨p, a, b, rfl⟩ | rfl | rfl := hi <;> simp at e
  · right
    obtain ⟨p, a, b, rfl⟩ | rfl | rfl := hi
    · exact ⟨startTrace, rfl, run_start (s := bindSession p a b (accept s)) h0⟩
    · exact ⟨restartTrace, rfl, run_restart (s := accept s) h0⟩
    · exact ⟨stopTrace, rfl, run_stop (s := accept s) h0⟩

/-- WRITEBYTE: ignored, or micro-operations on the accepted state, then a return that forgets DATA, BITCNT and ACKL (R18, R131). -/
theorem exec_writeByte_ends {x : Byte} {s t : State} (h0 : s.rst = []) (h : exec (.writeByte x) s = .next t) :
    t = s ∨ ∃ v us, t = returnValue v (forgetWrite (emitAll us (accept s))) := by
  obtain ⟨-, rfl⟩ | ⟨hb, hr | ⟨ha, -⟩⟩ := exec_next_cases h
  · exact .inl rfl
  · obtain ⟨buf, len, e⟩ := hr.loops
    simp at e
  · rw [exec_writeByte ⟨hb, h0⟩ ha] at h
    cases h
    exact .inr ⟨_, _, rfl⟩

/-- READBYTE: ignored, or micro-operations on the accepted state, then a return that forgets DATA, BITCNT and NACKF (R18, R135). -/
theorem exec_readByte_ends {n : Bool} {s t : State} (h0 : s.rst = []) (h : exec (.readByte n) s = .next t) :
    t = s ∨ ∃ v us, t = returnValue v (forgetRead (emitAll us (accept s))) := by
  obtain ⟨-, rfl⟩ | ⟨hb, hr | ⟨ha, -⟩⟩ := exec_next_cases h
  · exact .inl rfl
  · obtain ⟨buf, len, e⟩ := hr.loops
    simp at e
  · rw [exec_readByte ⟨hb, h0⟩ ha] at h
    cases h
    exact .inr ⟨_, _, rfl⟩

/-- WRITEBYTES: ignored, returned at once, or micro-operations on the captured operands, then the return of a count (R151). -/
theorem exec_writeBytes_ends {buf : Addr} {len : Len} {s t : State} (h0 : s.rst = []) (h : exec (.writeBytes buf len) s = .next t) :
    t = s ∨ ReturnsAtOnce (.writeBytes buf len) s t ∨
      ∃ v us, t = finishWriteBytes v (emitAll us (setIdx 0 (captureBuffer buf len (accept s)))) := by
  obtain ⟨-, rfl⟩ | ⟨-, hr | ⟨⟨-, -, hl⟩, rfl⟩⟩ := exec_next_cases h
  · exact .inl rfl
  · exact .inr (.inl hr)
  · exact .inr (.inr (run_writeBytes len.toNat (s := setIdx 0 (captureBuffer buf len (accept s))) h0 (by simp [setIdx])
      (BitVec.lt_def.1 (zero_lt_of_ne_zero hl))))

/-- READBYTES: ignored, returned at once, or micro-operations on the captured operands of a buffer that is not null, its `len` bytes
stored, then the return (R154). -/
theorem exec_readBytes_ends {buf : Addr} {len : Len} {s t : State} (h0 : s.rst = []) (h : exec (.readBytes buf len) s = .next t) :
    t = s ∨ ReturnsAtOnce (.readBytes buf len) s t ∨
      (buf ≠ nullAddr ∧ ∃ f us,
        t = finishReadBytes (stored f len.toNat (emitAll us (setIdx 0 (captureBuffer buf len (accept s)))))) := by
  obtain ⟨-, rfl⟩ | ⟨-, hr | ⟨⟨-, hn, hl, -⟩, rfl⟩⟩ := exec_next_cases h
  · exact .inl rfl
  · exact .inr (.inl hr)
  · exact .inr (.inr ⟨hn, _, _, run_readBytes (s := setIdx 0 (captureBuffer buf len (accept s))) h0 rfl hl⟩)

/-! ### The frames -/

/-- Memory, the working registers and the environment's words, which no condition touches. -/
theorem condition_frame {i : Instr} {s t : State} (hi : (∃ p a b, i = .start p a b) ∨ i = .restart ∨ i = .stop) (h0 : s.rst = [])
    (h : exec i s = .next t) : SameMemory s t ∧ SameByteRegs s t ∧ SameBuffer s t ∧ NoSample s t ∧ SameInputs s t := by
  obtain rfl | ⟨us, hus, rfl⟩ := exec_condition_ends hi h0 h
  · simp [SameMemory, SameByteRegs, SameBuffer, NoSample, SameInputs]
  · obtain ⟨p, a, b, rfl⟩ | rfl | rfl := hi <;>
      simp [SameMemory, SameByteRegs, SameBuffer, NoSample, SameInputs, memRead, sessionOf, hus]

/-- Settles O29: START's micro-operations touch the two bits of its masks, and its return no working register. -/
theorem startFrame : Obligations.StartFrame := by
  unfold Obligations.StartFrame
  intro s p a b t h0 h
  obtain ⟨hmem, hbytes, hbuf, hsample, hin⟩ := condition_frame (.inl ⟨p, a, b, rfl⟩) h0 h
  exact ⟨hmem, hbytes, hbuf, onlySessionPinsChange _ s t h, hsample, hin⟩

/-- Settles O30: the frame every command but START has, and what no condition touches. -/
theorem restartStopFrame : Obligations.RestartStopFrame := by
  unfold Obligations.RestartStopFrame
  intro i s t hi h0 h
  obtain ⟨hmem, hbytes, hbuf, hsample, hin⟩ := condition_frame (.inr hi) h0 h
  have hpins : isStart i = false ∧ pinsOf s i = (s.port, s.sda ||| s.scl) := by
    obtain rfl | rfl := hi <;> exact ⟨rfl, rfl⟩
  obtain ⟨hsess, hout, honly, -⟩ := exec_frame hpins.1 h0 h
  rw [hpins.2] at honly
  exact ⟨hsess, hmem, hout, hbytes, hbuf, honly, hsample, hin⟩

/-- Settles O31: neither loop nor body of a write stores to memory or sets NACKF. -/
theorem writeFrame : Obligations.WriteFrame := by
  unfold Obligations.WriteFrame
  intro s t h0
  constructor
  · intro v h
    obtain ⟨hsess, hout, honly, hin⟩ := exec_frame rfl h0 h
    have hkept : SameMemory s t ∧ t.nackf = s.nackf ∧ SameBuffer s t := by
      obtain rfl | ⟨r, us, rfl⟩ := exec_writeByte_ends h0 h
      · exact ⟨fun _ => rfl, rfl, rfl, rfl, rfl⟩
      · simp [SameMemory, SameBuffer, memRead, forgetWrite]
    obtain ⟨hmem, hnack, hbuf⟩ := hkept
    exact ⟨hsess, hmem, hout, hnack, hbuf, honly, hin⟩
  · intro buf len h
    obtain ⟨hsess, hout, honly, hin⟩ := exec_frame rfl h0 h
    have hkept : SameMemory s t ∧ t.nackf = s.nackf := by
      obtain rfl | hr | ⟨v, us, rfl⟩ := exec_writeBytes_ends h0 h
      · exact ⟨fun _ => rfl, rfl⟩
      · obtain ⟨-, -, -, hnack⟩ := hr.bytes
        exact ⟨fun a => by rw [memRead, memRead, hr.mem], hnack⟩
      · simp [SameMemory, memRead, finishWriteBytes, forgetWrite, forgetOperands, forgetIndex, setIdx]
    exact ⟨hsess, hkept.1, hout, hkept.2, honly, hin⟩

/-- Settles O32: no read sets ACKL, and READBYTES stores at the effective addresses of its indexes only. -/
theorem readFrame : Obligations.ReadFrame := by
  unfold Obligations.ReadFrame
  intro s t h0
  constructor
  · intro n h
    obtain ⟨hsess, hout, honly, hin⟩ := exec_frame rfl h0 h
    have hkept : SameMemory s t ∧ t.ackl = s.ackl ∧ SameBuffer s t := by
      obtain rfl | ⟨r, us, rfl⟩ := exec_readByte_ends h0 h
      · exact ⟨fun _ => rfl, rfl, rfl, rfl, rfl⟩
      · simp [SameMemory, SameBuffer, memRead, forgetRead]
    obtain ⟨hmem, hack, hbuf⟩ := hkept
    exact ⟨hsess, hmem, hout, hack, hbuf, honly, hin⟩
  · intro buf len h
    obtain ⟨hsess, hout, honly, hin⟩ := exec_frame rfl h0 h
    refine ⟨hsess, hout, ?_⟩
    obtain rfl | hr | ⟨hn, f, us, rfl⟩ := exec_readBytes_ends h0 h
    · exact ⟨rfl, honly, hin, fun _ _ => rfl, fun _ _ => rfl⟩
    · have hmem : SameMemory s t := fun a => by rw [memRead, memRead, hr.mem]
      obtain ⟨-, -, hack, -⟩ := hr.bytes
      exact ⟨hack, honly, hin, fun a _ => hmem a, fun _ => hmem⟩
    · refine ⟨?_, honly, hin, fun a ha => ?_, fun e => absurd e hn⟩
      · have hack : ∀ x, (finishReadBytes (stored f len.toNat x)).ackl = x.ackl := fun x => by rw [stored_spec]; rfl
        rw [hack, emitAll_ackl]
        rfl
      · have hother : ∀ x : State, x.bufr = buf → memRead (finishReadBytes (stored f len.toNat x)) a = memRead x a := fun x hx => by
          refine memRead_stored_other f len.toNat x fun j hj => ?_
          have hne := ha (BitVec.ofNat _ j) (by rw [BitVec.lt_def, toNat_index (n := len) hj.le]; exact hj)
          rwa [effectiveAddr, toNat_index (n := len) hj.le, ← hx] at hne
        rw [hother _ (emitAll_bufr _ _), memRead, emitAll_mem]
        rfl

/-! ### The GPIO operations and the line level -/

/-- Settles O13: a write to the registers of a port, read back at that port and at another (R21, R22, R23). -/
theorem gpioOperations : Obligations.GpioOperations := by
  unfold Obligations.GpioOperations
  intro s p m
  have hsame : ∀ r, portRegs (setPortRegs p r s) p = r := fun r => by rw [portRegs_setPortRegs, if_pos rfl]
  have hother : ∀ r q, q ≠ p → portRegs (setPortRegs p r s) q = portRegs s q := fun r q hq => by
    rw [portRegs_setPortRegs, if_neg hq]
  exact ⟨hsame _, hsame _, hsame _, fun q hq => ⟨hother _ q hq, hother _ q hq, hother _ q hq⟩⟩

/-- One bit of IN is the level of its pin, by the four lines of R26. -/
theorem getLsbD_inWord {w : Nat} (r : PortRegs w) (x y : BitVec w) {i : Nat} (hi : i < w) :
    (inWord r x y).getLsbD i = lineLevel (r.dir.getLsbD i) (r.out.getLsbD i) (x.getLsbD i) (y.getLsbD i) := by
  simp only [inWord, lineLevel, BitVec.getLsbD_or, BitVec.getLsbD_and, BitVec.getLsbD_not, hi, decide_true, Bool.true_and]
  generalize r.dir.getLsbD i = d, r.out.getLsbD i = o, x.getLsbD i = e, y.getLsbD i = c
  revert d o e c
  decide

/-- Settles O14: the bit of IN is the line level, whose lines R26 gives for each case of DIR, OUT and the environment. -/
theorem inFollowsLineLevel : Obligations.InFollowsLineLevel := by
  unfold Obligations.InFollowsLineLevel
  intro w r x y i hi
  rw [getLsbD_inWord r x y hi]
  refine ⟨rfl, fun hd ho => ?_, fun hd => ?_, fun hd ho he => ?_⟩
  · simp [lineLevel, hd, ho]
  · simp [lineLevel, hd]
  · simp [lineLevel, hd, ho, he]

end Sys2Proof.Machine

/-! SUPPORT. The bytes of WRITEBYTES counted, the returns of the loops with no bus activity, and where a READBYTES buffer may lie (R53 to
R55, R151 to R156). -/

namespace Sys2Proof.Machine

open Sys2Proof.Safety

/-! ### Returns with no bus activity (R54) -/

theorem not_isNull {buf : Addr} (hn : buf ≠ nullAddr) : ¬ isNull buf = true := by simpa [isNull] using hn

theorem exec_writeBytes_null {s : State} (hb : s.busy = false) (len : Len) : exec (.writeBytes nullAddr len) s =
    .next (returnValue (retCount 0) (forgetOperands (captureBuffer nullAddr len (accept s)))) := by
  simp [exec, execWriteBytes, hb, isNull]

theorem exec_writeBytes_zero {s : State} (hb : s.busy = false) {buf : Addr} (hn : buf ≠ nullAddr) : exec (.writeBytes buf 0) s =
    .next (returnValue (retCount 0) (forgetIndex (forgetOperands (captureBuffer buf 0 (accept s))))) := by
  simp [exec, execWriteBytes, hb, isNull, hn]

theorem exec_readBytes_null {s : State} (hb : s.busy = false) (len : Len) : exec (.readBytes nullAddr len) s =
    .next (returnValue retReadFail (forgetOperands (captureBuffer nullAddr len (accept s)))) := by
  simp [exec, execReadBytes, hb, isNull]

theorem retCount_zero : retCount 0 = 0 := BitVec.setWidth_zero ..

/-- READ_FAIL is negative on the return bus too (R6, R67). -/
theorem retReadFail_neg : retReadFail.toInt < 0 := by
  have hw : 0 < Config.RET_BITS := Nat.lt_of_lt_of_le (by decide) Config.eight_le_RET_BITS
  have hp : (0 : Int) < 2 ^ (Config.RET_BITS - 1) := by positivity
  have he : retReadFail.toInt = -1 := 
    BitVec.toInt_ofInt_eq_self hw (n := -1) (by omega) (by omega)
  rw [he]
  decide

/-- Settles O25: a null buffer and a zero length each return before the session test; no field the statement names is written. -/
theorem writeBytesWithoutBus : Obligations.WriteBytesWithoutBus := by
  unfold Obligations.WriteBytesWithoutBus
  intro s buf len hb h
  by_cases hn : buf = nullAddr
  · subst hn
    exact ⟨_, exec_writeBytes_null hb len, retCount_zero, rfl, rfl, rfl, fun _ => rfl, fun _ => rfl, ⟨rfl, rfl, rfl, rfl⟩,
      ⟨rfl, rfl, rfl, rfl⟩, ⟨rfl, rfl⟩, rfl, fun _ => rfl⟩
  · obtain rfl := h.resolve_left hn
    exact ⟨_, exec_writeBytes_zero hb hn, retCount_zero, rfl, rfl, rfl, fun _ => rfl, fun _ => rfl, ⟨rfl, rfl, rfl, rfl⟩,
      ⟨rfl, rfl, rfl, rfl⟩, ⟨rfl, rfl⟩, rfl, fun e => absurd e hn⟩

/-- Settles O27: the null test comes first, and READ_FAIL is -1. -/
theorem readBytesNullFails : Obligations.ReadBytesNullFails := by
  unfold Obligations.ReadBytesNullFails
  intro s len hb
  exact ⟨_, exec_readBytes_null hb len, rfl, retReadFail_neg, rfl, rfl, rfl, fun _ => rfl, fun _ => rfl, ⟨rfl, rfl, rfl, rfl⟩,
    ⟨rfl, rfl, rfl, rfl⟩, ⟨rfl, rfl⟩, rfl, rfl⟩

/-! ### Where a READBYTES buffer may lie (R55, U9, U10) -/

/-- READBYTES in a session into a buffer: the test for the bound port's registers, then the test for memory (R42, R55). -/
theorem exec_readBytes_place {s : State} (hb : s.busy = false) (hs : s.bound = true) {buf : Addr} {len : Len} (hn : buf ≠ nullAddr)
    (hl : len ≠ 0) : exec (.readBytes buf len) s =
      if bufferOnPort s.port buf len then .refused .bufferOverPort
      else if bufferInMemory buf len then
        .next (run (mostMicros (.readBytes buf len)) (entryOf (.readBytes buf len) s))
      else .refused .bufferNotMemory := by
  simp only [exec, execReadBytes, hb, hs, if_neg (not_isNull hn), if_neg hl, Bool.false_eq_true, Bool.not_true, if_false]
  rfl

/-- Settles O46: the two tests on the place of the buffer, in the model's order. -/
theorem readBytesBufferPlace : Obligations.ReadBytesBufferPlace := by
  unfold Obligations.ReadBytesBufferPlace
  intro s buf len hb hs hn hl
  rw [exec_readBytes_place hb hs hn hl]
  simp only [← bufferOnPort_iff, ← bufferInMemory_iff]
  split
  · rfl
  · split
    · exact ⟨_, rfl⟩
    · rfl

/-! ### The count of WRITEBYTES -/

/-- The state of WRITEBYTES at the head of byte `m`, all bytes before it acknowledged; `a` is the last answer (R151). -/
def acked (a : Bool) (m : Nat) (s : State) : State :=
  setAckl a (setIdx (BitVec.ofNat _ m) (emitAll (ackedTrace (sourceByte s s.bufr) m) s))

theorem acked_rst (a : Bool) (m : Nat) (s : State) : (acked a m s).rst = s.rst := emitAll_rst _ _

theorem acked_idx (a : Bool) (m : Nat) (s : State) : (acked a m s).idx = BitVec.ofNat _ m := rfl

theorem acked_lenr (a : Bool) (m : Nat) (s : State) : (acked a m s).lenr = s.lenr := emitAll_lenr _ _

/-- Each byte before it has taken one sample. -/
theorem sdaAnswer_acked (a : Bool) (m : Nat) (s : State) : sdaAnswer (acked a m s) 0 = sdaAnswer s m := by
  change sdaAnswer (emitAll _ s) 0 = _
  rw [sdaAnswer_emitAll, samples_ackedTrace, Nat.add_zero]

/-- The byte is read after the 30 quarter-bits of each byte before it (R53). -/
theorem loadIndexed_acked (a : Bool) {m : Nat} {s : State} (hm : m < s.lenr.toNat) :
    loadIndexed (acked a m s) = sourceByte s s.bufr m := by
  have haddr : effectiveAddr (acked a m s) = s.bufr.plus m := by
    rw [effectiveAddr, acked_idx, toNat_index (n := s.lenr) hm.le]
    exact congrArg (Addr.plus · m) (emitAll_bufr _ s)
  rw [loadIndexed, haddr]
  exact loadByte_congr (s := { s with cycles := s.cycles + 30 * m * Config.QDEL_CYCLES }) (emitAll_mem _ s)
    ((emitAll_cycles _ s).trans (by rw [cycles_ackedTrace])) _

/-- WRITEBYTES that stops after byte `m`, which is refused or the last: the index of a refused byte is returned, else the length
(R151 steps 4d and 5). -/
theorem run_stopsAt {m : Nat} (n : Nat) {s : State} (h : s.rst = []) (h0 : s.idx = 0) (hm : m < s.lenr.toNat)
    (ha : ∀ j < m, sdaAnswer s j = false) (hstop : sdaAnswer s m = false → m + 1 = s.lenr.toNat) :
    run (48 * m + (48 + n)) (beginIndexedWrite s) =
      finishWriteBytes (retCount (if sdaAnswer s m then BitVec.ofNat _ m else s.lenr))
        (emitAll (ackedTrace (sourceByte s s.bufr) m ++ writeByteTrace (sourceByte s s.bufr m) (sdaAnswer s m)) s) := by
  obtain ⟨a, e⟩ := run_acked m (48 + n) h h0 hm ha
  change _ = run _ (beginIndexedWrite (acked a m s)) at e
  rw [e, run_indexedWrite ((acked_rst a m s).trans h), loadIndexed_acked a hm, sdaAnswer_acked, emitAll_append]
  cases hk : sdaAnswer s m with
  | true =>
    rw [nextWriteBytes_nack, run_idle _ rfl, emitAll_idx, acked_idx, acked, finishWriteBytes_emitAll]
    rfl
  | false =>
    have hlast : ¬ BitVec.ofNat Config.LEN_BITS m + 1 < s.lenr := by
      rw [next_index_lt hm, hstop hk]
      exact Nat.lt_irrefl _
    rw [nextWriteBytes_last _ _ _ _ (by rwa [emitAll_idx, acked_idx, emitAll_lenr, acked_lenr]), run_idle _ rfl, emitAll_lenr,
      acked_lenr, acked, finishWriteBytes_emitAll]
    rfl

/-- A byte leaves both pins driven, and so do bytes before it (R131, R153 (e), R178). -/
theorem regs_ackedTrace {w : Nat} (sda scl : BitVec w) (f : Nat → Byte) (n : Nat) (v : Byte) (a : Bool) (r : PortRegs w) :
    (ackedTrace f n ++ writeByteTrace v a).foldl (fun r u => regsAfter sda scl u r) r =
      { dir := r.dir ||| (sda ||| scl), out := r.out } := by
  induction n generalizing v a with
  | zero => exact regs_writeByte sda scl v a r
  | succ n ih =>
    rw [ackedTrace_succ, List.foldl_append, ih, regs_writeByte]
    exact PortRegs.eq_of (by rw [BitVec.or_assoc, BitVec.or_self]) rfl

/-- A count of at most `len` fits the return bus (R6, R67). -/
theorem count_lt {k : Nat} {len : Len} (hk : k ≤ len.toNat) : k < 2 ^ Config.RET_BITS :=
  Nat.lt_of_le_of_lt hk (Nat.lt_of_lt_of_le len.isLt (Nat.pow_le_pow_right (by decide) Config.lenBits_le_RET_BITS))

theorem retCount_eq (n : Len) : retCount n = BitVec.ofNat _ n.toNat := (BitVec.ofNat_toNat _ n).symm

/-- A count that stops below `n` at a refused byte only is `n` if none is refused. -/
theorem count_eq_of_acked {f : Nat → Bool} {k n : Nat} (hk : k ≤ n) (hn : k < n → f k = true) (h : ∀ j, j < n → f j = false) :
    k = n := by
  by_contra hne
  have hlt : k < n := Nat.lt_of_le_of_ne hk hne
  exact absurd ((h k hlt).symm.trans (hn hlt)) (by decide)

/-- The returned count is `len` exactly when every byte was acknowledged (R151, R152). -/
theorem count_eq_len_iff {f : Nat → Bool} {k : Nat} {len : Len} (hk : k ≤ len.toNat) (ha : ∀ j < k, f j = false)
    (hn : k < len.toNat → f k = true) {v : Ret} (hv : v = BitVec.ofNat _ k) :
    v = len.setWidth Config.RET_BITS ↔ ∀ j, j < len.toNat → f j = false := by
  have hcount : v = retCount len ↔ k = len.toNat := by
    rw [hv, retCount_eq, ← BitVec.toNat_inj, BitVec.toNat_ofNat, BitVec.toNat_ofNat, Nat.mod_eq_of_lt (count_lt hk),
      Nat.mod_eq_of_lt (count_lt le_rfl)]
  exact hcount.trans ⟨fun e => e ▸ ha, count_eq_of_acked hk hn⟩

/-- The index of the first byte that is refused, or of the last byte (R152). -/
theorem exists_stop (f : Nat → Bool) {n : Nat} (hn : 0 < n) :
    ∃ m < n, (∀ j < m, f j = false) ∧ (f m = false → m + 1 = n) := by
  induction n, hn using Nat.le_induction with
  | base => exact ⟨0, by simp⟩
  | succ n hn ih =>
    obtain ⟨m, hm, hf, hs⟩ := ih
    cases hfm : f m with
    | true => exact ⟨m, by omega, hf, by simp [hfm]⟩
    | false =>
      obtain rfl := hs hfm
      refine ⟨m + 1, by omega, fun j hj => ?_, fun _ => rfl⟩
      obtain hj | rfl := Nat.lt_succ_iff_lt_or_eq.1 hj
      · exact hf j hj
      · exact hfm

/-- WRITEBYTES in a session, with a buffer and a length of 1 or more, stops after some byte `m`, refused or the last (R151, R152). -/
theorem exec_writeBytes_stops {s : State} (hr : Ready s) (hb : s.bound = true) {buf : Addr} {len : Len} (hn : buf ≠ nullAddr)
    (hl : len ≠ 0) : ∃ m < len.toNat, (∀ j < m, sdaAnswer s j = false) ∧ (sdaAnswer s m = false → m + 1 = len.toNat) ∧
      exec (.writeBytes buf len) s = .next (finishWriteBytes (retCount (if sdaAnswer s m then BitVec.ofNat _ m else len))
        (emitAll (ackedTrace (sourceByte s buf) m ++ writeByteTrace (sourceByte s buf m) (sdaAnswer s m))
          (setIdx 0 (captureBuffer buf len (accept s))))) := by
  obtain ⟨m, hm, ha, hs⟩ := exists_stop (sdaAnswer s) (BitVec.lt_def.1 (zero_lt_of_ne_zero hl))
  refine ⟨m, hm, ha, hs, ?_⟩
  have hlen : 48 * len.toNat = 48 * m + (48 + 48 * (len.toNat - (m + 1))) := by omega
  simp only [exec, execWriteBytes, hr.1, hb, if_neg (not_isNull hn), if_neg hl, Bool.false_eq_true, if_false, if_true]
  rw [hlen]
  exact congrArg _ (run_stopsAt _ (s := setIdx 0 (captureBuffer buf len (accept s))) hr.2 rfl hm ha hs)

/-- The return of WRITEBYTES after bytes were sent leaves both pins driven (R153 (e), R178). -/
theorem portRegs_sent (r : Ret) (f : Nat → Byte) (m : Nat) (v : Byte) (a : Bool) (s : State) :
    portRegs (finishWriteBytes r (emitAll (ackedTrace f m ++ writeByteTrace v a) s)) s.port =
      { dir := (portRegs s s.port).dir ||| (s.sda ||| s.scl), out := (portRegs s s.port).out } := by
  change portRegs (emitAll _ s) s.port = _
  rw [portRegs_emitAll, if_pos rfl, regs_ackedTrace]

/-- Settles O24: WRITEBYTES stops after the first refused byte or the last one. -/
theorem writeBytesCountsAcknowledged : Obligations.WriteBytesCountsAcknowledged := by
  unfold Obligations.WriteBytesCountsAcknowledged
  intro s buf len hr hb hn
  by_cases hl : len = 0
  · subst hl
    have hlen : (0 : Len).toNat = 0 := BitVec.toNat_zero
    exact ⟨_, 0, exec_writeBytes_zero hr.1 hn, retCount_zero, Nat.zero_le _, nofun, fun h => absurd hlen h.ne',
      fun _ => (List.append_nil _).symm, count_eq_len_iff (Nat.zero_le _) nofun (fun h => absurd hlen h.ne') retCount_zero,
      fun h => absurd rfl h, rfl, rfl⟩
  · obtain ⟨m, hm, ha, hs, e⟩ := exec_writeBytes_stops hr hb hn hl
    cases hk : sdaAnswer s m with
    | true =>
      rw [hk, if_pos rfl] at e
      have hret : retCount (BitVec.ofNat _ m) = BitVec.ofNat _ m := by rw [retCount_eq, toNat_index hm.le]
      exact ⟨_, m, e, hret, hm.le, ha, fun _ => ⟨hk, emitAll_trace _ _⟩, fun h => absurd h hm.ne,
        count_eq_len_iff hm.le ha (fun _ => hk) hret, fun _ => portRegs_sent _ _ _ _ _ _, rfl, rfl⟩
    | false =>
      have hlen := hs hk
      have hall : ∀ j < len.toNat, sdaAnswer s j = false := fun j hj => by
        obtain h | rfl := Nat.lt_succ_iff_lt_or_eq.1 (hlen ▸ hj)
        · exact ha j h
        · exact hk
      rw [hk, if_neg (by decide)] at e
      refine ⟨_, len.toNat, e, retCount_eq len, le_rfl, hall, fun h => absurd h (lt_irrefl _), fun _ => ?_,
        count_eq_len_iff le_rfl hall (fun h => absurd h (lt_irrefl _)) (retCount_eq len), fun _ => portRegs_sent _ _ _ _ _ _,
        rfl, rfl⟩
      rw [← hlen, ackedTrace_succ]
      exact emitAll_trace _ _

/-- Settles O23: with no byte refused the count of O24 is `len`. -/
theorem writeBytesAllAcknowledged : Obligations.WriteBytesAllAcknowledged := by
  unfold Obligations.WriteBytesAllAcknowledged
  intro s buf len hr hb hn hl hall
  obtain ⟨t, k, he, -, hk, -, hless, hfull, hiff, hpins, hbusy, hseq⟩ := writeBytesCountsAcknowledged s buf len hr hb hn
  have hlen : k = len.toNat := count_eq_of_acked hk (fun h => (hless h).1) hall
  exact ⟨t, he, hiff.2 hall, hbusy, hseq, hlen ▸ hfull hlen, hpins hl⟩

end Sys2Proof.Machine

/-! SUPPORT. Two runs of a command against two environments whose words agree on the SDA mask: the block draws the same samples and goes
the same way (R44, R101, R141, R211). -/

namespace Sys2Proof.Machine

open Sys2Proof.Safety

/-- The same state with other words of the environment still to come. -/
def withWords (zs : List Mask) (s : State) : State := { s with extLow := zs }

/-- Two lists of words agree on the pins of a mask, at every listed sample. -/
def AgreeOn (m : Mask) (xs ys : List Mask) : Prop := xs.map (fun x => x &&& m) = ys.map (fun y => y &&& m)

theorem AgreeOn.drop {m : Mask} {xs ys : List Mask} (h : AgreeOn m xs ys) (k : Nat) : AgreeOn m (xs.drop k) (ys.drop k) := by
  unfold AgreeOn at h ⊢
  rw [List.map_drop, List.map_drop, h]

/-! ### The sample -/

/-- The bits of IN under a mask depend on the environment's bits under it only (R26). -/
theorem inWord_and_congr {w : Nat} (r : PortRegs w) {x y m : BitVec w} (h : x &&& m = y &&& m) (u : BitVec w) :
    inWord r x u &&& m = inWord r y u &&& m := by
  apply BitVec.eq_of_getLsbD_eq
  intro i hi
  have hb := congrArg (fun v : BitVec w => v.getLsbD i) h
  simp only [BitVec.getLsbD_and, getLsbD_inWord _ _ _ hi] at hb ⊢
  cases hm : m.getLsbD i with
  | false => simp
  | true =>
    rw [hm, Bool.and_true, Bool.and_true] at hb
    rw [hb]

theorem extWord_and_congr {s : State} {zs : List Mask} {m : Mask} (h : AgreeOn m s.extLow zs) :
    extWord (withWords zs s) 0 &&& m = extWord s 0 &&& m := by
  have h0 := congrArg (fun l => l[0]?) h
  simp only [List.getElem?_map] at h0
  change (zs[0]?).getD _ &&& m = (s.extLow[0]?).getD _ &&& m
  revert h0
  cases s.extLow[0]? <;> cases zs[0]? <;> simp [eq_comm, withWords]

/-- SMP_SDA returns the same bit (R97). -/
theorem sampledBit_withWords {s : State} {zs : List Mask} (h : AgreeOn s.sda s.extLow zs) :
    sampledBit (withWords zs s) = sampledBit s := by
  change sampleBit (inWord _ _ _) s.sda = sampleBit (inWord _ _ _) s.sda
  unfold sampleBit
  rw [inWord_and_congr _ (extWord_and_congr h)]
  rfl

/-! ### What takes no sample does not look at the environment's words -/

/-- An update that neither looks at the environment's words nor draws one. -/
def Blind (f : State → State) : Prop := ∀ zs s, f (withWords zs s) = withWords zs (f s)

theorem Blind.extLow {f : State → State} (h : Blind f) (s : State) : (f s).extLow = s.extLow :=
  (congrArg State.extLow (h s.extLow s)).trans rfl

theorem Blind.comp {f g : State → State} (hf : Blind f) (hg : Blind g) : Blind (f ∘ g) := fun zs s => by
  rw [Function.comp_apply, hg, hf, Function.comp_apply]

theorem Blind.ite {c : State → Prop} [DecidablePred c] {f g : State → State} (hc : ∀ zs s, c (withWords zs s) = c s) (hf : Blind f)
    (hg : Blind g) : Blind fun s => if c s then f s else g s := fun zs s => by
  simp only [hc, hf zs s, hg zs s, apply_ite (withWords zs)]

theorem blind_setSda (b : Bool) (zs : List Mask) (s : State) : setSda b (withWords zs s) = withWords zs (setSda b s) := by
  cases b <;> rfl

theorem blind_nextWriteBit (pos : WriteStep → Seq) : Blind (nextWriteBit pos) :=
  .ite (c := fun s => s.bitcnt = 0) (fun _ _ => rfl) (fun _ _ => rfl) (fun _ _ => rfl)

theorem blind_nextReadBit (pos : ReadStep → Seq) : Blind (nextReadBit pos) :=
  .ite (c := fun s => s.bitcnt = 0) (fun _ _ => rfl) (fun _ _ => rfl) (fun _ _ => rfl)

theorem blind_nextWriteBytes : Blind nextWriteBytes :=
  .ite (c := fun s => s.ackl = true) (fun _ _ => rfl) (fun _ _ => rfl)
    (.ite (c := fun s => s.idx + 1 < s.lenr) (fun _ _ => rfl) (fun _ _ => rfl) (fun _ _ => rfl))

theorem blind_beginIndexedRead : Blind beginIndexedRead :=
  .ite (c := fun s => s.idx < s.lenr - 1) (fun _ _ => rfl) (fun _ _ => rfl) (fun _ _ => rfl)

theorem blind_nextReadBytes (last : Bool) : Blind (nextReadBytes last) := by
  cases last with
  | false => exact blind_beginIndexedRead.comp (g := fun s => { storeIndexed s with idx := s.idx + 1 }) fun _ _ => rfl
  | true => exact fun _ _ => rfl

theorem blind_startStep (k : StartStep) : Blind (startStep k) := fun _ _ => by cases k <;> rfl

theorem blind_restartStep (k : RestartStep) : Blind (restartStep k) := fun _ _ => by cases k <;> rfl

theorem blind_stopStep (k : StopStep) : Blind (stopStep k) := fun _ _ => by cases k <;> rfl

/-- A WRITEBYTE body looks at the environment in its step 6 only (R131). -/
theorem blind_writeByteStep {pos : WriteStep → Seq} {done : State → State} (hd : Blind done) {k : WriteStep} (hk : k ≠ .w6) :
    Blind (writeByteStep pos done k) := fun zs s => by
  cases k with
  | w2a => exact congrArg (goTo (pos .w2b)) (blind_setSda _ zs s)
  | w2e => exact (blind_nextWriteBit pos).comp (g := drvScl) (fun _ _ => rfl) zs s
  | w6 => exact absurd rfl hk
  | w10 => exact hd.comp (g := waitH) (fun _ _ => rfl) zs s
  | _ => rfl

/-- A READBYTE body looks at the environment in its step 3c only (R135). -/
theorem blind_readByteStep {pos : ReadStep → Seq} {done : State → State} (hd : Blind done) {k : ReadStep} (hk : k ≠ .r3c) :
    Blind (readByteStep pos done k) := fun zs s => by
  cases k with
  | r3c => exact absurd rfl hk
  | r3e => exact (blind_nextReadBit pos).comp (g := drvScl) (fun _ _ => rfl) zs s
  | r9 => exact hd.comp (g := relSda) (fun _ _ => rfl) zs s
  | _ => rfl

/-! ### A step and a run against other words -/

/-- From `s`, and from `s` with the words `zs` to come, an update leads to states that differ in the words to come only, and the same
number of words has been drawn. -/
def DrawsAlike (f : State → State) (zs : List Mask) (s : State) : Prop :=
  ∃ k, f (withWords zs s) = withWords (zs.drop k) (f s) ∧ (f s).extLow = s.extLow.drop k

theorem Blind.drawsAlike {f : State → State} (h : Blind f) (zs : List Mask) (s : State) : DrawsAlike f zs s :=
  ⟨0, h zs s, h.extLow s⟩

theorem drawsAlike_writeByteStep {pos : WriteStep → Seq} {done : State → State} (hd : Blind done) (k : WriteStep) {zs : List Mask}
    {s : State} (h : AgreeOn s.sda s.extLow zs) : DrawsAlike (writeByteStep pos done k) zs s := by
  by_cases hk : k = .w6
  · subst hk
    refine ⟨1, ?_, rfl⟩
    simp only [writeByteStep, smpSda, sampledBit_withWords h]
    rfl
  · exact (blind_writeByteStep hd hk).drawsAlike zs s

theorem drawsAlike_readByteStep {pos : ReadStep → Seq} {done : State → State} (hd : Blind done) (k : ReadStep) {zs : List Mask}
    {s : State} (h : AgreeOn s.sda s.extLow zs) : DrawsAlike (readByteStep pos done k) zs s := by
  by_cases hk : k = .r3c
  · subst hk
    refine ⟨1, ?_, rfl⟩
    simp only [readByteStep, smpSda, sampledBit_withWords h]
    rfl
  · exact (blind_readByteStep hd hk).drawsAlike zs s

/-- A command in progress that may take a sample takes it under the mask `m`: only START, which takes none, changes the mask. -/
def SamplesUnder (m : Mask) (s : State) : Prop := s.seq ≠ .idle → NotStart s → s.sda = m

/-- A micro-step against other words that agree under the mask (R97, R101). -/
theorem drawsAlike_microStep {m : Mask} {zs : List Mask} {s : State} (hq : s.seq ≠ .idle) (hm : SamplesUnder m s)
    (h : AgreeOn m s.extLow zs) : DrawsAlike microStep zs s := by
  have hag : NotStart s → AgreeOn s.sda s.extLow zs := fun hn => by rwa [hm hq hn]
  have hseq (zs : List Mask) : (withWords zs s).seq = s.seq := rfl
  unfold DrawsAlike microStep
  rw [hseq]
  split
  · next e => exact absurd e hq
  · next k e => exact (blind_startStep k).drawsAlike zs s
  · next k e => exact (blind_restartStep k).drawsAlike zs s
  · next k e => exact (blind_stopStep k).drawsAlike zs s
  · next k e => exact drawsAlike_writeByteStep (fun _ _ => rfl) k (hag (by simp [NotStart, e]))
  · next k e => exact drawsAlike_readByteStep (fun _ _ => rfl) k (hag (by simp [NotStart, e]))
  · next k e => exact drawsAlike_writeByteStep blind_nextWriteBytes k (hag (by simp [NotStart, e]))
  · next last k e => exact drawsAlike_readByteStep (blind_nextReadBytes last) k (hag (by simp [NotStart, e]))

/-- START goes on within START or returns. -/
theorem startStep_seq (k : StartStep) (s : State) : (startStep k s).seq = .idle ∨ ∃ j, (startStep k s).seq = .start j := by
  cases k with
  | s7 => exact .inl rfl
  | _ => exact .inr ⟨_, rfl⟩

theorem samplesUnder_microStep {m : Mask} {s : State} (hq : s.seq ≠ .idle) (hm : SamplesUnder m s) :
    SamplesUnder m (microStep s) := by
  intro hq' hn'
  by_cases hn : NotStart s
  · obtain ⟨u, hu, -, -⟩ := microStep_emits hq
    rw [hu.sda, emit_sda, hm hq hn]
  · obtain ⟨k, hk⟩ : ∃ k, s.seq = .start k := by simpa [NotStart] using hn
    have e : microStep s = startStep k s := by rw [microStep, hk]
    rw [e] at hq' hn'
    obtain hi | ⟨j, hj⟩ := startStep_seq k s
    · exact absurd hi hq'
    · exact absurd hj (hn' j)

theorem samplesUnder_engineStep {m : Mask} {s : State} (hq : s.seq ≠ .idle) (hm : SamplesUnder m s) :
    SamplesUnder m (engineStep s) := by
  obtain ⟨-, e⟩ | ⟨r, -, e⟩ := engineStep_cases s
  · rw [e]
    exact fun h => absurd rfl h
  · rw [e]
    exact samplesUnder_microStep (s := { s with rst := r }) hq hm

/-- The reset input is an input apart from the environment's words (R200). -/
theorem resetNearer_eq (s : State) : ∃ r, ∀ zs, resetNearer (withWords zs s) = withWords zs { s with rst := r } := by
  rcases hr : s.rst with _ | ⟨_ | n, r⟩
  · exact ⟨s.rst, fun zs => by simp [resetNearer, withWords, hr]⟩
  · exact ⟨s.rst, fun zs => by simp [resetNearer, withWords, hr]⟩
  · exact ⟨n :: r, fun zs => by simp [resetNearer, withWords, hr]⟩

theorem drawsAlike_engineStep {m : Mask} {zs : List Mask} {s : State} (hq : s.seq ≠ .idle) (hm : SamplesUnder m s)
    (h : AgreeOn m s.extLow zs) : DrawsAlike engineStep zs s := by
  by_cases hd : resetDue s = true
  · have e (zs : List Mask) : engineStep (withWords zs s) = withWords zs (takeReset s) := if_pos hd
    exact ⟨0, (e zs).trans (congrArg _ (e s.extLow).symm), (congrArg State.extLow (e s.extLow)).trans rfl⟩
  · obtain ⟨r, hr⟩ := resetNearer_eq s
    have e (zs : List Mask) : engineStep (withWords zs s) = microStep (withWords zs { s with rst := r }) :=
      (if_neg hd).trans (congrArg microStep (hr zs))
    have hs : engineStep s = microStep { s with rst := r } := e s.extLow
    unfold DrawsAlike
    rw [e, hs]
    exact drawsAlike_microStep hq hm h

/-- A run against other words that agree under the mask: the states differ in the words still to come only, and those agree again; also
when a reset lands in the middle (R202). -/
theorem run_withWords (n : Nat) {m : Mask} {zs : List Mask} {s : State} (hm : SamplesUnder m s) (h : AgreeOn m s.extLow zs) :
    ∃ ws, run n (withWords zs s) = withWords ws (run n s) ∧ AgreeOn m (run n s).extLow ws := by
  induction n generalizing zs s with
  | zero => exact ⟨zs, rfl, h⟩
  | succ n ih =>
    by_cases hq : s.seq = .idle
    · rw [run_idle _ hq, run_idle _ (show (withWords zs s).seq = .idle from hq)]
      exact ⟨zs, rfl, h⟩
    · obtain ⟨k, e, hk⟩ := drawsAlike_engineStep hq hm h
      rw [run, run, if_neg hq, if_neg (show (withWords zs s).seq ≠ .idle from hq), e]
      exact ih (samplesUnder_engineStep hq hm) (hk ▸ h.drop k)

/-! ### A command against other words -/

/-- If the one answer is a next state, the other is that state but for the words still to come, which agree under the mask. -/
def SameAnswer (m : Mask) (a b : Host.Outcome State Fault Refusal) : Prop :=
  ∀ t, a = .next t → ∃ ws, b = .next (withWords ws t) ∧ AgreeOn m t.extLow ws

theorem SameAnswer.refused {m : Mask} {r : Refusal} {b : Host.Outcome State Fault Refusal} : SameAnswer m (.refused r) b :=
  fun _ h => by cases h

theorem SameAnswer.next {m : Mask} {zs : List Mask} {s : State} (h : AgreeOn m s.extLow zs) :
    SameAnswer m (.next s) (.next (withWords zs s)) := by
  rintro t ⟨rfl⟩
  exact ⟨zs, rfl, h⟩

theorem SameAnswer.ite {m : Mask} {c : Prop} [Decidable c] {a a' b b' : Host.Outcome State Fault Refusal} (h : SameAnswer m a b)
    (h' : SameAnswer m a' b') : SameAnswer m (if c then a else a') (if c then b else b') := by
  split
  · exact h
  · exact h'

theorem blind_entryOf (i : Instr) : Blind (entryOf i) := fun zs s => by
  cases i with
  | readBytes buf len => exact blind_beginIndexedRead zs { captureBuffer buf len (accept s) with idx := 0 }
  | _ => rfl

/-- START samples nothing, and any other command samples under the session's mask. -/
theorem samplesUnder_entryOf (i : Instr) (s : State) : SamplesUnder s.sda (entryOf i s) := by
  intro _ hn
  cases i with
  | start p a b => exact absurd rfl (hn _)
  | _ => exact (sameBus_entryOf _ s).sda

/-- The engine's part of a command. -/
theorem sameAnswer_run (i : Instr) (n : Nat) {s : State} {zs : List Mask} (h : AgreeOn s.sda s.extLow zs) :
    SameAnswer s.sda (.next (run n (entryOf i s))) (.next (run n (entryOf i (withWords zs s)))) := by
  rintro t ⟨rfl⟩
  rw [blind_entryOf i zs s]
  obtain ⟨ws, e, ha⟩ := run_withWords n (samplesUnder_entryOf i s) (zs := zs) (by rwa [(blind_entryOf i).extLow])
  exact ⟨ws, congrArg _ e, ha⟩

/-- No check of a command looks at the environment's words (R177). -/
theorem sameAnswer_exec (i : Instr) {s : State} {zs : List Mask} (h : AgreeOn s.sda s.extLow zs) :
    SameAnswer s.sda (exec i s) (exec i (withWords zs s)) := by
  have hrun := sameAnswer_run i (mostMicros i) h
  cases i with
  | start p a b => exact .ite (.next h) (.ite hrun .refused)
  | restart => exact .ite (.next h) (.ite hrun .refused)
  | stop => exact .ite (.next h) (.ite hrun .refused)
  | writeByte v => exact .ite (.next h) (.ite hrun .refused)
  | readByte n => exact .ite (.next h) (.ite hrun .refused)
  | writeBytes buf len =>
    exact .ite (.next h) (.ite (.next (s := returnValue _ (forgetOperands (captureBuffer buf len (accept s)))) h)
      (.ite (.next (s := returnValue _ (forgetIndex (forgetOperands (captureBuffer buf len (accept s))))) h) (.ite hrun .refused)))
  | readBytes buf len =>
    exact .ite (.next h) (.ite (.next (s := returnValue _ (forgetOperands (captureBuffer buf len (accept s)))) h)
      (.ite .refused (.ite .refused (.ite .refused (.ite hrun .refused)))))

/-- Settles O37: every sample returns the same bit against either list of words, and nothing else looks at them. -/
theorem onlySdaIsSampled : Obligations.OnlySdaIsSampled := by
  unfold Obligations.OnlySdaIsSampled
  intro i s xs ys t _ hag h
  exact sameAnswer_exec i (s := withWords xs s) (zs := ys) hag t h

end Sys2Proof.Machine

/-! SUPPORT. The decoder against the encoder and the opcode map: when a word decodes to a command, and which row it then selects (R61,
R63, R65, R66, R68, R69). -/

namespace Sys2Proof

/-! ### The fields of a command word -/

theorem opField_commandWord (op : BitVec 3) (imm : Byte) : opField (commandWord op imm) = op :=
  BitVec.extractLsb'_append_eq_left

theorem immField_commandWord (op : BitVec 3) (imm : Byte) : immField (commandWord op imm) = imm :=
  BitVec.extractLsb'_append_eq_right

theorem commandWord_fields (cw : CommandWord) : commandWord (opField cw) (immField cw) = cw :=
  (BitVec.extractLsb'_append_extractLsb'_eq_extractLsb' rfl).trans BitVec.extractLsb'_eq_self

theorem commandWord_eq_iff {op : BitVec 3} {imm : Byte} {cw : CommandWord} :
    commandWord op imm = cw ↔ opField cw = op ∧ immField cw = imm := by
  constructor
  · rintro rfl
    exact ⟨opField_commandWord op imm, immField_commandWord op imm⟩
  · rintro ⟨rfl, rfl⟩
    exact commandWord_fields cw

theorem eq_iff_fields_eq {x y : CommandWord} : x = y ↔ opField x = opField y ∧ immField x = immField y := by
  rw [← commandWord_eq_iff, commandWord_fields, eq_comm]

theorem opField_and (x y : CommandWord) : opField (x &&& y) = opField x &&& opField y := BitVec.extractLsb'_and

theorem immField_and (x y : CommandWord) : immField (x &&& y) = immField x &&& immField y := BitVec.extractLsb'_and

/-- The immediate is the seven bits that must be zero in READBYTE over its `nack` (R61, R65). -/
theorem immField_eq_concat (cw : CommandWord) : immField cw = (readZeroField cw).concat (nackField cw) := by
  ext (_ | i) hi
  · simp [immField, nackField]
  · simp [immField, readZeroField, Nat.add_comm]

theorem concat_inj {w : Nat} {x y : BitVec w} {a b : Bool} : x.concat a = y.concat b ↔ x = y ∧ a = b := by
  constructor
  · intro h
    have hbit (i : Nat) : (x.concat a).getLsbD i = (y.concat b).getLsbD i := by rw [h]
    exact ⟨BitVec.eq_of_getLsbD_eq fun i _ => by simpa using hbit (i + 1), by simpa using hbit 0⟩
  · rintro ⟨rfl, rfl⟩
    rfl

theorem immField_eq_nack_iff {cw : CommandWord} {n : Bool} :
    immField cw = (if n then 1 else 0) ↔ readZeroField cw = 0 ∧ nackField cw = n := by
  have hn : (if n then 1 else 0 : Byte) = BitVec.concat 0 n := by cases n <;> rfl
  rw [hn, immField_eq_concat, concat_inj]

/-! ### Decode and encode -/

/-- The side operands a command's format lists are the ones on the ports (R63, R66). -/
def TakesOperands : Instr → SideOperands → Prop
  | .start p a b, ops        => p = ops.port ∧ a = ops.sda ∧ b = ops.scl
  | .restart, _              => True
  | .stop, _                 => True
  | .writeByte _, _          => True
  | .readByte _, _           => True
  | .writeBytes buf len, ops => buf = ops.buf ∧ len = ops.len
  | .readBytes buf len, ops  => buf = ops.buf ∧ len = ops.len

theorem takesOperands_encodeOperands (i : Instr) : TakesOperands i (encodeOperands i) := by
  cases i <;> simp [TakesOperands, encodeOperands]

/-- The decoder answers a command exactly for its word, on side operands that are the command's. -/
theorem decode_eq_ok_iff {cw : CommandWord} {ops : SideOperands} {i : Instr} :
    decode cw ops = .ok i ↔ encodeWord i = cw ∧ TakesOperands i ops := by
  constructor
  · intro h
    unfold decode needZeroImm at h
    split_ifs at h with hop himm hop himm hop himm hop hop hz hop himm hop himm <;> cases h
    · exact ⟨commandWord_eq_iff.2 ⟨hop, himm⟩, rfl, rfl, rfl⟩
    · exact ⟨commandWord_eq_iff.2 ⟨hop, himm⟩, trivial⟩
    · exact ⟨commandWord_eq_iff.2 ⟨hop, himm⟩, trivial⟩
    · exact ⟨commandWord_eq_iff.2 ⟨hop, rfl⟩, trivial⟩
    · exact ⟨commandWord_eq_iff.2 ⟨hop, immField_eq_nack_iff.2 ⟨hz, rfl⟩⟩, trivial⟩
    · exact ⟨commandWord_eq_iff.2 ⟨hop, himm⟩, rfl, rfl⟩
    · exact ⟨commandWord_eq_iff.2 ⟨hop, himm⟩, rfl, rfl⟩
  · rintro ⟨hw, ht⟩
    cases i with
    | readByte n =>
      obtain ⟨hop, himm⟩ := commandWord_eq_iff.1 hw
      obtain ⟨hz, hn⟩ := immField_eq_nack_iff.1 himm
      simp [decode, hop, hz, hn]
    | _ =>
      obtain ⟨hop, himm⟩ := commandWord_eq_iff.1 hw
      simp_all [decode, needZeroImm, TakesOperands]

/-- Settles O1: both directions of `decode_eq_ok_iff`. -/
theorem decodeEncodeAgree : Obligations.DecodeEncodeAgree := by
  refine ⟨fun i => decode_eq_ok_iff.2 ⟨rfl, takesOperands_encodeOperands i⟩, fun cw ops i h => ?_⟩
  obtain ⟨hw, hops⟩ := decode_eq_ok_iff.1 h
  refine ⟨hw, ?_, ?_⟩
  · rintro p a b rfl
    exact hops
  · rintro buf len (rfl | rfl) <;> exact hops

/-- Settles O3: the decoder, run on each written-out word. -/
theorem sampleWordsDecode : Obligations.SampleWordsDecode := fun _ => ⟨rfl, rfl, rfl, rfl, rfl, rfl, rfl, rfl, rfl⟩

/-! ### The opcode map -/

/-- Every row's mask covers the opcode, and what it covers of the immediate must be zero (R68). -/
theorem opcodeMap_fields : ∀ r ∈ opcodeMap, opField r.mask = BitVec.allOnes 3 ∧ immField r.value = 0 := by decide

theorem opcodeMap_opField_inj : ∀ r ∈ opcodeMap, ∀ q ∈ opcodeMap, opField r.value = opField q.value → r = q := by decide

theorem rowSelects_iff {cw : CommandWord} {r : OpcodeRow} (hr : r ∈ opcodeMap) :
    rowSelects cw r = true ↔ opField cw = opField r.value ∧ immField cw &&& immField r.mask = 0 := by
  obtain ⟨hmask, hvalue⟩ := opcodeMap_fields r hr
  rw [rowSelects, beq_iff_eq, eq_iff_fields_eq, opField_and, immField_and, hmask, hvalue, BitVec.and_allOnes]

theorem encodeWord_selects (i : Instr) : ∃ r ∈ opcodeMap, r.mnemonic = mnemonicOf i ∧ rowSelects (encodeWord i) r = true := by
  cases i with
  | writeByte v =>
    have hr : ⟨"WRITEBYTE", 0x300#11, 0x700#11⟩ ∈ opcodeMap := by decide
    exact ⟨_, hr, rfl, (rowSelects_iff hr).2 ⟨opField_commandWord _ v, BitVec.and_zero⟩⟩
  | readByte n => cases n <;> decide
  | _ => simp [opcodeMap, mnemonicOf, rowSelects, encodeWord, commandWord]

/-- A mask over the whole immediate asks for a zero immediate. -/
theorem immField_eq_zero {cw : CommandWord} (h : immField cw &&& 0xFF = 0) : immField cw = 0 := BitVec.and_allOnes.symm.trans h

/-- READBYTE's mask asks for seven zero bits over `nack`. -/
theorem readZeroField_eq_zero {cw : CommandWord} (h : immField cw &&& 0xFE = 0) : readZeroField cw = 0 := by
  have hmask : (0xFE : Byte) = BitVec.concat (BitVec.allOnes 7) false := rfl
  have hzero : (0 : Byte) = BitVec.concat 0 false := rfl
  rw [immField_eq_concat, hmask, hzero, BitVec.concat_and_concat, BitVec.and_allOnes, concat_inj] at h
  exact h.1

/-- A row's word decodes, whatever is on the side operand ports. -/
theorem decodes_of_rowSelects (ops : SideOperands) {cw : CommandWord} {r : OpcodeRow} (hr : r ∈ opcodeMap)
    (h : rowSelects cw r = true) : ∃ i, decode cw ops = .ok i := by
  obtain ⟨hop, himm⟩ := (rowSelects_iff hr).1 h
  simp only [opcodeMap, List.mem_cons, List.not_mem_nil, or_false] at hr
  obtain rfl | rfl | rfl | rfl | rfl | rfl | rfl := hr
  · exact ⟨.start ops.port ops.sda ops.scl, decode_eq_ok_iff.2 ⟨commandWord_eq_iff.2 ⟨hop, immField_eq_zero himm⟩, rfl, rfl, rfl⟩⟩
  · exact ⟨.restart, decode_eq_ok_iff.2 ⟨commandWord_eq_iff.2 ⟨hop, immField_eq_zero himm⟩, trivial⟩⟩
  · exact ⟨.stop, decode_eq_ok_iff.2 ⟨commandWord_eq_iff.2 ⟨hop, immField_eq_zero himm⟩, trivial⟩⟩
  · exact ⟨.writeByte (immField cw), decode_eq_ok_iff.2 ⟨commandWord_eq_iff.2 ⟨hop, rfl⟩, trivial⟩⟩
  · exact ⟨.readByte (nackField cw), decode_eq_ok_iff.2 ⟨commandWord_eq_iff.2
      ⟨hop, immField_eq_nack_iff.2 ⟨readZeroField_eq_zero himm, rfl⟩⟩, trivial⟩⟩
  · exact ⟨.writeBytes ops.buf ops.len, decode_eq_ok_iff.2 ⟨commandWord_eq_iff.2 ⟨hop, immField_eq_zero himm⟩, rfl, rfl⟩⟩
  · exact ⟨.readBytes ops.buf ops.len, decode_eq_ok_iff.2 ⟨commandWord_eq_iff.2 ⟨hop, immField_eq_zero himm⟩, rfl, rfl⟩⟩

/-- The row of a word that decodes is the one of the command's mnemonic (R68). -/
theorem row_of_decode {cw : CommandWord} {ops : SideOperands} {i : Instr} (h : decode cw ops = .ok i) :
    ∃ r ∈ opcodeMap, r.mnemonic = mnemonicOf i ∧ rowSelects cw r = true :=
  (decode_eq_ok_iff.1 h).1 ▸ encodeWord_selects i

/-- A word is reserved exactly when it selects no row (R69). -/
theorem reserved_iff {cw : CommandWord} {ops : SideOperands} :
    (∃ e, decode cw ops = .error e) ↔ ∀ r ∈ opcodeMap, rowSelects cw r = false := by
  constructor
  · rintro ⟨e, he⟩ r hr
    refine Bool.eq_false_iff.2 fun h => ?_
    obtain ⟨i, hi⟩ := decodes_of_rowSelects ops hr h
    exact absurd (he.symm.trans hi) nofun
  · intro hnone
    cases hd : decode cw ops with
    | error e => exact ⟨e, rfl⟩
    | ok i =>
      obtain ⟨r, hr, -, h⟩ := row_of_decode hd
      exact absurd h (by simp [hnone r hr])

/-- Settles O2: the row of a decoded word, the words without a row, and one row for each opcode. -/
theorem wordSelectsOneRow : Obligations.WordSelectsOneRow := fun _ _ =>
  ⟨fun _ => row_of_decode, reserved_iff, fun r hr q hq h h' =>
    opcodeMap_opField_inj r hr q hq (((rowSelects_iff hr).1 h).1.symm.trans ((rowSelects_iff hq).1 h').1)⟩

end Sys2Proof

/-! SUPPORT. One step of the machine with the block idle (R46, R62, R69, R74), and with a command in progress, which goes on the same
whatever the host presents (R74, R218). -/

namespace Sys2Proof.Machine

/-! ### A step of the idle block -/

section

variable {s : State} (hb : s.busy = false) (hr : resetDue s = false)
include hb hr

theorem step_nothing (hp : presented s = none) : step s = .next (popHost s) := by simp [step, hb, hr, hp]

theorem step_command {cw : CommandWord} {ops : SideOperands} {i : Instr} (hp : presented s = some (cw, ops))
    (hd : decode cw ops = .ok i) : step s = exec i (popHost s) := by simp [step, hb, hr, hp, hd]

theorem step_reserved {cw : CommandWord} {ops : SideOperands} {e : DecodeError} (hp : presented s = some (cw, ops))
    (hd : decode cw ops = .error e) : step s = .refused (.reservedWord e) := by simp [step, hb, hr, hp, hd]

end

theorem presented_cons {s : State} {pins : HostPins} {rest : List HostPins} (h : s.host = pins :: rest) (hv : pins.cmdValid = true) :
    presented s = some (pins.cmdWord, pins.ops) := by simp [presented, h, hv]

/-- Settles O4: the decoder rejects a word without a row. -/
theorem reservedWordRefused : Obligations.ReservedWordRefused := by
  intro s cw ops ⟨hb, h0⟩ hp hnone
  obtain ⟨e, he⟩ := reserved_iff.2 hnone
  exact ⟨e, step_reserved hb (resetDue_noReset h0) hp he⟩

/-- Settles O5: the head of the host's list is what is presented, and it passes. -/
theorem stepRunsPresentedCommand : Obligations.StepRunsPresentedCommand := by
  intro s pins rest i hb hr hh hv hd
  rw [step_command hb hr (presented_cons hh hv) hd, popHost, hh, List.drop_one, List.tail_cons]

/-- Settles O6: an idle step only lets the host's values pass. -/
theorem idleStepChangesNothing : Obligations.IdleStepChangesNothing := fun _ hb hr hp => step_nothing hb hr hp

/-! ### The engine does not look at the host -/

/-- The same state with other values of the host to come. -/
def withHost (hs : List HostPins) (s : State) : State := { s with host := hs }

section

variable (hs : List HostPins)

/-- A choice made on what the host does not touch. -/
theorem ite_commute_withHost {c : State → Prop} [DecidablePred c] {f g : State → State} (hc : ∀ s, c (withHost hs s) = c s)
    (hf : Function.Commute f (withHost hs)) (hg : Function.Commute g (withHost hs)) :
    Function.Commute (fun s => if c s then f s else g s) (withHost hs) := fun s => by
  simp only [hc, hf s, hg s, apply_ite (withHost hs)]

theorem emit_commute_withHost (u : Micro) : Function.Commute (emit u) (withHost hs) := fun _ => by cases u <;> rfl

theorem nextWriteBit_commute_withHost (pos : WriteStep → Seq) : Function.Commute (nextWriteBit pos) (withHost hs) :=
  ite_commute_withHost hs (c := fun s => s.bitcnt = 0) (fun _ => rfl) (fun _ => rfl) (fun _ => rfl)

theorem nextReadBit_commute_withHost (pos : ReadStep → Seq) : Function.Commute (nextReadBit pos) (withHost hs) :=
  ite_commute_withHost hs (c := fun s => s.bitcnt = 0) (fun _ => rfl) (fun _ => rfl) (fun _ => rfl)

theorem nextWriteBytes_commute_withHost : Function.Commute nextWriteBytes (withHost hs) :=
  ite_commute_withHost hs (c := fun s => s.ackl = true) (fun _ => rfl) (fun _ => rfl)
    (ite_commute_withHost hs (c := fun s => s.idx + 1 < s.lenr) (fun _ => rfl) (fun _ => rfl) (fun _ => rfl))

theorem beginIndexedRead_commute_withHost : Function.Commute beginIndexedRead (withHost hs) :=
  ite_commute_withHost hs (c := fun s => s.idx < s.lenr - 1) (fun _ => rfl) (fun _ => rfl) (fun _ => rfl)

theorem nextReadBytes_commute_withHost (last : Bool) : Function.Commute (nextReadBytes last) (withHost hs) := fun s => by
  cases last with
  | false => exact beginIndexedRead_commute_withHost hs { storeIndexed s with idx := s.idx + 1 }
  | true => rfl

theorem writeByteStep_commute_withHost (pos : WriteStep → Seq) {done : State → State} (hd : Function.Commute done (withHost hs))
    (k : WriteStep) : Function.Commute (writeByteStep pos done k) (withHost hs) := fun s => by
  cases k with
  | w2a => exact congrArg (goTo (pos .w2b)) (emit_commute_withHost hs _ s)
  | w2e => exact nextWriteBit_commute_withHost hs pos (drvScl s)
  | w10 => exact hd (waitH s)
  | _ => rfl

theorem readByteStep_commute_withHost (pos : ReadStep → Seq) {done : State → State} (hd : Function.Commute done (withHost hs))
    (k : ReadStep) : Function.Commute (readByteStep pos done k) (withHost hs) := fun s => by
  cases k with
  | r3e => exact nextReadBit_commute_withHost hs pos (drvScl s)
  | r9 => exact hd (relSda s)
  | _ => rfl

theorem microStep_commute_withHost : Function.Commute microStep (withHost hs) := fun s => by
  have hseq : (withHost hs s).seq = s.seq := rfl
  unfold microStep
  rw [hseq]
  split
  · rfl
  · next k _ => cases k <;> rfl
  · next k _ => cases k <;> rfl
  · next k _ => cases k <;> rfl
  · next k _ => exact writeByteStep_commute_withHost hs _ (done := finishWriteByte) (fun _ => rfl) k s
  · next k _ => exact readByteStep_commute_withHost hs _ (done := finishReadByte) (fun _ => rfl) k s
  · next k _ => exact writeByteStep_commute_withHost hs _ (nextWriteBytes_commute_withHost hs) k s
  · next last k _ => exact readByteStep_commute_withHost hs _ (nextReadBytes_commute_withHost hs last) k s

theorem resetNearer_commute_withHost : Function.Commute resetNearer (withHost hs) := fun s => by
  have hrst : (withHost hs s).rst = s.rst := rfl
  unfold resetNearer
  rw [hrst]
  split <;> rfl

theorem engineStep_commute_withHost : Function.Commute engineStep (withHost hs) :=
  ite_commute_withHost hs (c := fun s => resetDue s = true) (fun _ => rfl) (fun _ => rfl)
    ((microStep_commute_withHost hs).comp_left (resetNearer_commute_withHost hs))

end

/-- With BUSY = 1 the machine goes on unless it needs a session and has none (R99, R201). -/
theorem step_busy_iff {s t : State} (hb : s.busy = true) :
    step s = .next t ↔ (resetDue s = true ∨ s.bound = true) ∧ engineStep s = t := by
  constructor
  · intro h
    obtain ⟨hr, rfl⟩ | ⟨-, -, hs, rfl⟩ | ⟨hidle, -⟩ | ⟨hidle, -⟩ := step_next_cases h
    · exact ⟨.inl hr, if_pos hr⟩
    · exact ⟨.inr hs, rfl⟩
    · exact absurd (hb.symm.trans hidle) nofun
    · exact absurd (hb.symm.trans hidle) nofun
  · rintro ⟨hr | hs, rfl⟩
    · rw [step, engineStep, if_pos hr, if_pos hr]
    · exact step_busy hb hs

/-- Settles O7: every command is ignored, and a step in mid-command is the engine's, which does not look at the host. -/
theorem busyIgnoresCommands : Obligations.BusyIgnoresCommands := by
  refine ⟨fun i _ => exec_busy i, fun s t hs hb h => ?_⟩
  obtain ⟨hgo, rfl⟩ := (step_busy_iff hb).1 h
  exact (step_busy_iff (s := withHost hs s) hb).2 ⟨hgo, engineStep_commute_withHost hs s⟩

end Sys2Proof.Machine

/-! The two delays (40_timing_primitives.md: R80, R81, R82, R85). -/

namespace Sys2Proof.Machine

/-- Settles O17: counting down from the number loaded ends at zero (`delayFor_eq`), for each of the two delays. -/
theorem delaysTakeTheirCycles : Obligations.DelaysTakeTheirCycles := by
  intro s
  have hq : waitQ s = { s with trace := s.trace ++ [.waitQ], delay := 0, cycles := s.cycles + Config.QDEL_CYCLES } :=
    emit_waitQ_eq s
  have hh : waitH s = { s with trace := s.trace ++ [.waitH], delay := 0, cycles := s.cycles + Config.HDEL_CYCLES } :=
    emit_waitH_eq s
  rw [hq, hh]
  exact ⟨rfl, rfl, rfl, rfl⟩

end Sys2Proof.Machine

/-! The line micro-operations and the sample (41_line_controller.md: R91 to R98). -/

namespace Sys2Proof.Machine

/-! ### The line micro-operations -/

/-- The six micro-operations that act on a line (R91 to R96). -/
def lineMicros : List Micro := [.drvSda, .relSda, .drvScl, .relScl, .relBoth, .clrBoth]

/-- A line micro-operation takes no time and no sample: T and the GPIO registers are all it writes (R98). -/
theorem emit_line_eq {u : Micro} (hu : u ∈ lineMicros) (s : State) :
    emit u s = { s with trace := (emit u s).trace, gpio := (emit u s).gpio } := by
  cases u with
  | smpSda | waitQ | waitH => simp [lineMicros] at hu
  | _ => rfl

theorem portRegs_emit_bound (u : Micro) (s : State) :
    portRegs (emit u s) s.port = regsAfter s.sda s.scl u (portRegs s s.port) :=
  (portRegs_emit u s s.port).trans (if_pos rfl)

theorem portRegs_emit_other (u : Micro) {s : State} {q : PortRef} (h : q ≠ s.port) :
    portRegs (emit u s) q = portRegs s q :=
  (portRegs_emit u s q).trans (if_neg h)

/-- Settles O15: each line micro-operation is `emit` of its entry, whose effect on the bound port is `regsAfter`. -/
theorem lineMicroOperations : Obligations.LineMicroOperations := by
  intro s r
  have heffect (u : Micro) : (emit u s).trace = s.trace ++ [u] ∧ portRegs (emit u s) s.port = regsAfter s.sda s.scl u r :=
    ⟨emit_trace u s, portRegs_emit_bound u s⟩
  refine ⟨heffect .drvSda, heffect .relSda, heffect .drvScl, heffect .relScl, heffect .relBoth, heffect .clrBoth, fun f hf => ?_⟩
  obtain ⟨u, hu, rfl⟩ : ∃ u ∈ lineMicros, emit u = f := List.mem_map.1 hf
  exact ⟨emit_line_eq hu s, fun q hq => portRegs_emit_other u hq⟩

/-! ### The sample -/

/-- The sample is 1 exactly when a pin of the mask reads high (R97). -/
theorem sampleBit_eq_true_iff {w : Nat} (v sda : BitVec w) :
    sampleBit v sda = true ↔ ∃ i, i < w ∧ sda.getLsbD i = true ∧ v.getLsbD i = true := by
  have hzero : v &&& sda = 0 ↔ ∀ i, i < w → ¬ (sda.getLsbD i = true ∧ v.getLsbD i = true) := by
    rw [BitVec.eq_of_getLsbD_eq_iff]
    simp [and_comm]
  rw [sampleBit, bne_iff_ne, Ne, hzero]
  simp

/-- Settles O16: SMP_SDA logs the bit and lets one sample of the environment pass. -/
theorem sampleIsOneBit : Obligations.SampleIsOneBit := fun s =>
  ⟨sampleBit_eq_true_iff (gpioIn s s.port) s.sda, rfl⟩

end Sys2Proof.Machine

/-! How the conditions end, and START followed by STOP on an ideal bus (42_condition_generator.md: R111, R113, R115, R117). -/

namespace Sys2Proof.Machine

open Sys2Proof.Safety

/-! ### The end of a condition -/

/-- What a list of micro-operations and a return with no value leave: the session, T, the time and the pins of the bound port (R32, R230). -/
theorem returnNone_emitAll_result {us : List Micro} {s t : State} (h : t = returnNone (emitAll us s)) :
    SameSession s t ∧ t.busy = false ∧ t.seq = .idle ∧ t.trace = s.trace ++ us ∧
      t.cycles = s.cycles + duration us * Config.QDEL_CYCLES ∧
      portRegs t s.port = us.foldl (fun r u => regsAfter s.sda s.scl u r) (portRegs s s.port) := by
  subst h
  refine ⟨⟨emitAll_port us s, emitAll_sda us s, emitAll_scl us s, emitAll_bound us s⟩, rfl, rfl, emitAll_trace us s, ?_, ?_⟩
  · rw [returnNone_cycles, emitAll_cycles, cycles_eq_duration]
  · rw [portRegs_congr (returnNone_gpio _), portRegs_emitAll, if_pos rfl]

/-- Settles O18: START is its trace on the session it binds, whose effect on the pins is `regs_start`. -/
theorem startBindsAndTakesTheBus : Obligations.StartBindsAndTakesTheBus := by
  unfold Obligations.StartBindsAndTakesTheBus
  intro s p a b hr hm
  obtain ⟨⟨hp, ha, hb, hbound⟩, hbusy, hseq, htrace, hcycles, hregs⟩ :=
    returnNone_emitAll_result (us := startTrace) (s := bindSession p a b (accept s)) rfl
  exact ⟨_, exec_start hr hm, hp, ha, hb, hbound, hbusy, hseq, htrace, hcycles, hregs.trans (regs_start ..)⟩

/-- Settles O19: RESTART is its trace on the accepted state, whose effect on the pins is `regs_restart`. -/
theorem restartResult : Obligations.RestartResult := by
  unfold Obligations.RestartResult
  intro s hr
  refine ⟨fun hb => by simp [exec, execRestart, hr.1, hb], fun hb => ?_⟩
  obtain ⟨hsess, hbusy, hseq, htrace, hcycles, hregs⟩ := returnNone_emitAll_result (us := restartTrace) (s := accept s) rfl
  exact ⟨_, exec_restart hr hb, hsess, hbusy, hseq, htrace, hcycles, hregs.trans (regs_restart ..)⟩

/-- Settles O20: STOP is its trace on the accepted state, whose effect on the pins is `regs_stop`. -/
theorem stopResult : Obligations.StopResult := by
  unfold Obligations.StopResult
  intro s hr
  refine ⟨fun hb => by simp [exec, execStop, hr.1, hb], fun hb => ?_⟩
  obtain ⟨hsess, hbusy, hseq, htrace, hcycles, hregs⟩ := returnNone_emitAll_result (us := stopTrace) (s := accept s) rfl
  exact ⟨_, exec_stop hr hb, hsess, hbusy, hseq, htrace, hcycles, hregs.trans (regs_stop ..)⟩

/-! ### START followed by STOP -/

/-- Both lines are high on an ideal bus where no bit of the session's masks drives a pin (R26, R28). -/
theorem linesOf_released {s : State} (h : (portRegs s s.port).dir &&& (s.sda ||| s.scl) = 0) :
    linesOf s = { sda := true, scl := true } := by
  have hpins : (portRegs s s.port).dir &&& s.sda = 0 ∧ (portRegs s s.port).dir &&& s.scl = 0 := by
    rw [BitVec.and_or_distrib_left] at h
    exact BitVec.or_eq_zero_iff.1 h
  simp [linesOf, hpins]

/-- Settles O41: STOP runs in the session START binds and releases the pins START drives; the traces of the two show the events. -/
theorem startStopShape : Obligations.StartStopShape := by
  unfold Obligations.StartStopShape
  intro s p a b hr hm hfree
  obtain ⟨t, ht, -, -, -, hbound, hbusy, -, htrace, -, -⟩ := startBindsAndTakesTheBus s p a b hr hm
  obtain ⟨-, -, -, -, -, -, hrst⟩ := startFrame s p a b t hr.2 ht
  have htr : Ready t := ⟨hbusy, hrst.trans hr.2⟩
  obtain ⟨u, hu, ⟨hport, hsda, hscl, -⟩, -, -, hutrace, -, hregs⟩ := (stopResult t htr).2 hbound
  have hreleased : (portRegs u u.port).dir &&& (u.sda ||| u.scl) = 0 := by
    rw [hport, hsda, hscl, hregs]
    exact and_not_and_self _ _
  exact ⟨t, u, ht, hu, by rw [hutrace, htrace, List.append_assoc], linesOf_released hfree, by decide, linesOf_released hreleased⟩

end Sys2Proof.Machine

/-! SUPPORT. What WRITEBYTE and READBYTE return and leave, from their traces in Laws/Exec.lean (R131, R133 to R138, R174). -/

namespace Sys2Proof.Machine

open Sys2Proof.Safety

/-! ### The values on the return bus -/

/-- WRITEBYTE returns exactly 0 or 1 (R134). -/
theorem retAck_eq (a : Bool) : retAck a = if a then 1 else 0 := by
  cases a <;> exact (BitVec.ofNat_toNat _ _).symm

/-- Eight equal samples make the byte of eight equal bits (R136). -/
theorem assembled_of_const {f : Nat → Bool} {b : Bool} (h : ∀ k, k < 8 → f k = b) : assembled f = if b then 0xFF else 0 := by
  rw [assembled, h 0 (by decide), h 1 (by decide), h 2 (by decide), h 3 (by decide), h 4 (by decide), h 5 (by decide),
    h 6 (by decide), h 7 (by decide)]
  cases b <;> rfl

/-! ### The state after a list of micro-operations -/

/-- What a list of micro-operations leaves of T, the time and the pins of the bound port, whatever the control registers hold (R32,
R230). -/
theorem SameBus.emitAll_result {us : List Micro} {s t : State} (h : SameBus (emitAll us s) t) :
    t.trace = s.trace ++ us ∧ t.cycles = s.cycles + duration us * Config.QDEL_CYCLES ∧
      portRegs t s.port = us.foldl (fun r u => regsAfter s.sda s.scl u r) (portRegs s s.port) := by
  refine ⟨?_, ?_, ?_⟩
  · rw [h.trace, emitAll_trace]
  · rw [h.cycles, emitAll_cycles, cycles_eq_duration]
  · rw [portRegs_congr h.gpio, portRegs_emitAll, if_pos rfl]

theorem sameBus_returnWrite (v : Ret) (s : State) : SameBus s (returnValue v (forgetWrite s)) := sameBus_of rfl

theorem sameBus_returnRead (v : Ret) (s : State) : SameBus s (returnValue v (forgetRead s)) := sameBus_of rfl

/-- Settles O21: WRITEBYTE is its trace, whose counts are `writeByteTrace_counts` and whose effect on the pins is `regs_writeByte`. -/
theorem writeByteResult : Obligations.WriteByteResult := by
  unfold Obligations.WriteByteResult
  intro s v hr
  refine ⟨fun hb => by simp [exec, execWriteByte, hr.1, hb], fun hb => ?_⟩
  obtain ⟨htrace, hcycles, hregs⟩ := (sameBus_returnWrite (retAck (sdaAnswer s 0))
    (emitAll (writeByteTrace v (sdaAnswer s 0)) (accept s))).emitAll_result
  rw [(writeByteTrace_counts v _).2.1] at hcycles
  exact ⟨_, exec_writeByte hr hb v, retAck_eq _, rfl, rfl, htrace, hcycles, hregs.trans (regs_writeByte ..)⟩

/-- Settles O22: READBYTE is its trace, whose counts are `readByteTrace_counts` and whose effect on the pins is `regs_readByte`. -/
theorem readByteResult : Obligations.ReadByteResult := by
  unfold Obligations.ReadByteResult
  intro s n hr
  refine ⟨fun hb => by simp [exec, execReadByte, hr.1, hb], fun hb => ?_⟩
  obtain ⟨htrace, hcycles, hregs⟩ := (sameBus_returnRead (retByte (sentByte s 0))
    (emitAll (readByteTrace n (sentByte s 0)) (accept s))).emitAll_result
  rw [(readByteTrace_counts n _).2.1] at hcycles
  exact ⟨_, exec_readByte hr hb n, rfl, rfl, rfl, htrace, hcycles, hregs.trans (regs_readByte ..)⟩

/-! ### The masks of a session (R15) -/

theorem ne_zero_of_singleBit {w : Nat} {m : BitVec w} (h : singleBit m = true) : m ≠ 0 := by
  rintro rfl
  simp [singleBit, popcount] at h

/-- The masks of a session name two pins (R15). -/
theorem pinMasks_pins {w : Nat} {a b : BitVec w} (h : pinMasks a b = true) : a ≠ 0 ∧ b ≠ 0 ∧ a &&& b = 0 := by
  simp only [pinMasks, Bool.and_eq_true, beq_iff_eq] at h
  obtain ⟨⟨ha, hb⟩, hab⟩ := h
  exact ⟨ne_zero_of_singleBit ha, ne_zero_of_singleBit hb, hab⟩

/-! ### An absent peer and a stuck line -/

/-- Nobody pulls SDA low at a sample: it returns 1 (R133). -/
theorem sdaAnswer_absent {s : State} {k : Nat} (hs : s.sda ≠ 0) (h : extWord s k &&& s.sda = 0) : sdaAnswer s k = true := by
  rw [sdaAnswer, h, bne_iff_ne]
  exact hs.symm

/-- SDA is held low at a sample: it returns 0 (R137). -/
theorem sdaAnswer_stuck {s : State} {k : Nat} (h : extWord s k &&& s.sda = s.sda) : sdaAnswer s k = false := by
  rw [sdaAnswer, h, bne_self_eq_false]

/-- With one answer at the next eight samples, WRITEBYTE returns it and READBYTE the byte of it (R174). -/
theorem exec_byte_of_const {s : State} (hr : Ready s) (hb : s.bound = true) {a : Bool} (h : ∀ k, k < 8 → sdaAnswer s k = a)
    (v : Byte) (n : Bool) : (∃ t, exec (.writeByte v) s = .next t ∧ t.ret = if a then 1 else 0) ∧
      (∃ t, exec (.readByte n) s = .next t ∧ t.ret = if a then 0xFF else 0) := by
  obtain ⟨t, ht, hret, -⟩ := (writeByteResult s v hr).2 hb
  obtain ⟨u, hu, hret', -⟩ := (readByteResult s n hr).2 hb
  have hsent : sentByte s 0 = if a then 0xFF else 0 := assembled_of_const fun k hk => by
    rw [Nat.mul_zero, Nat.zero_add, h k hk]
  rw [h 0 (by decide)] at hret
  rw [hsent] at hret'
  refine ⟨⟨t, ht, hret⟩, ⟨u, hu, hret'.trans ?_⟩⟩
  cases a <;> exact (BitVec.ofNat_toNat _ _).symm

/-- Settles O42: the eight samples of either premise return one answer. -/
theorem absentPeerAndStuckLine : Obligations.AbsentPeerAndStuckLine := by
  unfold Obligations.AbsentPeerAndStuckLine
  intro s v n hr hb hm
  obtain ⟨hsda, -, -⟩ := pinMasks_pins hm
  exact ⟨fun h => exec_byte_of_const hr hb (fun k hk => sdaAnswer_absent hsda (h k hk)) v n,
    fun h => exec_byte_of_const hr hb (fun k hk => sdaAnswer_stuck (h k hk)) v n⟩

end Sys2Proof.Machine

/-! SUPPORT. WRITEBYTE and READBYTE on an ideal bus: the events of their traces, and the lines at the end (R130, R132, R138). -/

namespace Sys2Proof.Machine

open Sys2Proof.Safety

/-! ### The events of a trace -/

/-- The levels after a list of micro-operations on an ideal bus. -/
def linesAfterAll (l : Lines) (us : List Micro) : Lines := us.foldl linesAfter l

theorem linesAfterAll_append (l : Lines) (us vs : List Micro) :
    linesAfterAll l (us ++ vs) = linesAfterAll (linesAfterAll l us) vs := List.foldl_append

theorem busEvents_append (l : Lines) (us vs : List Micro) :
    busEvents l (us ++ vs) = busEvents l us ++ busEvents (linesAfterAll l us) vs := by
  induction us generalizing l with
  | nil => rfl
  | cons u us ih => rw [List.cons_append, busEvents, ih, busEvents, List.append_assoc]; rfl

/-- Pieces of a trace that each show their events from levels `P` and end in levels `P` show their events one after the other. -/
theorem busEvents_flatMap {α : Type} {P : Lines → Prop} {f : α → List Micro} {g : α → List BusEvent}
    (h : ∀ l b, P l → busEvents l (f b) = g b ∧ P (linesAfterAll l (f b))) (bs : List α) {l : Lines} (hl : P l) :
    busEvents l (bs.flatMap f) = bs.flatMap g ∧ P (linesAfterAll l (bs.flatMap f)) := by
  induction bs generalizing l with
  | nil => exact ⟨rfl, hl⟩
  | cons b bs ih =>
    obtain ⟨hev, hend⟩ := h l b hl
    obtain ⟨hevs, hends⟩ := ih hend
    rw [List.flatMap_cons, busEvents_append, linesAfterAll_append, hev, hevs]
    exact ⟨rfl, hends⟩

/-- A data bit of WRITEBYTE, begun and ended with SCL low: SDA takes the bit before the pulse (R132). -/
theorem busEvents_writeBit (l : Lines) (b : Bool) (h : l.scl = false) :
    busEvents l (writeBitTrace b) = pulse b ∧ (linesAfterAll l (writeBitTrace b)).scl = false := by
  obtain ⟨sda, scl⟩ := l
  obtain rfl : scl = false := h
  revert sda b
  decide

/-- WRITEBYTE from SCL low: the eight bits, then the ninth pulse with SDA released (R130, R132). -/
theorem busEvents_writeByte {l : Lines} (h : l.scl = false) (v : Byte) (a : Bool) :
    busEvents l (writeByteTrace v a) = (msbFirst v).flatMap pulse ++ pulse true := by
  obtain ⟨hev, hend⟩ := busEvents_flatMap busEvents_writeBit (msbFirst v) h
  rw [writeByteTrace, busEvents_append, hev]
  generalize linesAfterAll l _ = m at hend
  obtain ⟨sda, scl⟩ := m
  obtain rfl : scl = false := hend
  refine congrArg _ ?_
  revert sda a
  decide

/-- A data bit of READBYTE: a pulse with SDA released (R138). -/
theorem busEvents_readBit (l : Lines) (b : Bool) (h : l = { sda := true, scl := false }) :
    busEvents l (readBitTrace b) = pulse true ∧ linesAfterAll l (readBitTrace b) = { sda := true, scl := false } := by
  subst h
  exact ⟨rfl, rfl⟩

/-- READBYTE from SCL low: eight pulses with SDA released, then the ninth with SDA at the level of the answer (R130, R138). -/
theorem busEvents_readByte {l : Lines} (h : l.scl = false) (n : Bool) (v : Byte) :
    busEvents l (readByteTrace n v) = (List.replicate 8 true).flatMap pulse ++ pulse n := by
  have hrel : eventOf l (linesAfter l .relSda) = [] ∧ linesAfter l .relSda = { sda := true, scl := false } := by
    obtain ⟨sda, scl⟩ := l
    obtain rfl : scl = false := h
    exact ⟨rfl, rfl⟩
  obtain ⟨hev, hend⟩ := busEvents_flatMap busEvents_readBit (msbFirst v) hrel.2
  rw [readByteTrace, busEvents, hrel.1, List.nil_append, busEvents_append, hev, hend]
  have hanswer : busEvents { sda := true, scl := false }
      ((if n then [] else [.drvSda]) ++ [.waitH, .relScl, .waitH, .drvScl, .relSda]) = pulse n := by
    revert n
    decide
  rw [hanswer]
  rfl

/-! ### The lines at the end -/

theorem or_and_cancel {w : Nat} (x m : BitVec w) : (x ||| m) &&& m = m := by
  ext i
  simp only [BitVec.getElem_and, BitVec.getElem_or]
  cases x[i] <;> simp

/-- Clearing the bits of one mask keeps a mask disjoint from it. -/
theorem not_and_of_disjoint {w : Nat} {a b : BitVec w} (h : a &&& b = 0#w) : ~~~a &&& b = b := by
  have hall : (~~~a ||| a) &&& b = b := by rw [BitVec.or_comm, BitVec.or_not_self, BitVec.allOnes_and]
  rwa [BitVec.and_comm, BitVec.and_or_distrib_left, BitVec.and_comm b a, h, BitVec.or_zero, BitVec.and_comm] at hall

/-- With both pins driven, both lines are low (R26, R28). -/
theorem linesOf_driven {s : State} (hm : pinMasks s.sda s.scl = true) {d : Mask}
    (h : (portRegs s s.port).dir = d ||| (s.sda ||| s.scl)) : linesOf s = { sda := false, scl := false } := by
  obtain ⟨hsda, hscl, -⟩ := pinMasks_pins hm
  have ha : (portRegs s s.port).dir &&& s.sda = s.sda := by
    rw [h, BitVec.or_comm s.sda, ← BitVec.or_assoc, or_and_cancel]
  have hc : (portRegs s s.port).dir &&& s.scl = s.scl := by rw [h, ← BitVec.or_assoc, or_and_cancel]
  rw [linesOf, ha, hc, beq_eq_false_iff_ne.2 hsda, beq_eq_false_iff_ne.2 hscl]

/-- With SCL driven and then SDA released, SDA is high and SCL low (R26, R28). -/
theorem linesOf_sdaReleased {s : State} (hm : pinMasks s.sda s.scl = true) {d : Mask}
    (h : (portRegs s s.port).dir = (d ||| s.scl) &&& ~~~s.sda) : linesOf s = { sda := true, scl := false } := by
  obtain ⟨-, hscl, hdisj⟩ := pinMasks_pins hm
  have ha : (portRegs s s.port).dir &&& s.sda = 0 := by rw [h, and_not_and_self]
  have hc : (portRegs s s.port).dir &&& s.scl = s.scl := by
    rw [h, BitVec.and_assoc, not_and_of_disjoint hdisj, or_and_cancel]
  rw [linesOf, ha, hc, beq_eq_false_iff_ne.2 hscl, beq_self_eq_true]

/-- Settles O39: the trace of O21 shows the pulses, and both pins are left driven. -/
theorem writeByteOnTheWire : Obligations.WriteByteOnTheWire := by
  unfold Obligations.WriteByteOnTheWire
  intro s v hr hb hm hscl
  obtain ⟨t, he, -, -, -, htrace, -, hregs⟩ := (writeByteResult s v hr).2 hb
  obtain ⟨⟨hport, hsda, hscl', -⟩, -⟩ := exec_frame rfl hr.2 he
  refine ⟨t, _, he, htrace, busEvents_writeByte hscl v _, linesOf_driven (d := (portRegs s s.port).dir) ?_ ?_⟩
  · rw [hsda, hscl', hm]
  · rw [hport, hsda, hscl', hregs]

/-- Settles O40: the trace of O22 shows the pulses, and SCL is left driven and SDA released. -/
theorem readAnswerOnTheWire : Obligations.ReadAnswerOnTheWire := by
  unfold Obligations.ReadAnswerOnTheWire
  intro s n hr hb hm hscl
  obtain ⟨t, he, -, -, -, htrace, -, hregs⟩ := (readByteResult s n hr).2 hb
  obtain ⟨⟨hport, hsda, hscl', -⟩, -⟩ := exec_frame rfl hr.2 he
  refine ⟨t, _, he, htrace, busEvents_readByte hscl n _, linesOf_sdaReleased (d := (portRegs s s.port).dir) ?_ ?_⟩
  · rw [hsda, hscl', hm]
  · rw [hport, hsda, hscl', hregs]

end Sys2Proof.Machine

/-! SUPPORT. How many micro-operations each command performs and how long it takes (R130, R186, R230). -/

namespace Sys2Proof.Machine

open Sys2Proof.Safety

/-! ### The counts of a trace -/

theorem duration_append (us vs : List Micro) : duration (us ++ vs) = duration us + duration vs := by
  rw [duration, List.map_append, List.sum_append, duration, duration]

theorem ackedTrace_counts (f : Nat → Byte) (n : Nat) :
    (ackedTrace f n).length = 48 * n ∧ duration (ackedTrace f n) = 30 * n := by
  induction n with
  | zero => exact ⟨rfl, rfl⟩
  | succ n ih =>
    obtain ⟨hlen, hdur⟩ := ih
    obtain ⟨hlen', hdur', -⟩ := writeByteTrace_counts (f n) false
    rw [ackedTrace_succ, List.length_append, duration_append, hlen, hdur, hlen', hdur']
    exact ⟨rfl, rfl⟩

/-- The bytes of WRITEBYTES up to byte `m`, whatever the answer to it (R151). -/
theorem sentTrace_counts (f : Nat → Byte) (m : Nat) (v : Byte) (a : Bool) :
    (ackedTrace f m ++ writeByteTrace v a).length = 48 * (m + 1) ∧
      duration (ackedTrace f m ++ writeByteTrace v a) = 30 * (m + 1) := by
  obtain ⟨hlen, hdur⟩ := ackedTrace_counts f m
  obtain ⟨hlen', hdur', -⟩ := writeByteTrace_counts v a
  rw [List.length_append, duration_append, hlen, hdur, hlen', hdur']
  exact ⟨rfl, rfl⟩

theorem receivedTrace_counts (f : Nat → Byte) (n : Nat) :
    (receivedTrace f n).length = 47 * n ∧ duration (receivedTrace f n) = 36 * n := by
  induction n with
  | zero => exact ⟨rfl, rfl⟩
  | succ n ih =>
    obtain ⟨hlen, hdur⟩ := ih
    obtain ⟨hlen', hdur', -⟩ := readByteTrace_counts false (f n)
    rw [receivedTrace_succ, List.length_append, duration_append, hlen, hdur, hlen', hdur']
    exact ⟨rfl, rfl⟩

/-- Only the last byte of READBYTES, which is not acknowledged, takes 46 micro-operations (R155, R186). -/
theorem readTrace_counts (f : Nat → Byte) {n : Nat} (hn : 0 < n) :
    (readTrace f n).length = 47 * (n - 1) + 46 ∧ duration (readTrace f n) = 36 * n := by
  obtain ⟨m, rfl⟩ := Nat.exists_eq_add_of_lt hn
  rw [Nat.zero_add]
  obtain ⟨hlen, hdur⟩ := receivedTrace_counts f m
  obtain ⟨hlen', hdur', -⟩ := readByteTrace_counts true (f m)
  rw [readTrace_succ, List.length_append, duration_append, hlen, hdur, hlen', hdur']
  exact ⟨rfl, rfl⟩

/-! ### A list of micro-operations performed to the return -/

theorem sameBus_returnNone (s : State) : SameBus s (returnNone s) := sameBus_of rfl

theorem sameBus_finishWriteBytes (v : Ret) (s : State) : SameBus s (finishWriteBytes v s) := sameBus_of rfl

theorem sameBus_stored (f : Nat → Byte) (m : Nat) (s : State) : SameBus s (stored f m s) := by
  rw [stored_spec]
  exact sameBus_of rfl

theorem performs_of_emitAll {us : List Micro} {s t : State} (h : SameBus (emitAll us s) t) (hb : t.busy = false)
    (hq : t.seq = .idle) {n q : Nat} (hc : us.length = n ∧ duration us = q) : Performs s t n q := by
  obtain ⟨htrace, hcycles, -⟩ := h.emitAll_result
  obtain ⟨rfl, rfl⟩ := hc
  exact ⟨⟨us, htrace, rfl, rfl⟩, hcycles, hb, hq⟩

/-- A condition performs its trace and returns no value (R111, R113, R115). -/
theorem performs_condition (us : List Micro) (s : State) : Performs s (returnNone (emitAll us s)) us.length (duration us) :=
  performs_of_emitAll (sameBus_returnNone _) rfl rfl ⟨rfl, rfl⟩

/-- A return with no bus activity performs nothing (R54, R230). -/
theorem performs_nothing {s t : State} (h : SameBus s t) (hb : t.busy = false) (hq : t.seq = .idle) : Performs s t 0 0 :=
  performs_of_emitAll (us := []) h hb hq ⟨rfl, rfl⟩

/-! ### The commands that are not refused -/

theorem outcome_next_inj {o : Host.Outcome State Fault Refusal} {t u : State} (h : o = .next t) (h' : o = .next u) : u = t :=
  Host.Outcome.next.inj (h'.symm.trans h)

/-- A command without a loop that the idle block does not refuse has passed its check (R175, R177). -/
theorem admitted_of_next {i : Instr} {s t : State} (hb : s.busy = false)
    (hi : ∀ buf len, i ≠ .writeBytes buf len ∧ i ≠ .readBytes buf len) (h : exec i s = .next t) : Admitted i s := by
  obtain ⟨hbusy, -⟩ | ⟨-, hr | ⟨ha, -⟩⟩ := exec_next_cases h
  · exact absurd (hb.symm.trans hbusy) nofun
  · obtain ⟨buf, len, e | e⟩ := hr.loops
    · exact absurd e (hi buf len).1
    · exact absurd e (hi buf len).2
  · exact ha

/-- WRITEBYTES of a buffer and a length of 1 or more that is not refused has a session (R175). -/
theorem bound_of_writeBytes {s t : State} {buf : Addr} {len : Len} (hb : s.busy = false) (hn : buf ≠ nullAddr) (hl : len ≠ 0)
    (h : exec (.writeBytes buf len) s = .next t) : s.bound = true := by
  simp only [exec, execWriteBytes, hb, if_neg (not_isNull hn), if_neg hl, Bool.false_eq_true, if_false] at h
  exact (next_of_ite h).1

/-- READBYTES into a buffer that is not refused has passed its four checks (R55, R175, R177). -/
theorem admitted_of_readBytes {s t : State} {buf : Addr} {len : Len} (hb : s.busy = false) (hn : buf ≠ nullAddr)
    (h : exec (.readBytes buf len) s = .next t) : Admitted (.readBytes buf len) s := by
  simp only [exec, execReadBytes, hb, if_neg (not_isNull hn), Bool.false_eq_true, if_false, Bool.not_eq_true'] at h
  split at h
  · cases h
  · next hl =>
    split at h
    · cases h
    · next hs =>
      split at h
      · cases h
      · exact ⟨by simpa using hs, hn, hl, (next_of_ite h).1⟩

theorem start_performs {s t : State} (hr : Ready s) {p : PortRef} {a b : Mask} (h : exec (.start p a b) s = .next t) :
    Performs s t 6 4 := by
  have ha : pinMasks a b = true := admitted_of_next hr.1 (by simp) h
  obtain rfl := outcome_next_inj h (exec_start hr ha)
  exact performs_condition startTrace (bindSession p a b (accept s))

theorem restart_performs {s t : State} (hr : Ready s) (h : exec .restart s = .next t) : Performs s t 8 6 := by
  obtain rfl := outcome_next_inj h (exec_restart hr (admitted_of_next hr.1 (by simp) h))
  exact performs_condition restartTrace (accept s)

theorem stop_performs {s t : State} (hr : Ready s) (h : exec .stop s = .next t) : Performs s t 6 5 := by
  obtain rfl := outcome_next_inj h (exec_stop hr (admitted_of_next hr.1 (by simp) h))
  exact performs_condition stopTrace (accept s)

theorem writeByte_performs {s t : State} (hr : Ready s) {v : Byte} (h : exec (.writeByte v) s = .next t) : Performs s t 48 30 := by
  obtain rfl := outcome_next_inj h (exec_writeByte hr (admitted_of_next hr.1 (by simp) h) v)
  obtain ⟨hlen, hdur, -⟩ := writeByteTrace_counts v (sdaAnswer s 0)
  exact performs_of_emitAll (s := accept s) (sameBus_returnWrite _ _) rfl rfl ⟨hlen, hdur⟩

theorem readByte_performs {s t : State} (hr : Ready s) {n : Bool} (h : exec (.readByte n) s = .next t) :
    Performs s t (if n then 46 else 47) 36 := by
  obtain rfl := outcome_next_inj h (exec_readByte hr (admitted_of_next hr.1 (by simp) h) n)
  obtain ⟨hlen, hdur, -⟩ := readByteTrace_counts n (sentByte s 0)
  exact performs_of_emitAll (s := accept s) (sameBus_returnRead _ _) rfl rfl ⟨hlen, hdur⟩

/-- WRITEBYTES sends `n` bytes and counts all of them, or all but the last, which was refused (R151, R152, R186). -/
theorem writeBytes_performs {s t : State} (hr : Ready s) {buf : Addr} {len : Len} (h : exec (.writeBytes buf len) s = .next t) :
    ∃ n, Performs s t (48 * n) (30 * n) ∧ n ≤ len.toNat ∧ (n = 0 ↔ buf = nullAddr ∨ len = 0) ∧
      (t.ret = BitVec.ofNat Config.RET_BITS n ∨ t.ret = BitVec.ofNat Config.RET_BITS (n - 1)) := by
  by_cases hn : buf = nullAddr
  · subst hn
    obtain rfl := outcome_next_inj h (exec_writeBytes_null hr.1 len)
    exact ⟨0, performs_nothing (sameBus_of rfl) rfl rfl, Nat.zero_le _, by simp, .inl retCount_zero⟩
  by_cases hl : len = 0
  · subst hl
    obtain rfl := outcome_next_inj h (exec_writeBytes_zero hr.1 hn)
    exact ⟨0, performs_nothing (sameBus_of rfl) rfl rfl, Nat.zero_le _, by simp, .inl retCount_zero⟩
  obtain ⟨m, hm, -, hs, e⟩ := exec_writeBytes_stops hr (bound_of_writeBytes hr.1 hn hl h) hn hl
  obtain rfl := outcome_next_inj h e
  refine ⟨m + 1, ?_, hm, by simp [hn, show ¬ len = 0#_ from hl], ?_⟩
  · exact performs_of_emitAll (s := setIdx 0 (captureBuffer buf len (accept s))) (sameBus_finishWriteBytes _ _) rfl rfl
      (sentTrace_counts ..)
  · change retCount _ = _ ∨ retCount _ = _
    cases hk : sdaAnswer s m with
    | true => exact .inr (by rw [if_pos rfl, retCount_eq, toNat_index hm.le, Nat.add_sub_cancel])
    | false => exact .inl (by rw [if_neg (by decide), retCount_eq, hs hk])

/-- READBYTES reads `len` bytes, or none with a null buffer (R154, R156, R186). -/
theorem readBytes_performs {s t : State} (hr : Ready s) {buf : Addr} {len : Len} (h : exec (.readBytes buf len) s = .next t) :
    if buf = nullAddr then Performs s t 0 0 else Performs s t (47 * (len.toNat - 1) + 46) (36 * len.toNat) := by
  split
  · next hn =>
    subst hn
    obtain rfl := outcome_next_inj h (exec_readBytes_null hr.1 len)
    exact performs_nothing (sameBus_of rfl) rfl rfl
  · next hn =>
    obtain ⟨hs, -, hl, hm⟩ := admitted_of_readBytes hr.1 hn h
    have hrun := run_readBytes (s := setIdx 0 (captureBuffer buf len (accept s))) hr.2 rfl hl
    obtain rfl := outcome_next_inj h ((exec_readBytes hr.1 hs hn hl hm).trans (congrArg _ hrun))
    exact performs_of_emitAll (s := setIdx 0 (captureBuffer buf len (accept s)))
      ((sameBus_stored _ _ _).trans (sameBus_finishReadBytes _)) rfl rfl
      (readTrace_counts _ (BitVec.lt_def.1 (zero_lt_of_ne_zero hl)))

/-- Settles O44: the count of each command's own trace. -/
theorem countsAndDurations : Obligations.CountsAndDurations := by
  unfold Obligations.CountsAndDurations
  intro s t hr
  exact ⟨fun _ _ _ => start_performs hr, restart_performs hr, stop_performs hr, fun _ => writeByte_performs hr,
    fun _ => readByte_performs hr, fun _ _ => writeBytes_performs hr, fun _ _ => readBytes_performs hr⟩

end Sys2Proof.Machine

/-! SUPPORT. What READBYTES stores and leaves, the refused byte inside WRITEBYTES, and the round trip against a loop-back peer (R41, R151,
R154, R155, R159, R160). -/

namespace Sys2Proof.Machine

open Sys2Proof.Safety

/-! ### A refused byte inside WRITEBYTES -/

/-- The last micro-operation of a byte's body inside WRITEBYTES is a wait, and steps 4d to 5 go with it (R131, R151). -/
theorem microStep_endOfByte {s : State} (h : s.seq = .writeBytes .w10) : microStep s = nextWriteBytes (waitH s) := by
  rw [microStep, h]
  rfl

/-- WRITEBYTES stops at a refused byte with its index (R151 step 4d). -/
theorem nextWriteBytes_refused {s : State} (h : s.ackl = true) : nextWriteBytes s = finishWriteBytes (retCount s.idx) s := if_pos h

/-- Settles O45: the wait leaves ACKL and IDX, and the return of IDX follows in the same micro-step. -/
theorem nackReturnsTheIndex : Obligations.NackReturnsTheIndex := by
  unfold Obligations.NackReturnsTheIndex
  intro s hq ha
  rw [microStep_endOfByte hq, nextWriteBytes_refused (s := waitH s) ha]
  exact ⟨rfl, rfl, rfl⟩

/-! ### READBYTES to its return -/

/-- READBYTES in a session, into a buffer in memory: its trace, the bytes the environment sends stored in ascending order, and the
return (R154). -/
theorem exec_readBytes_stores {s : State} (hr : Ready s) (hb : s.bound = true) {buf : Addr} {len : Len} (hn : buf ≠ nullAddr)
    (hl : len ≠ 0) (hm : bufferInMemory buf len = true) : exec (.readBytes buf len) s =
      .next (finishReadBytes (stored (sentByte s) len.toNat
        (emitAll (readTrace (sentByte s) len.toNat) (setIdx 0 (captureBuffer buf len (accept s)))))) :=
  (exec_readBytes hr.1 hb hn hl hm).trans
    (congrArg _ (run_readBytes (s := setIdx 0 (captureBuffer buf len (accept s))) hr.2 rfl hl))

/-- A byte read leaves SDA released and SCL driven, and so do bytes before it (R135, R154). -/
theorem regs_receivedTrace {w : Nat} (sda scl : BitVec w) (f : Nat → Byte) (n : Nat) (v : Byte) (a : Bool) (r : PortRegs w) :
    (receivedTrace f n ++ readByteTrace a v).foldl (fun r u => regsAfter sda scl u r) r =
      { dir := (r.dir ||| scl) &&& ~~~sda, out := r.out } := by
  induction n generalizing v a with
  | zero => exact regs_readByte sda scl a v r
  | succ n ih =>
    rw [receivedTrace_succ, List.foldl_append, ih, regs_readByte]
    refine PortRegs.eq_of (BitVec.eq_of_getLsbD_eq fun i hi => ?_) rfl
    simp only [BitVec.getLsbD_and, BitVec.getLsbD_or, BitVec.getLsbD_not, hi]
    cases r.dir.getLsbD i <;> cases sda.getLsbD i <;> cases scl.getLsbD i <;> rfl

theorem regs_readTrace {w : Nat} (sda scl : BitVec w) (f : Nat → Byte) {n : Nat} (hn : 0 < n) (r : PortRegs w) :
    (readTrace f n).foldl (fun r u => regsAfter sda scl u r) r = { dir := (r.dir ||| scl) &&& ~~~sda, out := r.out } := by
  obtain ⟨m, rfl⟩ := Nat.exists_eq_add_of_lt hn
  rw [Nat.zero_add, readTrace_succ]
  exact regs_receivedTrace sda scl f m _ true r

/-- Settles O26: the trace and the pins are those of `readTrace`, and memory is what the stores in ascending order leave. -/
theorem readBytesResult : Obligations.ReadBytesResult := by
  unfold Obligations.ReadBytesResult
  intro s buf len hr hb hn hl hm
  obtain ⟨htrace, -, hregs⟩ := ((sameBus_stored (sentByte s) len.toNat _).trans (sameBus_finishReadBytes _)).emitAll_result
    (us := readTrace (sentByte s) len.toNat) (s := setIdx 0 (captureBuffer buf len (accept s)))
  refine ⟨_, exec_readBytes_stores hr hb hn hl hm, rfl, rfl, rfl, htrace, fun j hj hlast => ?_,
    hregs.trans (regs_readTrace _ _ _ (BitVec.lt_def.1 (zero_lt_of_ne_zero hl)) _)⟩
  generalize hx : emitAll _ (setIdx 0 _) = x
  have hbuf : x.bufr = buf := by rw [← hx, emitAll_bufr]; rfl
  subst hbuf
  exact memRead_stored (sentByte s) len.toNat x hj hlast

/-! ### The words of a script -/

/-- With its word listed, a sample of the pin reads the bit the word is for (R26, R27). -/
theorem sdaAnswer_scripted {s : State} {k : Nat} {b : Bool} (hs : s.sda ≠ 0) (h : s.extLow[k]? = some (answerWord s.sda b)) :
    sdaAnswer s k = b := by
  have hword : extWord s k = answerWord s.sda b := by rw [extWord, h, Option.getD_some]
  cases b with
  | false => exact sdaAnswer_stuck (by rw [hword]; exact BitVec.and_self)
  | true => exact sdaAnswer_absent hs (by rw [hword]; exact BitVec.zero_and)

/-- Blocks of `n` elements each: element `k` of block `j`. -/
theorem getElem?_flatMap_blocks {α β : Type} {f : α → List β} {n : Nat} (hf : ∀ a, (f a).length = n) {l : List α} {j k : Nat}
    {a : α} (h : l[j]? = some a) (hk : k < n) : (l.flatMap f)[n * j + k]? = (f a)[k]? := by
  induction l generalizing j with
  | nil => simp at h
  | cons b l ih =>
    rw [List.flatMap_cons]
    cases j with
    | zero =>
      obtain rfl : b = a := by simpa using h
      rw [Nat.mul_zero, Nat.zero_add, List.getElem?_append_left (by rwa [hf])]
    | succ j =>
      rw [List.getElem?_append_right (by rw [hf, Nat.mul_succ]; omega), hf, ← ih (by simpa using h)]
      congr 1
      rw [Nat.mul_succ]
      omega

/-- Bit `7 - k` of a byte goes over the wire as its bit number `k` (R45). -/
theorem getElem?_msbFirst (v : Byte) {k : Nat} (hk : k < 8) : (msbFirst v)[k]? = some (v.getLsbD (7 - k)) := by
  interval_cases k <;> rfl

/-- The bits of a byte in wire order make the byte (R45, R136). -/
theorem assembled_of_bits {f : Nat → Bool} {v : Byte} (h : ∀ k, k < 8 → f k = v.getLsbD (7 - k)) : assembled f = v := by
  have hwire : msbFirst (assembled f) = msbFirst v := by
    rw [msbFirst_assembled, h 0 (by decide), h 1 (by decide), h 2 (by decide), h 3 (by decide), h 4 (by decide), h 5 (by decide),
      h 6 (by decide), h 7 (by decide)]
    rfl
  refine BitVec.eq_of_getLsbD_eq fun i hi => ?_
  have hbit := congrArg (·[7 - i]?) hwire
  have hi' : 7 - (7 - i) = i := by omega
  simpa only [getElem?_msbFirst _ (show 7 - i < 8 by omega), hi', Option.some.injEq] using hbit

/-- The words with which a peer sends bytes, MSB first: the second part of the loop-back script (R160). -/
def echoScript (sda : Mask) (bytes : List Byte) : List Mask := bytes.flatMap fun v => (msbFirst v).map (answerWord sda)

theorem loopBackScript_eq (sda : Mask) (bytes : List Byte) :
    loopBackScript sda bytes = bytes.map (fun _ => answerWord sda false) ++ echoScript sda bytes := rfl

/-- Against the words that send bytes, the `j`-th byte a read receives is byte `j` (R136). -/
theorem sentByte_echo {s : State} {bytes : List Byte} (hs : s.sda ≠ 0) (he : s.extLow = echoScript s.sda bytes) {j : Nat} {v : Byte}
    (hj : bytes[j]? = some v) : sentByte s j = v := by
  refine assembled_of_bits fun k hk => sdaAnswer_scripted hs ?_
  rw [he, echoScript, getElem?_flatMap_blocks (n := 8) (fun _ => rfl) hj hk, List.getElem?_map, getElem?_msbFirst v hk, Option.map_some]

/-- A loop-back peer acknowledges every byte written (R160). -/
theorem sdaAnswer_loopBack {s : State} {bytes : List Byte} (hs : s.sda ≠ 0) (he : s.extLow = loopBackScript s.sda bytes) {j : Nat}
    (hj : j < bytes.length) : sdaAnswer s j = false := by
  refine sdaAnswer_scripted hs ?_
  rw [he, loopBackScript_eq, List.getElem?_append_left (by simpa using hj), List.getElem?_map, List.getElem?_eq_getElem hj,
    Option.map_some]

theorem sessionOf_extLow (i : Instr) (s : State) : (sessionOf i s).extLow = s.extLow := by cases i <;> rfl

/-- A command draws one of the environment's words for each sample in what T has grown by (R32, R97). -/
theorem extLow_of_trace {i : Instr} {s t : State} {us : List Micro} (h0 : s.rst = []) (h : exec i s = .next t)
    (htrace : t.trace = s.trace ++ us) : t.extLow = s.extLow.drop (us.map samplesOf).sum := by
  obtain ⟨vs, -, -, hbus⟩ := exec_emits h
  obtain rfl | hb := hbus h0
  · obtain rfl : us = [] := by simpa using htrace
    rfl
  · rw [hb.trace, emitAll_trace, sessionOf_trace] at htrace
    obtain rfl := List.append_cancel_left htrace
    rw [hb.extLow, emitAll_extLow, sessionOf_extLow]

/-! ### The round trip -/

/-- The bytes of a buffer, in ascending order. -/
def bufferBytes (s : State) (buf : Addr) (len : Len) : List Byte := (List.range len.toNat).map fun j => memRead s (buf.plus j)

theorem length_bufferBytes (s : State) (buf : Addr) (len : Len) : (bufferBytes s buf len).length = len.toNat := by
  rw [bufferBytes, List.length_map, List.length_range]

theorem getElem?_bufferBytes (s : State) (buf : Addr) {len : Len} {j : Nat} (hj : j < len.toNat) :
    (bufferBytes s buf len)[j]? = some (memRead s (buf.plus j)) := by
  rw [bufferBytes, List.getElem?_map, List.getElem?_range hj, Option.map_some]

theorem bufferBytes_congr {s t : State} (h : SameMemory s t) (buf : Addr) (len : Len) : bufferBytes t buf len = bufferBytes s buf len :=
  List.map_congr_left fun j _ => h (buf.plus j)

/-- A WRITEBYTES buffer in memory sends the bytes that stand there (R42, R53). -/
theorem ackedTrace_inMemory {s : State} {buf : Addr} {len : Len} (hm : bufferInMemory buf len = true) :
    ackedTrace (sourceByte s buf) len.toNat = ackedTrace (fun j => memRead s (buf.plus j)) len.toNat := by
  refine List.flatMap_congr fun j hj => congrArg (writeByteTrace · false) ?_
  exact loadByte_memory (by rw [isMemory, bufferInMemory_iff.1 hm j (List.mem_range.1 hj)]; rfl) _

/-- WRITEBYTES against a loop-back peer: every byte is acknowledged, and the words that send the bytes back are still to come (R160). -/
theorem writeBytes_loopBack {s : State} {data : Addr} {len : Len} (hr : Ready s) (hb : s.bound = true) (hs : s.sda ≠ 0)
    (hn : data ≠ nullAddr) (hl : len ≠ 0) (hm : bufferInMemory data len = true)
    (he : s.extLow = loopBackScript s.sda (bufferBytes s data len)) :
    ∃ t, exec (.writeBytes data len) s = .next t ∧ t.ret = len.setWidth Config.RET_BITS ∧
      t.trace = s.trace ++ ackedTrace (fun j => memRead s (data.plus j)) len.toNat ∧
      Ready t ∧ SameSession s t ∧ t.extLow = echoScript s.sda (bufferBytes s data len) := by
  obtain ⟨t, ht, hret, hbusy, -, htrace, -⟩ := writeBytesAllAcknowledged s data len hr hb hn hl fun j hj =>
    sdaAnswer_loopBack hs he (by rwa [length_bufferBytes])
  obtain ⟨hsess, -, -, -, hrst⟩ := exec_frame rfl hr.2 ht
  refine ⟨t, ht, hret, by rw [htrace, ackedTrace_inMemory hm], ⟨hbusy, hrst.trans hr.2⟩, hsess, ?_⟩
  rw [extLow_of_trace hr.2 ht htrace, samples_ackedTrace, he, loopBackScript_eq]
  exact List.drop_left' (by rw [List.length_map, length_bufferBytes])

/-- READBYTES against a peer that sends bytes: they stand in the buffer (R154, R159). -/
theorem readBytes_echo {s : State} {buf : Addr} {len : Len} {bytes : List Byte} (hr : Ready s) (hb : s.bound = true) (hs : s.sda ≠ 0)
    (hn : buf ≠ nullAddr) (hl : len ≠ 0) (hm : bufferInMemory buf len = true) (he : s.extLow = echoScript s.sda bytes) :
    ∃ t, exec (.readBytes buf len) s = .next t ∧ t.ret = BitVec.ofInt Config.RET_BITS Config.READ_OK ∧ Ready t ∧ SameSession s t ∧
      ∀ j v, j < len.toNat → LastAt buf len j → bytes[j]? = some v → memRead t (buf.plus j) = v := by
  obtain ⟨t, ht, hret, hbusy, -, -, hstored, -⟩ := readBytesResult s buf len hr hb hn hl hm
  obtain ⟨hsess, -, -, -, hrst⟩ := exec_frame rfl hr.2 ht
  exact ⟨t, ht, hret, ⟨hbusy, hrst.trans hr.2⟩, hsess, fun j v hj hlast hv => (hstored j hj hlast).trans (sentByte_echo hs he hv)⟩

/-- START, RESTART and STOP that return leave the block ready, and buffer memory and the environment's words as they were (R36). -/
theorem condition_passes {i : Instr} {s t : State} (hi : (∃ p a b, i = .start p a b) ∨ i = .restart ∨ i = .stop) (hr : Ready s)
    (h : exec i s = .next t) (hbusy : t.busy = false) : Ready t ∧ SameMemory s t ∧ t.extLow = s.extLow := by
  obtain ⟨hmem, -, -, ⟨hwords, -⟩, -, hrst⟩ := condition_frame hi hr.2 h
  exact ⟨⟨hbusy, hrst.trans hr.2⟩, hmem, hwords⟩

/-- Settles O43: the conditions around the two transfers keep memory and the script, WRITEBYTES draws its acknowledges, and READBYTES
receives the rest. -/
theorem roundTrip : Obligations.RoundTrip := by
  unfold Obligations.RoundTrip
  intro s p a b data buf len hr hpins hdata hbuf hl hmd hmb hscript
  obtain ⟨ha, -, -⟩ := pinMasks_pins hpins
  obtain ⟨s1, h1, -, rfl, -, hbound1, hbusy1, -⟩ := startBindsAndTakesTheBus s p a b hr hpins
  obtain ⟨hr1, hmem1, hwords1⟩ := condition_passes (.inl ⟨p, _, b, rfl⟩) hr h1 hbusy1
  have hbytes : bufferBytes s1 data len = bufferBytes s data len := bufferBytes_congr hmem1 data len
  obtain ⟨s2, h2, hret2, htrace2, hr2, ⟨-, hsda2, -, hbound2⟩, hwords2⟩ :=
    writeBytes_loopBack hr1 hbound1 ha hdata hl hmd (hwords1.trans (hbytes ▸ hscript))
  rw [hbound1] at hbound2
  obtain ⟨s3, h3, ⟨-, hsda3, -, hbound3⟩, hbusy3, -⟩ := (restartResult s2 hr2).2 hbound2
  obtain ⟨hr3, -, hwords3⟩ := condition_passes (.inr (.inl rfl)) hr2 h3 hbusy3
  rw [hbound2] at hbound3
  rw [hsda2] at hsda3
  obtain ⟨s4, h4, hret4, hr4, ⟨-, -, -, hbound4⟩, hread4⟩ :=
    readBytes_echo hr3 hbound3 (hsda3 ▸ ha) hbuf hl hmb (by rw [hwords3, hwords2, hsda3])
  obtain ⟨s5, h5, -, hbusy5, -⟩ := (stopResult s4 hr4).2 (hbound4.trans hbound3)
  obtain ⟨-, hmem5, -⟩ := condition_passes (.inr (.inr rfl)) hr4 h5 hbusy5
  refine ⟨s1, s2, s3, s4, s5, h1, h2, h3, h4, h5, hret2, ?_, hret4, fun j hj hlast => ?_⟩
  · rw [htrace2, funext fun j => hmem1 (data.plus j)]
  · exact (hmem5 _).trans (hread4 j _ hj hlast (hbytes ▸ getElem?_bufferBytes s data hj))

end Sys2Proof.Machine

/-! SUPPORT. The uses of a command with no defined meaning, each refused by name in the order of the checks (R175, R177). -/

namespace Sys2Proof.Machine

/-- The commands that would touch the bus of the session, so that R175 refuses them while BOUND = 0. -/
def UsesSession : Instr → Prop
  | .start _ _ _        => False
  | .restart            => True
  | .stop               => True
  | .writeByte _        => True
  | .readByte _         => True
  | .writeBytes buf len => buf ≠ nullAddr ∧ len ≠ 0
  | .readBytes buf len  => buf ≠ nullAddr ∧ len ≠ 0

/-- A command that would touch the bus while there is no session (R175 `no_session`): no check before the session test applies (R177). -/
theorem exec_noSession {i : Instr} {s : State} (hi : UsesSession i) (hb : s.busy = false) (hs : s.bound = false) :
    exec i s = .refused .noSession := by
  cases i with
  | start p a b => exact hi.elim
  | restart => simp [exec, execRestart, hb, hs]
  | stop => simp [exec, execStop, hb, hs]
  | writeByte v => simp [exec, execWriteByte, hb, hs]
  | readByte n => simp [exec, execReadByte, hb, hs]
  | writeBytes buf len =>
    obtain ⟨hn, hl⟩ := hi
    simp only [exec, execWriteBytes, hb, hs, if_neg (not_isNull hn), if_neg hl, Bool.false_eq_true, if_false]
  | readBytes buf len =>
    obtain ⟨hn, hl⟩ := hi
    simp only [exec, execReadBytes, hb, hs, if_neg (not_isNull hn), if_neg hl, Bool.false_eq_true, Bool.not_false, if_false, if_true]

/-- START on masks that are not two disjoint single bits (R112, R175 `bad_masks`). -/
theorem exec_start_badMasks {s : State} (hb : s.busy = false) (p : PortRef) {a b : Mask} (hm : pinMasks a b = false) :
    exec (.start p a b) s = .refused .badMasks := by
  simp [exec, execStart, hb, masksOk, hm]

/-- READBYTES of no bytes, before the session test (R175 `read_length_zero`, R177). -/
theorem exec_readBytes_zero {s : State} (hb : s.busy = false) {buf : Addr} (hn : buf ≠ nullAddr) :
    exec (.readBytes buf 0) s = .refused .readLengthZero := by
  simp [exec, execReadBytes, hb, not_isNull hn]

/-- Settles O28: the mask test, the length test, and the session test of every command that uses the session. -/
theorem refusedUses : Obligations.RefusedUses := by
  unfold Obligations.RefusedUses
  intro s hb
  refine ⟨fun p _ _ hm => exec_start_badMasks hb p hm, fun _ hn => exec_readBytes_zero hb hn, fun hs => ?_⟩
  have refused {i : Instr} (hi : UsesSession i) : exec i s = .refused .noSession := exec_noSession hi hb hs
  exact ⟨refused trivial, refused trivial, fun _ => refused trivial, fun _ => refused trivial,
    fun _ _ hn hl => ⟨refused ⟨hn, hl⟩, refused ⟨hn, hl⟩⟩⟩

end Sys2Proof.Machine

/-! SUPPORT. The reset input (70_reset_and_hazards.md: R200 to R202): its effect on the machine, and a command with a reset to come against
the same command undisturbed. -/

namespace Sys2Proof.Machine

/-- Settles O11: the reset that is due is the whole step, and writes neither the GPIO block nor memory. -/
theorem resetInputEffect : Obligations.ResetInputEffect := fun s hr =>
  ⟨takeReset s, if_pos hr, rfl, rfl, rfl, rfl, fun _ => rfl, fun _ => rfl⟩

/-! ### A micro-step does not look at the reset input -/

/-- The same state with other assertions of `rst` to come. -/
def withResets (rs : List Nat) (s : State) : State := { s with rst := rs }

section

variable (rs : List Nat)

theorem setSda_withResets (b : Bool) (s : State) : setSda b (withResets rs s) = withResets rs (setSda b s) := by
  cases b <;> rfl

theorem nextWriteBit_withResets (pos : WriteStep → Seq) (s : State) :
    nextWriteBit pos (withResets rs s) = withResets rs (nextWriteBit pos s) := by
  simp only [nextWriteBit, apply_ite (withResets rs)]
  rfl

theorem nextReadBit_withResets (pos : ReadStep → Seq) (s : State) :
    nextReadBit pos (withResets rs s) = withResets rs (nextReadBit pos s) := by
  simp only [nextReadBit, apply_ite (withResets rs)]
  rfl

theorem nextWriteBytes_withResets (s : State) : nextWriteBytes (withResets rs s) = withResets rs (nextWriteBytes s) := by
  simp only [nextWriteBytes, apply_ite (withResets rs)]
  rfl

theorem beginIndexedRead_withResets (s : State) : beginIndexedRead (withResets rs s) = withResets rs (beginIndexedRead s) := by
  simp only [beginIndexedRead, apply_ite (withResets rs)]
  rfl

theorem nextReadBytes_withResets (last : Bool) (s : State) :
    nextReadBytes last (withResets rs s) = withResets rs (nextReadBytes last s) := by
  cases last with
  | false => exact beginIndexedRead_withResets rs { storeIndexed s with idx := s.idx + 1 }
  | true => rfl

theorem writeByteStep_withResets (pos : WriteStep → Seq) {done : State → State}
    (hd : ∀ s, done (withResets rs s) = withResets rs (done s)) (k : WriteStep) (s : State) :
    writeByteStep pos done k (withResets rs s) = withResets rs (writeByteStep pos done k s) := by
  cases k with
  | w2a => exact congrArg (goTo (pos .w2b)) (setSda_withResets rs _ s)
  | w2e => exact nextWriteBit_withResets rs pos (drvScl s)
  | w10 => exact hd (waitH s)
  | _ => rfl

theorem readByteStep_withResets (pos : ReadStep → Seq) {done : State → State}
    (hd : ∀ s, done (withResets rs s) = withResets rs (done s)) (k : ReadStep) (s : State) :
    readByteStep pos done k (withResets rs s) = withResets rs (readByteStep pos done k s) := by
  cases k with
  | r3e => exact nextReadBit_withResets rs pos (drvScl s)
  | r9 => exact hd (relSda s)
  | _ => rfl

theorem microStep_withResets (s : State) : microStep (withResets rs s) = withResets rs (microStep s) := by
  have hseq : (withResets rs s).seq = s.seq := rfl
  unfold microStep
  rw [hseq]
  split
  · rfl
  · next k _ => cases k <;> rfl
  · next k _ => cases k <;> rfl
  · next k _ => cases k <;> rfl
  · next k _ => exact writeByteStep_withResets rs _ (done := finishWriteByte) (fun _ => rfl) k s
  · next k _ => exact readByteStep_withResets rs _ (done := finishReadByte) (fun _ => rfl) k s
  · next k _ => exact writeByteStep_withResets rs _ (nextWriteBytes_withResets rs) k s
  · next last k _ => exact readByteStep_withResets rs _ (nextReadBytes_withResets rs last) k s

theorem entryOf_withResets (i : Instr) (s : State) : entryOf i (withResets rs s) = withResets rs (entryOf i s) := by
  cases i with
  | readBytes buf len => exact beginIndexedRead_withResets rs { captureBuffer buf len (accept s) with idx := 0 }
  | _ => rfl

end

/-! ### A run with a reset to come against the undisturbed run -/

/-- The reset comes before the next micro-operation (R200, R202). -/
theorem engineStep_resetDue (r : List Nat) (s : State) : engineStep (withResets (0 :: r) s) = resetBlock (withResets r s) := rfl

/-- The reset comes later: one micro-operation brings it nearer (R200). -/
theorem engineStep_resetLater (k : Nat) (r : List Nat) (s : State) :
    engineStep (withResets ((k + 1) :: r) s) = withResets (k :: r) (microStep s) := microStep_withResets (k :: r) s

/-- What a reset makes of a command that has performed the micro-operations `us` from `s` when it lands: the block reset, the pins as
`us` leave them (R201, R202). -/
def Abandoned (us : List Micro) (r : List Nat) (s t : State) : Prop :=
  ∃ x, t = resetBlock x ∧ x.rst = r ∧ x.gpio = (emitAll us s).gpio

/-- From `s`, `t` is what a run becomes that ends in `u` undisturbed, when the next reset is `k` micro-operations away: with `us` the
micro-operations of the undisturbed run, the run is abandoned within them or the reset is still to come (R202). -/
def ResetAhead (k : Nat) (r : List Nat) (s t u : State) : Prop :=
  ∃ us, SameBus (emitAll us s) u ∧ (k < us.length → Abandoned (us.take k) r s t) ∧
    (us.length ≤ k → t = withResets ((k - us.length) :: r) u)

variable {k : Nat} {r : List Nat}

/-- Where no micro-operation is performed the reset stays as far away. -/
theorem resetAhead_of_sameBus {s u : State} (h : SameBus s u) : ResetAhead k r s (withResets (k :: r) u) u :=
  ⟨[], h, fun hk => absurd hk (Nat.not_lt_zero k), fun _ => rfl⟩

/-- Only the session, the pins and T of the state a run begins in matter. -/
theorem ResetAhead.of_sameBus {s x t u : State} (h : ResetAhead k r x t u) (hx : SameBus s x) : ResetAhead k r s t u := by
  obtain ⟨us, hbus, hdue, hlater⟩ := h
  refine ⟨us, (sameBus_emitAll us hx).trans hbus, fun hk => ?_, hlater⟩
  obtain ⟨y, ht, hr, hg⟩ := hdue hk
  exact ⟨y, ht, hr, hg.trans (emitAll_gpio_congr _ hx.port hx.sda hx.scl hx.gpio)⟩

/-- A micro-operation before the rest of the run: the reset was one further away. -/
theorem ResetAhead.cons {s t v : State} {u : Micro} (h : ResetAhead k r (emit u s) t v) : ResetAhead (k + 1) r s t v := by
  obtain ⟨us, hbus, hdue, hlater⟩ := h
  refine ⟨u :: us, hbus, fun hk => hdue (Nat.lt_of_succ_lt_succ hk), fun hk => ?_⟩
  rw [List.length_cons, Nat.add_sub_add_right]
  exact hlater (Nat.le_of_succ_le_succ hk)

/-- Up to the reset a run performs the micro-operations of the undisturbed one; by induction on the steps left to the engine (R202). -/
theorem run_resetAhead (n k : Nat) {s : State} (h : s.rst = []) : ResetAhead k r s (run n (withResets (k :: r) s)) (run n s) := by
  induction n generalizing k s with
  | zero => exact resetAhead_of_sameBus (.refl s)
  | succ n ih =>
    by_cases hq : s.seq = .idle
    · rw [run_idle _ hq, run_idle _ (show (withResets (k :: r) s).seq = .idle from hq)]
      exact resetAhead_of_sameBus (.refl s)
    · obtain ⟨u, hu, -, -⟩ := microStep_emits hq
      have hrst : (microStep s).rst = [] := by rw [hu.rst, emit_rst, h]
      rw [run_succ hq h, run, if_neg (show (withResets (k :: r) s).seq ≠ .idle from hq)]
      cases k with
      | zero =>
        obtain ⟨us, hbus, -, -⟩ := (ih 0 hrst).of_sameBus hu
        rw [engineStep_resetDue, run_idle _ rfl]
        exact ⟨u :: us, hbus, fun _ => ⟨_, rfl, rfl, rfl⟩, fun hk => absurd hk (Nat.not_succ_le_zero _)⟩
      | succ k =>
        rw [engineStep_resetLater]
        exact ((ih k hrst).of_sameBus hu).cons

/-! ### A command with a reset to come against the undisturbed command -/

/-- The answers of a command with a reset to come and of the undisturbed command, where both are a next state. -/
def ResetAnswer (k : Nat) (r : List Nat) (s : State) (a b : Host.Outcome State Fault Refusal) : Prop :=
  ∀ t u, a = .next t → b = .next u → ResetAhead k r s t u

theorem ResetAnswer.refused {s : State} {x y : Refusal} : ResetAnswer k r s (.refused x) (.refused y) :=
  fun _ _ h => by cases h

theorem ResetAnswer.next {s t u : State} (h : ResetAhead k r s t u) : ResetAnswer k r s (.next t) (.next u) := by
  rintro _ _ ⟨rfl⟩ ⟨rfl⟩
  exact h

theorem ResetAnswer.ite {s : State} {c : Prop} [Decidable c] {a a' b b' : Host.Outcome State Fault Refusal}
    (h : c → ResetAnswer k r s a b) (h' : ResetAnswer k r s a' b') :
    ResetAnswer k r s (if c then a else a') (if c then b else b') := by
  split
  · exact h ‹c›
  · exact h'

/-- The engine's part of a command. -/
theorem resetAnswer_run (i : Instr) (n : Nat) {s : State} (h : s.rst = []) :
    ResetAnswer k r (sessionOf i s) (.next (run n (entryOf i (withResets (k :: r) s)))) (.next (run n (entryOf i s))) := by
  have he := sameBus_entryOf i s
  rw [entryOf_withResets]
  exact .next ((run_resetAhead n k (by rw [he.rst, sessionOf_rst, h])).of_sameBus he)

/-- No check of a command looks at the reset input (R177). -/
theorem resetAnswer_exec (i : Instr) {s : State} (hb : s.busy = false) (h : s.rst = []) :
    ResetAnswer k r (sessionOf i s) (exec i (withResets (k :: r) s)) (exec i s) := by
  have hrun := resetAnswer_run (k := k) (r := r) i (mostMicros i) h
  have ignored {P : Prop} (hc : s.busy = true) : P := absurd (hb.symm.trans hc) nofun
  have returned {u : State} (hu : SameBus s u) : ResetAnswer k r s (.next (withResets (k :: r) u)) (.next u) :=
    .next (resetAhead_of_sameBus hu)
  cases i with
  | start p a b => exact .ite ignored (.ite (fun _ => hrun) .refused)
  | restart => exact .ite ignored (.ite (fun _ => hrun) .refused)
  | stop => exact .ite ignored (.ite (fun _ => hrun) .refused)
  | writeByte v => exact .ite ignored (.ite (fun _ => hrun) .refused)
  | readByte n => exact .ite ignored (.ite (fun _ => hrun) .refused)
  | writeBytes buf len =>
    exact .ite ignored (.ite (fun _ => returned (u := returnValue _ (forgetOperands (captureBuffer buf len (accept s)))) (sameBus_of rfl))
      (.ite (fun _ => returned (u := returnValue _ (forgetIndex (forgetOperands (captureBuffer buf len (accept s))))) (sameBus_of rfl))
        (.ite (fun _ => hrun) .refused)))
  | readBytes buf len =>
    exact .ite ignored (.ite (fun _ => returned (u := returnValue _ (forgetOperands (captureBuffer buf len (accept s)))) (sameBus_of rfl))
      (.ite (fun _ => .refused) (.ite (fun _ => .refused) (.ite (fun _ => .refused) (.ite (fun _ => hrun) .refused)))))

/-- Settles O12: the micro-operations of the undisturbed command, which its trace lists, are performed until the reset lands. -/
theorem resetInMidCommand : Obligations.ResetInMidCommand := by
  intro i s t u k r tr hb hrst ht hu htr
  have hs : s = withResets (k :: r) { s with rst := [] } := by rw [withResets, ← hrst]
  rw [hs] at ht
  obtain ⟨us, hbus, hdue, hlater⟩ := resetAnswer_exec i (s := { s with rst := [] }) hb rfl t u ht hu
  have hlist : tr = us := by
    rw [hbus.trace, emitAll_trace, sessionOf_trace] at htr
    exact (List.append_cancel_left htr).symm
  subst hlist
  refine ⟨fun hk => ?_, hlater⟩
  obtain ⟨x, rfl, hxr, hxg⟩ := hdue hk
  refine ⟨rfl, rfl, rfl, rfl, hxr, hxg.trans (emitAll_gpio_congr _ ?_ ?_ ?_ (sessionOf_gpio i _))⟩
  · rw [hbus.port, emitAll_port]
  · rw [hbus.sda, emitAll_sda]
  · rw [hbus.scl, emitAll_scl]

end Sys2Proof.Machine
